-- ==== Sys2Proof/Word.lean ====
section
/-! DEFINITION. The bit and byte types of the core: 32-bit register values and addresses (rules R6, R23),
bytes, and 16-byte blocks (rule R7). -/

namespace Sys2Proof

/-- A byte of memory or of a block. -/
abbrev Byte := BitVec 8

/-- A 32-bit register value, command word, address or length (rules R6, R14). -/
abbrev Word := BitVec 32

/-- A block, key, IV or 16-byte tag: the byte string `B[0], …, B[15]` of rule R7. -/
abbrev Block := Vector Byte 16

/-- The block `0^16` of rule R9. -/
def Block.zero : Block := Vector.replicate 16 0

end Sys2Proof
end

