-- ==== Sys2Proof/Machine/Block.lean ====
section
/-! DEFINITION. Byte strings and blocks (rules R7, R9), the 128-bit integer view (rule R8), and the bytes of a
register word (rules R25, R26, R69). -/

namespace Sys2Proof.Machine

/-- Bytewise `XOR` of two blocks (rule R9). -/
def xorBlock (a b : Block) : Block := Vector.zipWith (fun x y => x ^^^ y) a b

/-- The block whose bytes are the first 16 of a byte string, zeros after its end. -/
def blockOfBytes (bytes : List Byte) : Block := Vector.ofFn fun k => bytes.getD k 0

/-- `int128(B)`: byte 0 is the most significant byte (rule R8). -/
def int128 (b : Block) : BitVec 128 :=
  BitVec.ofNat 128 (b.toList.foldl (fun acc byte => acc * 256 + byte.toNat) 0)

/-- `bytes128(v)`, the inverse of `int128` (rule R8). -/
def bytes128 (v : BitVec 128) : Block := Vector.ofFn fun j => v.extractLsb' (8 * (15 - j)) 8

/-- Byte `j` of a word, the most significant first: `v[31 - 8j : 24 - 8j]` (rules R25, R26, R69). -/
def wordByte (v : Word) (j : Fin 4) : Byte := v.extractLsb' (24 - 8 * j) 8

/-- The word of four bytes, the most significant first (rule R70). -/
def wordOfBytes (b0 b1 b2 b3 : Byte) : Word := b0 ++ b1 ++ b2 ++ b3

/-- The 16 bytes of four words, each word most significant byte first (rules R25, R26, R70). -/
def blockOfWords (words : Vector Word 4) : Block :=
  Vector.ofFn fun k => wordByte words[k.val / 4] (Fin.ofNat 4 k)

end Sys2Proof.Machine
end

