-- ==== Sys2Proof/Machine/Aes.lean ====
section
/-! DEFINITION. The AES-128 block datapath (rules R61 to R73): pure functions that touch no register and no memory
(notes/assumptions/14.md). -/

namespace Sys2Proof.Machine

/-- `xtime` (rule R62). -/
def xtime (b : Byte) : Byte := (b <<< 1) ^^^ (if b.getLsbD 7 then 0x1B else 0x00)

/-- `xtime^i` (rule R62). -/
def xtimes : Nat → Byte → Byte
  | 0, a => a
  | i + 1, a => xtime (xtimes i a)

/-- The product `a • b` in GF(2^8) (rule R62). -/
def gfMul (a b : Byte) : Byte :=
  (List.range 8).foldl (fun acc i => if b.getLsbD i then acc ^^^ xtimes i a else acc) 0

/-- The multiplicative inverse: the byte with `a • inv(a) = 1`, and `inv(0) = 0` (rule R62). -/
def gfInv (a : Byte) : Byte :=
  ((List.range 256).map (BitVec.ofNat 8)).find? (fun b => gfMul a b == 1) |>.getD 0

/-- The affine map of rule R63. -/
def sboxAffine (b : Byte) : Byte :=
  b ^^^ b.rotateRight 4 ^^^ b.rotateRight 5 ^^^ b.rotateRight 6 ^^^ b.rotateRight 7 ^^^ 0x63

/-- The table of rule R63, one row for each high nibble. -/
def sboxTable : List Byte :=
  [0x63, 0x7c, 0x77, 0x7b, 0xf2, 0x6b, 0x6f, 0xc5, 0x30, 0x01, 0x67, 0x2b, 0xfe, 0xd7, 0xab, 0x76] ++
  [0xca, 0x82, 0xc9, 0x7d, 0xfa, 0x59, 0x47, 0xf0, 0xad, 0xd4, 0xa2, 0xaf, 0x9c, 0xa4, 0x72, 0xc0] ++
  [0xb7, 0xfd, 0x93, 0x26, 0x36, 0x3f, 0xf7, 0xcc, 0x34, 0xa5, 0xe5, 0xf1, 0x71, 0xd8, 0x31, 0x15] ++
  [0x04, 0xc7, 0x23, 0xc3, 0x18, 0x96, 0x05, 0x9a, 0x07, 0x12, 0x80, 0xe2, 0xeb, 0x27, 0xb2, 0x75] ++
  [0x09, 0x83, 0x2c, 0x1a, 0x1b, 0x6e, 0x5a, 0xa0, 0x52, 0x3b, 0xd6, 0xb3, 0x29, 0xe3, 0x2f, 0x84] ++
  [0x53, 0xd1, 0x00, 0xed, 0x20, 0xfc, 0xb1, 0x5b, 0x6a, 0xcb, 0xbe, 0x39, 0x4a, 0x4c, 0x58, 0xcf] ++
  [0xd0, 0xef, 0xaa, 0xfb, 0x43, 0x4d, 0x33, 0x85, 0x45, 0xf9, 0x02, 0x7f, 0x50, 0x3c, 0x9f, 0xa8] ++
  [0x51, 0xa3, 0x40, 0x8f, 0x92, 0x9d, 0x38, 0xf5, 0xbc, 0xb6, 0xda, 0x21, 0x10, 0xff, 0xf3, 0xd2] ++
  [0xcd, 0x0c, 0x13, 0xec, 0x5f, 0x97, 0x44, 0x17, 0xc4, 0xa7, 0x7e, 0x3d, 0x64, 0x5d, 0x19, 0x73] ++
  [0x60, 0x81, 0x4f, 0xdc, 0x22, 0x2a, 0x90, 0x88, 0x46, 0xee, 0xb8, 0x14, 0xde, 0x5e, 0x0b, 0xdb] ++
  [0xe0, 0x32, 0x3a, 0x0a, 0x49, 0x06, 0x24, 0x5c, 0xc2, 0xd3, 0xac, 0x62, 0x91, 0x95, 0xe4, 0x79] ++
  [0xe7, 0xc8, 0x37, 0x6d, 0x8d, 0xd5, 0x4e, 0xa9, 0x6c, 0x56, 0xf4, 0xea, 0x65, 0x7a, 0xae, 0x08] ++
  [0xba, 0x78, 0x25, 0x2e, 0x1c, 0xa6, 0xb4, 0xc6, 0xe8, 0xdd, 0x74, 0x1f, 0x4b, 0xbd, 0x8b, 0x8a] ++
  [0x70, 0x3e, 0xb5, 0x66, 0x48, 0x03, 0xf6, 0x0e, 0x61, 0x35, 0x57, 0xb9, 0x86, 0xc1, 0x1d, 0x9e] ++
  [0xe1, 0xf8, 0x98, 0x11, 0x69, 0xd9, 0x8e, 0x94, 0x9b, 0x1e, 0x87, 0xe9, 0xce, 0x55, 0x28, 0xdf] ++
  [0x8c, 0xa1, 0x89, 0x0d, 0xbf, 0xe6, 0x42, 0x68, 0x41, 0x99, 0x2d, 0x0f, 0xb0, 0x54, 0xbb, 0x16]

/-- The table of rule R64, one row for each high nibble. -/
def sboxInvTable : List Byte :=
  [0x52, 0x09, 0x6a, 0xd5, 0x30, 0x36, 0xa5, 0x38, 0xbf, 0x40, 0xa3, 0x9e, 0x81, 0xf3, 0xd7, 0xfb] ++
  [0x7c, 0xe3, 0x39, 0x82, 0x9b, 0x2f, 0xff, 0x87, 0x34, 0x8e, 0x43, 0x44, 0xc4, 0xde, 0xe9, 0xcb] ++
  [0x54, 0x7b, 0x94, 0x32, 0xa6, 0xc2, 0x23, 0x3d, 0xee, 0x4c, 0x95, 0x0b, 0x42, 0xfa, 0xc3, 0x4e] ++
  [0x08, 0x2e, 0xa1, 0x66, 0x28, 0xd9, 0x24, 0xb2, 0x76, 0x5b, 0xa2, 0x49, 0x6d, 0x8b, 0xd1, 0x25] ++
  [0x72, 0xf8, 0xf6, 0x64, 0x86, 0x68, 0x98, 0x16, 0xd4, 0xa4, 0x5c, 0xcc, 0x5d, 0x65, 0xb6, 0x92] ++
  [0x6c, 0x70, 0x48, 0x50, 0xfd, 0xed, 0xb9, 0xda, 0x5e, 0x15, 0x46, 0x57, 0xa7, 0x8d, 0x9d, 0x84] ++
  [0x90, 0xd8, 0xab, 0x00, 0x8c, 0xbc, 0xd3, 0x0a, 0xf7, 0xe4, 0x58, 0x05, 0xb8, 0xb3, 0x45, 0x06] ++
  [0xd0, 0x2c, 0x1e, 0x8f, 0xca, 0x3f, 0x0f, 0x02, 0xc1, 0xaf, 0xbd, 0x03, 0x01, 0x13, 0x8a, 0x6b] ++
  [0x3a, 0x91, 0x11, 0x41, 0x4f, 0x67, 0xdc, 0xea, 0x97, 0xf2, 0xcf, 0xce, 0xf0, 0xb4, 0xe6, 0x73] ++
  [0x96, 0xac, 0x74, 0x22, 0xe7, 0xad, 0x35, 0x85, 0xe2, 0xf9, 0x37, 0xe8, 0x1c, 0x75, 0xdf, 0x6e] ++
  [0x47, 0xf1, 0x1a, 0x71, 0x1d, 0x29, 0xc5, 0x89, 0x6f, 0xb7, 0x62, 0x0e, 0xaa, 0x18, 0xbe, 0x1b] ++
  [0xfc, 0x56, 0x3e, 0x4b, 0xc6, 0xd2, 0x79, 0x20, 0x9a, 0xdb, 0xc0, 0xfe, 0x78, 0xcd, 0x5a, 0xf4] ++
  [0x1f, 0xdd, 0xa8, 0x33, 0x88, 0x07, 0xc7, 0x31, 0xb1, 0x12, 0x10, 0x59, 0x27, 0x80, 0xec, 0x5f] ++
  [0x60, 0x51, 0x7f, 0xa9, 0x19, 0xb5, 0x4a, 0x0d, 0x2d, 0xe5, 0x7a, 0x9f, 0x93, 0xc9, 0x9c, 0xef] ++
  [0xa0, 0xe0, 0x3b, 0x4d, 0xae, 0x2a, 0xf5, 0xb0, 0xc8, 0xeb, 0xbb, 0x3c, 0x83, 0x53, 0x99, 0x61] ++
  [0x17, 0x2b, 0x04, 0x7e, 0xba, 0x77, 0xd6, 0x26, 0xe1, 0x69, 0x14, 0x63, 0x55, 0x21, 0x0c, 0x7d]

/-- The S-box `S` (rule R63). -/
def sbox (a : Byte) : Byte := sboxTable.getD a.toNat 0

/-- The inverse S-box `Sinv` (rule R64). -/
def sboxInv (a : Byte) : Byte := sboxInvTable.getD a.toNat 0

/-- The AES state: the cell `s[r, c]` of a loaded block, column by column (rule R61). -/
def cell (s : Block) (r c : Fin 4) : Byte := s[r.val + 4 * c.val]

/-- The block whose cells are given (rule R61). -/
def ofCells (f : Fin 4 → Fin 4 → Byte) : Block :=
  Vector.ofFn fun k => f (Fin.ofNat 4 k) ⟨k.val / 4, by omega⟩

/-- `SubBytes` (rule R65). -/
def subBytes (s : Block) : Block := ofCells fun r c => sbox (cell s r c)

/-- `InvSubBytes` (rule R65). -/
def invSubBytes (s : Block) : Block := ofCells fun r c => sboxInv (cell s r c)

/-- `ShiftRows` (rule R66). -/
def shiftRows (s : Block) : Block := ofCells fun r c => cell s r (c + r)

/-- `InvShiftRows` (rule R66). -/
def invShiftRows (s : Block) : Block := ofCells fun r c => cell s r (c - r)

/-- One column of `MixColumns` (rule R67). -/
def mixColumn (s0 s1 s2 s3 : Byte) : Fin 4 → Byte
  | 0 => gfMul 0x02 s0 ^^^ gfMul 0x03 s1 ^^^ s2 ^^^ s3
  | 1 => s0 ^^^ gfMul 0x02 s1 ^^^ gfMul 0x03 s2 ^^^ s3
  | 2 => s0 ^^^ s1 ^^^ gfMul 0x02 s2 ^^^ gfMul 0x03 s3
  | 3 => gfMul 0x03 s0 ^^^ s1 ^^^ s2 ^^^ gfMul 0x02 s3

/-- One column of `InvMixColumns` (rule R68). -/
def invMixColumn (s0 s1 s2 s3 : Byte) : Fin 4 → Byte
  | 0 => gfMul 0x0E s0 ^^^ gfMul 0x0B s1 ^^^ gfMul 0x0D s2 ^^^ gfMul 0x09 s3
  | 1 => gfMul 0x09 s0 ^^^ gfMul 0x0E s1 ^^^ gfMul 0x0B s2 ^^^ gfMul 0x0D s3
  | 2 => gfMul 0x0D s0 ^^^ gfMul 0x09 s1 ^^^ gfMul 0x0E s2 ^^^ gfMul 0x0B s3
  | 3 => gfMul 0x0B s0 ^^^ gfMul 0x0D s1 ^^^ gfMul 0x09 s2 ^^^ gfMul 0x0E s3

/-- `MixColumns` (rule R67). -/
def mixColumns (s : Block) : Block :=
  ofCells fun r c => mixColumn (cell s 0 c) (cell s 1 c) (cell s 2 c) (cell s 3 c) r

/-- `InvMixColumns` (rule R68). -/
def invMixColumns (s : Block) : Block :=
  ofCells fun r c => invMixColumn (cell s 0 c) (cell s 1 c) (cell s 2 c) (cell s 3 c) r

/-- `Rcon[j]`, for j in 1..10 (rule R71). -/
def rcon (j : Nat) : Byte := xtimes (j - 1) 0x01

/-- `RotWord` (rule R70). -/
def rotWord (v : Word) : Word := wordOfBytes (wordByte v 1) (wordByte v 2) (wordByte v 3) (wordByte v 0)

/-- `SubWord` (rule R70). -/
def subWord (v : Word) : Word :=
  wordOfBytes (sbox (wordByte v 0)) (sbox (wordByte v 1)) (sbox (wordByte v 2)) (sbox (wordByte v 3))

/-- `temp` of rule R70 for word `i`, from `w[i - 1]`. -/
def scheduleTemp (i : Nat) (prev : Word) : Word :=
  if i % 4 = 0 then subWord (rotWord prev) ^^^ (rcon (i / 4)).setWidth 32 <<< 24 else prev

/-- The first `4 + n` words of the key schedule, the last one first (rule R70). -/
def scheduleWords (key : Block) : Nat → List Word
  | 0 => [wordOfBytes key[12] key[13] key[14] key[15], wordOfBytes key[8] key[9] key[10] key[11],
          wordOfBytes key[4] key[5] key[6] key[7], wordOfBytes key[0] key[1] key[2] key[3]]
  | n + 1 =>
    let words := scheduleWords key n
    (words.getD 3 0 ^^^ scheduleTemp (n + 4) (words.getD 0 0)) :: words

/-- `KeyExpansion(K)`: the words `w[0..43]` (rule R70). -/
def keyExpansion (key : Block) : Vector Word 44 :=
  let words := scheduleWords key 40
  Vector.ofFn fun i => words.getD (43 - i) 0

/-- `AddRoundKey(s, i)` (rule R69). -/
def addRoundKey (w : Vector Word 44) (i : Fin 11) (s : Block) : Block :=
  ofCells fun r c => cell s r c ^^^ wordByte w[4 * i.val + c.val] r

/-- One of the rounds 1 to 9 of `AES_ENC` (rule R72). -/
def encRound (w : Vector Word 44) (i : Fin 11) (s : Block) : Block :=
  addRoundKey w i (mixColumns (shiftRows (subBytes s)))

/-- One of the rounds 9 down to 1 of `AES_DEC` (rule R73). -/
def decRound (w : Vector Word 44) (i : Fin 11) (s : Block) : Block :=
  invMixColumns (addRoundKey w i (invSubBytes (invShiftRows s)))

/-- `AES_ENC` under a key schedule (rule R72). -/
def aesEncWith (w : Vector Word 44) (input : Block) : Block :=
  let s := [1, 2, 3, 4, 5, 6, 7, 8, 9].foldl (fun s i => encRound w i s) (addRoundKey w 0 input)
  addRoundKey w 10 (shiftRows (subBytes s))

/-- `AES_DEC` under a key schedule (rule R73). -/
def aesDecWith (w : Vector Word 44) (input : Block) : Block :=
  let s := [9, 8, 7, 6, 5, 4, 3, 2, 1].foldl (fun s i => decRound w i s) (addRoundKey w 10 input)
  addRoundKey w 0 (invSubBytes (invShiftRows s))

/-- `AES_ENC(K, in)` (rule R72). -/
def aesEnc (key input : Block) : Block := aesEncWith (keyExpansion key) input

/-- `AES_DEC(K, in)` (rule R73). -/
def aesDec (key input : Block) : Block := aesDecWith (keyExpansion key) input

end Sys2Proof.Machine
end

