-- ==== Sys2Proof/Machine/CbcMath.lean ====
section
/-! DEFINITION. One block of CBC and the CBC equations (rules R76 to R78; notes/assumptions/14.md). -/

namespace Sys2Proof.Machine

/-- The direction of a CBC command (rule R76). -/
inductive Direction where
  | enc
  | dec
  deriving DecidableEq, Repr

/-- The output block `o` of rule R76 for input block `b` and chaining value `cv`. -/
def cbcOutput (dir : Direction) (w : Vector Word 44) (cv b : Block) : Block :=
  match dir with
  | .enc => aesEncWith w (xorBlock b cv)
  | .dec => xorBlock (aesDecWith w b) cv

/-- The chaining value after a block (rule R76): the ciphertext block. -/
def cbcNextCv (dir : Direction) (b o : Block) : Block :=
  match dir with
  | .enc => o
  | .dec => b

/-- The equations of rule R77: `C_i = AES_ENC(K, P_i XOR C_(i-1))`, from the chaining value `cv`. -/
def cbcEncrypt (key : Block) : Block → List Block → List Block
  | _, [] => []
  | cv, p :: ps =>
    let c := aesEnc key (xorBlock p cv)
    c :: cbcEncrypt key c ps

/-- The equations of rule R78: `P_i = AES_DEC(K, C_i) XOR C_(i-1)`, from the chaining value `cv`. -/
def cbcDecrypt (key : Block) : Block → List Block → List Block
  | _, [] => []
  | cv, c :: cs => xorBlock (aesDec key c) cv :: cbcDecrypt key c cs

end Sys2Proof.Machine
end

