-- ==== Sys2Proof/Config.lean ====
section
/-! DEFINITION. The implementation parameters of rule R5. The fixed ones are numerals; `NUM_INSTANCES` is OPEN and
stands as a constant without a body (notes/assumptions/6.md). The other OPEN parameters, `CRYPTO_BASE` and `BUS_OK`,
are fields of the state that no step writes (notes/assumptions/5.md, 20.md). -/

namespace Sys2Proof.Config

/-- The size of the memory space: byte addresses are 0 to 2^32 - 1 (rules R5, R30). -/
def memorySize : Nat := 2 ^ 32

/-- The size in bytes of the register window (rules R14, R30). -/
def windowSize : Nat := 64

/-- `CRYPTO_BASE / 64` of the platform that `State.reset` stands on: 0x50000000 / 64 (notes/assumptions/20.md). -/
def resetWindow : Nat := 0x1400000

/-- The number of copies of the core beyond the modelled one: OPEN. -/
opaque otherInstances : Nat

/-- `NUM_INSTANCES`: OPEN, at least 1 (rules R5, R101). -/
def numInstances : Nat := otherInstances + 1

end Sys2Proof.Config
end

