-- ==== Sys2Proof/Syntax.lean ====
section
/-! DEFINITION. What can be written to and said to the core: the four commands (rules R2, R47), the one format
of a command word (rule R46), the slots of the register window (rule R14), the turns of the interleaving
(rules R11, R39) and the host-program notation (rule R51). -/

namespace Sys2Proof

/-- The commands, one constructor per row of spec/opcode_table.json. No command carries an operand: every
operand comes from a register (rule R48). -/
inductive Instr where
  /-- `CBC_ENC`, rule R77. -/
  | cbcEnc
  /-- `CBC_DEC`, rule R78. -/
  | cbcDec
  /-- `CMAC128`, rule R88. -/
  | cmac128
  /-- `CMAC64`, rule R89. -/
  | cmac64
  deriving DecidableEq, Repr

/-- The format of a command word (rules R45, R46). -/
structure CommandWord where
  /-- `OP`, bits 3:0. -/
  op : BitVec 4
  /-- `RSVD`, bits 31:4. -/
  rsvd : BitVec 28
  deriving DecidableEq, Repr

/-- The sixteen slots of the register window (rule R14). -/
inductive Slot where
  /-- Offset 0x00. -/
  | cmd
  /-- Offset 0x04. -/
  | status
  /-- Offset 0x08. -/
  | src
  /-- Offset 0x0C. -/
  | dst
  /-- Offset 0x10. -/
  | len
  /-- The reserved offsets 0x14, 0x18 and 0x1C. -/
  | reserved (k : Fin 3)
  /-- `KEYk`, offset 0x20 + 4k. -/
  | key (k : Fin 4)
  /-- `IVk`, offset 0x30 + 4k. -/
  | iv (k : Fin 4)
  deriving DecidableEq, Repr

/-- One turn of the interleaving of host and core (rules R11, R39). The offset of a register access is its byte
offset from `CRYPTO_BASE`; `bits` is the width of the bus access. -/
inductive Input where
  /-- The core takes its next step, if it has one. -/
  | core
  /-- A host read in the register window (rules R15, R93). -/
  | regRead (off : BitVec 6) (bits : Nat)
  /-- A host write in the register window presenting `v` (rules R15, R93). -/
  | regWrite (off : BitVec 6) (bits : Nat) (v : Word)
  /-- A load of one memory byte by the host or another bus master (rules R30, R101). -/
  | memLoad (a : Word)
  /-- A store of one memory byte by the host or another bus master (rules R30, R101). -/
  | memStore (a : Word) (b : Byte)
  /-- The platform asserts reset (rule R104). -/
  | reset
  /-- The host reads `STATUS` until `BUSY` is 0 (rules R51, R94). -/
  | poll
  deriving DecidableEq, Repr

/-- A line of the host-program notation (rule R51). The name an `RD` line binds is the host program's own. -/
inductive HostLine where
  /-- `WR <slot>, <imm32>`. -/
  | wr (slot : Slot) (v : Word)
  /-- `RD <slot> -> <name>`. -/
  | rd (slot : Slot) (name : String)
  /-- `POLL`. -/
  | poll
  /-- `MEM <addr>: <hex bytes>`. -/
  | mem (addr : Word) (bytes : List Byte)
  /-- `KEY <32 hex digits>`, the digits read as one number. -/
  | key (digits : BitVec 128)
  /-- `IV <32 hex digits>`, the digits read as one number. -/
  | iv (digits : BitVec 128)
  /-- `RUN <mnemonic>`. -/
  | run (i : Instr)
  deriving DecidableEq, Repr

end Sys2Proof
end

