-- ==== Sys2Proof/WellFormed.lean ====
section
/-! DEFINITION. The checks on syntax: `legal` of a command word (rule R46) and what a line of the host-program
notation may name (rule R51). -/

namespace Sys2Proof

/-- `RSVD = 0` (rule R46). -/
def CommandWord.reservedClear (c : CommandWord) : Bool := c.rsvd == 0

/-- `OP in {1, 2, 3, 4}` (rule R46). -/
def CommandWord.opAssigned (c : CommandWord) : Bool :=
  c.op == 1 || c.op == 2 || c.op == 3 || c.op == 4

/-- `legal(v)` of rule R46, on the fields of `v`. -/
def CommandWord.wf (c : CommandWord) : Bool := c.reservedClear && c.opAssigned

/-- A command carries no operand (rule R48), so every term of `Instr` is well formed. -/
def Instr.wf : Instr → Bool
  | .cbcEnc => true
  | .cbcDec => true
  | .cmac128 => true
  | .cmac64 => true

/-- Rule R51: the notation names every slot but the reserved ones. -/
def Slot.named : Slot → Bool
  | .reserved _ => false
  | .cmd | .status | .src | .dst | .len | .key _ | .iv _ => true

/-- Rules R30, R51: a line names no reserved slot and stores no byte beyond the memory space. -/
def HostLine.wf : HostLine → Bool
  | .wr slot _ => slot.named
  | .rd slot _ => slot.named
  | .mem addr bytes => decide (addr.toNat + bytes.length ≤ Config.memorySize)
  | .poll | .key _ | .iv _ | .run _ => true

end Sys2Proof
end

