-- ==== Sys2Proof/Decode.lean ====
section
/-! DEFINITION. The decoder and the encoder of command words (rules R45 to R47, R49). The format is one 32-bit
value, the value the host's store presents (rule R32), so there is no byte order and no length to decode. -/

namespace Sys2Proof

/-- Why a command word spells no command (rule R49). -/
inductive DecodeError where
  /-- `RSVD` is not 0 (rule R46). -/
  | reservedBits
  /-- `OP` is 0 or 5 to 15 (rule R47). -/
  | reservedOp
  deriving DecidableEq, Repr

/-- `OP = v[3:0]` and `RSVD = v[31:4]` (rule R46). -/
def commandFields (v : Word) : CommandWord where
  op := v.extractLsb' 0 4
  rsvd := v.extractLsb' 4 28

/-- The word of the two fields (rule R46). -/
def CommandWord.toWord (c : CommandWord) : Word := c.rsvd ++ c.op

/-- The opcode map (rule R47). -/
def decodeOp (op : BitVec 4) : Except DecodeError Instr :=
  match op.toNat with
  | 1 => .ok .cbcEnc
  | 2 => .ok .cbcDec
  | 3 => .ok .cmac128
  | 4 => .ok .cmac64
  | _ => .error .reservedOp

/-- Decoding a command word: every word selects at most one command, and every other word is reserved
(rules R46, R47, R49). -/
def decode (v : Word) : Except DecodeError Instr :=
  if (commandFields v).rsvd = 0 then decodeOp (commandFields v).op else .error .reservedBits

/-- The `OP` value of a command (rule R47). -/
def opOf : Instr → BitVec 4
  | .cbcEnc => 1
  | .cbcDec => 2
  | .cmac128 => 3
  | .cmac64 => 4

/-- The command word of a command (rule R47). -/
def encode (i : Instr) : Word := CommandWord.toWord { op := opOf i, rsvd := 0 }

/-- The command word whose low `nbits` bits are those of `w`, every other bit 0, numbered as
spec/opcode_table.json numbers them (bit 0 the least significant). -/
def tableWord (nbits w : Nat) : Word := BitVec.ofNat 32 (w % 2 ^ nbits)

/-- The command the decoder reads from a table word; none where it refuses. -/
def decodeTableWord (nbits w : Nat) : Option Instr :=
  match decode (tableWord nbits w) with
  | .ok i => some i
  | .error _ => none

end Sys2Proof
end

