-- ==== Sys2Proof/Machine/State.lean ====
section
/-! DEFINITION. The state of the machine: the register window (rule R14), the internal state of a running command
(rule R27), the memory (rule R30), the platform's `CRYPTO_BASE` and `BUS_OK` (rules R5, R31), and the model's own
queue of turns and record of answers; and the state after reset (rules R29, R104). -/

namespace Sys2Proof.Machine

/-- The `kind` of a memory-port access (rule R5). -/
inductive AccessKind where
  | read
  | write
  deriving DecidableEq, Repr

/-- Addresses `base` to `base + size - 1`, where accesses of one kind do not complete: a list of regions is the
predicate `BUS_OK` of rule R31 outside the core's own window, as plain data (notes/assumptions/5.md). -/
structure PortFault where
  base : Nat
  size : Nat
  kind : AccessKind
  deriving DecidableEq, Repr

/-- The result codes of rule R92. -/
inductive ResultCode where
  | ok
  | keyErr
  | opErr
  | badCmd
  deriving DecidableEq, Repr

/-- The position of the running command in its event sequence (rules R13, R27): the event it does next. One
constructor per `check`, `read` and `write` line of rules R54, R76 and R86, and the finish of rule R56. -/
inductive Position where
  /-- The dispatch (rule R54). -/
  | dispatch
  /-- The finish with this code (rule R56). -/
  | finish (code : ResultCode)
  /-- `keycheck()` of rule R76. -/
  | cbcKeyCheck
  /-- The length check of rules R75 and R76. -/
  | cbcLengthCheck
  /-- The range check of rule R76. -/
  | cbcRangeCheck
  /-- The check of rule R76 that takes the key and the IV. -/
  | cbcLoad
  /-- The read of byte `j` of input block `i` (rule R76). -/
  | cbcRead (i : Nat) (j : Fin 16)
  /-- The check of rule R76 that computes output block `i`. -/
  | cbcCompute (i : Nat)
  /-- The write of byte `j` of output block `i` (rule R76). -/
  | cbcWrite (i : Nat) (j : Fin 16)
  /-- The tag-range check of rule R86. -/
  | cmacTagRangeCheck
  /-- The zeroing of tag byte `j` (rule R86). -/
  | cmacZero (j : Fin 16)
  /-- `keycheck()` of rule R86. -/
  | cmacKeyCheck
  /-- The message-range check of rule R86. -/
  | cmacMessageRangeCheck
  /-- The check of rule R86 that takes the key and derives the subkeys. -/
  | cmacLoad
  /-- The read of message byte `m` (rule R86). -/
  | cmacRead (m : Nat)
  /-- The check of rule R86 that computes the tag. -/
  | cmacTag
  /-- The write of tag byte `j` (rule R86). -/
  | cmacWrite (j : Fin 16)
  deriving DecidableEq, Repr

/-- The internal state of a running command (rule R27). -/
structure Engine where
  /-- The command word latched at acceptance. -/
  cmdword : Word
  /-- The position in the event sequence. -/
  pos : Position
  /-- The key schedule `w[0..43]` (rule R70). -/
  w : Vector Word 44
  /-- The CBC chaining value `CV` (rule R76). -/
  cv : Block
  /-- The CMAC running value `X` (rule R86). -/
  x : Block
  /-- `L` (rule R82). -/
  l : Block
  /-- The subkey `K1` (rule R82). -/
  k1 : Block
  /-- The subkey `K2` (rule R82). -/
  k2 : Block
  /-- The input block being assembled. -/
  inBlock : Block
  /-- The output block being written. -/
  outBlock : Block
  deriving DecidableEq, Repr

/-- The phase (rule R13): `STATUS.BUSY` is 1 exactly in `busy`, and only then is there internal state (R27). -/
inductive Phase where
  | idle
  | busy (e : Engine)
  deriving DecidableEq, Repr

/-- What the bus answers a host access (rules R15, R16, R30, R93). -/
inductive Response where
  /-- The value of a register read. -/
  | data (v : Word)
  /-- A register write completed on the bus. -/
  | writeDone
  /-- The host bus error of rule R93. -/
  | busError
  /-- The value of a memory load. -/
  | loaded (b : Byte)
  deriving DecidableEq, Repr

/-- The bytes of the memory space (rule R30) that differ from what an unlisted address reads as, by strictly
rising address. -/
abbrev Memory := List Host.Cell

structure State where
  /-- `SRC` (rule R23). -/
  src : Word
  /-- `DST` (rule R23). -/
  dst : Word
  /-- `LEN` (rule R24). -/
  len : Word
  /-- `KEY0` to `KEY3` (rule R25). -/
  key : Vector Word 4
  /-- `IV0` to `IV3` (rule R26). -/
  iv : Vector Word 4
  /-- `STATUS.DONE` (rule R20). -/
  doneBit : Bool
  /-- `STATUS.RESULT` (rule R21). -/
  result : BitVec 4
  /-- `STATUS.KEYW` (rule R22). -/
  keyw : BitVec 4
  /-- The phase, with the internal state (rules R13, R27); `STATUS.BUSY` is its view (rule R19). -/
  phase : Phase
  /-- The memory space (rule R30). -/
  mem : Memory
  /-- The platform's `CRYPTO_BASE / 64` (rules R5, R14). No step writes it. -/
  cryptoWindow : Nat
  /-- The platform's `BUS_OK`: where it is false beside the core's own window (rule R31). No step writes it. -/
  portFaults : List PortFault
  /-- The model's own: the turns still to come (notes/assumptions/2.md). -/
  inputs : List Input
  /-- The model's own: the answers the host got, newest first (notes/assumptions/9.md). -/
  responses : List Response
  deriving DecidableEq, Repr

/-- Why a step stops. Each is raised only in states that no run reaches (notes/assumptions/11.md). -/
inductive Fault where
  /-- Raised by a command's meaning on an idle core: the core takes no step there (rule R11), and the machine's
  step never asks for one. Safe. -/
  | notRunning
  /-- Raised by a command's meaning when the position belongs to another command's event sequence. Safe. -/
  | strayPosition
  /-- Raised by a memory-port access beyond the 2^32 bytes of rule R30, which the range checks of rule R35 rule
  out. Safe. -/
  | noSuchAddress
  deriving DecidableEq, Repr

/-- Why an instruction has no meaning. -/
inductive Refusal where
  /-- Raised by `exec` for an instruction that is not modelled; no arm raises it. Safe. -/
  | notModelled (mnemonic : String)
  deriving DecidableEq, Repr

/-- The state after reset (rules R29, R104): every slot 0, the internal state empty, the phase idle. Memory lists
nothing, `portFaults`, `inputs` and `responses` are empty, and the window stands at an address of the model's:
notes/assumptions/2.md, 5.md, 7.md, 9.md and 20.md. -/
def State.reset : State where
  src := 0
  dst := 0
  len := 0
  key := Vector.replicate 4 0
  iv := Vector.replicate 4 0
  doneBit := false
  result := 0
  keyw := 0
  phase := .idle
  mem := []
  cryptoWindow := Config.resetWindow
  portFaults := []
  inputs := []
  responses := []

end Sys2Proof.Machine
end

