-- ==== Sys2Proof/Machine/Flags.lean ====
section
/-! DEFINITION. The `STATUS` register: its fields and its 32-bit view (rules R18 to R22), and the numbers of the
result codes (rule R92). The core has no other flag (rule R18). -/

namespace Sys2Proof.Machine

/-- The number of a result code (rule R92). -/
def resultBits : ResultCode → BitVec 4
  | .ok => 0
  | .keyErr => 1
  | .opErr => 2
  | .badCmd => 3

/-- `STATUS.BUSY` (rules R13, R19). -/
def State.busy (s : State) : Bool :=
  match s.phase with
  | .idle => false
  | .busy _ => true

/-- The 32-bit value of `STATUS` (rule R18): bits 31:12 and 3:2 read as 0. -/
def State.status (s : State) : Word :=
  (0 : BitVec 20) ++ s.keyw ++ s.result ++ (0 : BitVec 2) ++ BitVec.ofBool s.doneBit ++ BitVec.ofBool s.busy

/-- `KEYW` after a write of `KEYk`: bit k set (rule R22). -/
def keywWithBit (keyw : BitVec 4) (k : Fin 4) : BitVec 4 := keyw ||| (1 <<< k.val)

/-- `KEYW = 0b1111`: every key slot has been written (rule R55). -/
def State.keySupplied (s : State) : Bool := s.keyw == 0b1111

end Sys2Proof.Machine
end

