-- ==== Sys2Proof/Machine/Operands.lean ====
section
/-! DEFINITION. The operands of the commands, each from a register (rule R48), the addresses a command forms from
them (rules R9, R76, R86), and the range check (rule R35). -/

namespace Sys2Proof.Machine

/-- The key bytes `K[0..15]` (rule R25). -/
def State.keyBytes (s : State) : Block := blockOfWords s.key

/-- The IV bytes `IV[0..15]` (rule R26). -/
def State.ivBytes (s : State) : Block := blockOfWords s.iv

/-- `SRC` as an address (rules R23, R48). -/
def State.srcAddr (s : State) : Nat := s.src.toNat

/-- `DST` as an address (rules R23, R48). -/
def State.dstAddr (s : State) : Nat := s.dst.toNat

/-- `LEN` as a count of bytes (rules R24, R48). -/
def State.length (s : State) : Nat := s.len.toNat

/-- The range `(a, n)` is in range: `a + n <= 2^32`, computed exactly (rule R35). -/
def inRange (a n : Nat) : Bool := decide (a + n ≤ Config.memorySize)

/-- A `LEN` that the CBC commands accept (rule R75). -/
def cbcLengthOk (n : Nat) : Bool := decide (0 < n ∧ n % 16 = 0)

/-- `n`, the number of blocks of a CBC command (rule R76). -/
def State.cbcBlocks (s : State) : Nat := s.length / 16

/-- The address of byte `j` of input block `i` (rule R76). -/
def State.cbcReadAddr (s : State) (i : Nat) (j : Fin 16) : Nat := s.srcAddr + 16 * i + j

/-- The address of byte `j` of output block `i` (rule R76). -/
def State.cbcWriteAddr (s : State) (i : Nat) (j : Fin 16) : Nat := s.dstAddr + 16 * i + j

/-- The address of message byte `m` (rule R86). -/
def State.cmacReadAddr (s : State) (m : Nat) : Nat := s.srcAddr + m

/-- The address of tag byte `j` (rule R86). -/
def State.cmacTagAddr (s : State) (j : Fin 16) : Nat := s.dstAddr + j

end Sys2Proof.Machine
end

