-- ==== Sys2Proof/Machine/Ops.lean ====
section
/-! DEFINITION. The named operations: memory (rules R30, R39), the memory port (rules R10, R31), the lifecycle of a
command (rules R52, R55, R56), reset (rule R104), and the host's accesses (rules R14 to R17, R93).
`State.finish` is the one shared operation by which a command reports a failure; there is no trap to take and
none to return from (rules R96, R97). -/

namespace Sys2Proof.Machine

/-! Memory. -/

/-- What a byte that no write has listed reads as (notes/assumptions/7.md). -/
def Memory.unlisted : Byte := 0

/-- The byte at an address. -/
def Memory.read : Memory → Nat → Byte
  | [], _ => Memory.unlisted
  | (k, v) :: rest, a => if k = a then v else Memory.read rest a

/-- Memory with one byte written, in canonical form. -/
def Memory.write : Memory → Nat → Byte → Memory
  | [], a, v => if v = Memory.unlisted then [] else [(a, v)]
  | (k, u) :: rest, a, v =>
    if a < k then (if v = Memory.unlisted then (k, u) :: rest else (a, v) :: (k, u) :: rest)
    else if a = k then (if v = Memory.unlisted then rest else (a, v) :: rest)
    else (k, u) :: Memory.write rest a v

/-- Canonical form from address `lo` on. -/
def Memory.wfFrom : Nat → Memory → Bool
  | _, [] => true
  | lo, (k, v) :: rest =>
    decide (lo ≤ k) && decide (k < Config.memorySize) && decide (v ≠ Memory.unlisted) && Memory.wfFrom (k + 1) rest

/-- The canonical form: addresses of the memory space, strictly rising, none listed with the value that an
unlisted address reads as. -/
def Memory.wf (m : Memory) : Bool := Memory.wfFrom 0 m

/-- The byte string `M[a], …, M[a + n - 1]` (rule R32). -/
def Memory.bytes (m : Memory) (a n : Nat) : List Byte := (List.range n).map fun k => Memory.read m (a + k)

/-- The block at address `a` (rules R7, R32). -/
def Memory.block (m : Memory) (a : Nat) : Block := Vector.ofFn fun k => Memory.read m (a + k)

/-! The memory port. -/

/-- The accesses that a region of the platform's `portFaults` stops. -/
def PortFault.stops (r : PortFault) (a : Nat) (kind : AccessKind) : Bool :=
  r.kind == kind && decide (r.base ≤ a) && decide (a < r.base + r.size)

/-- `CRYPTO_BASE`, 64-byte aligned (rules R5, R14). -/
def State.cryptoBase (s : State) : Nat := Config.windowSize * s.cryptoWindow

/-- The address lies in the core's own register window (rules R14, R31; notes/assumptions/20.md). -/
def State.inOwnWindow (s : State) (a : Nat) : Bool :=
  decide (s.cryptoBase ≤ a ∧ a < s.cryptoBase + Config.windowSize)

/-- `BUS_OK(addr, kind)` (rules R5, R31): a function of the address, the kind and the platform alone, false over the
core's own window. -/
def State.busOk (s : State) (a : Nat) (kind : AccessKind) : Bool :=
  !s.inOwnWindow a && !s.portFaults.any fun r => r.stops a kind

/-- What `MemRead` gives (rule R10). -/
inductive PortRead where
  | data (b : Byte)
  | busError
  /-- No such address: the access is beyond the memory space (rule R30). -/
  | noSuchAddress
  deriving DecidableEq, Repr

/-- What `MemWrite` gives (rule R10). -/
inductive PortWrite where
  | wrote (m : Memory)
  | busError
  /-- No such address: the access is beyond the memory space (rule R30). -/
  | noSuchAddress
  deriving DecidableEq, Repr

/-- `MemRead(addr, 1)` (rules R10, R31). -/
def State.memRead (s : State) (a : Nat) : PortRead :=
  if a < Config.memorySize then
    if s.busOk a .read then .data (Memory.read s.mem a) else .busError
  else .noSuchAddress

/-- `MemWrite(addr, 1, v)` (rules R10, R31). -/
def State.memWrite (s : State) (a : Nat) (v : Byte) : PortWrite :=
  if a < Config.memorySize then
    if s.busOk a .write then .wrote (Memory.write s.mem a v) else .busError
  else .noSuchAddress

/-! The lifecycle of a command. -/

/-- The internal state just after acceptance (rule R52): the word latched, the position at the dispatch. The rest
is not read before an event of the command sets it (notes/assumptions/10.md). -/
def Engine.start (v : Word) : Engine where
  cmdword := v
  pos := .dispatch
  w := Vector.replicate 44 0
  cv := Block.zero
  x := Block.zero
  l := Block.zero
  k1 := Block.zero
  k2 := Block.zero
  inBlock := Block.zero
  outBlock := Block.zero

/-- Acceptance of a command word (rule R52). -/
def State.accept (s : State) (v : Word) : State :=
  { s with result := 0, doneBit := false, phase := .busy (Engine.start v) }

/-- `finish(code)` (rule R56): result recorded, key, `KEYW` and IV zeroized, internal state cleared, `BUSY` 0,
`DONE` 1. -/
def State.finish (s : State) (code : ResultCode) : State :=
  { s with result := resultBits code, key := Vector.replicate 4 0, keyw := 0, iv := Vector.replicate 4 0,
           phase := .idle, doneBit := true }

/-- The state with this internal state. -/
def State.withEngine (s : State) (e : Engine) : State := { s with phase := .busy e }

/-- The command goes on at this position. -/
def State.goto (s : State) (e : Engine) (p : Position) : State := s.withEngine { e with pos := p }

/-- The position after `keycheck()`: the finish with `KEY_ERR`, or the next event (rule R55). -/
def State.keyCheck (s : State) (next : Position) : Position :=
  if s.keySupplied then next else .finish .keyErr

/-- The position after a check that ends the command with `OP_ERR` unless it holds (rules R75, R76, R86). -/
def opCheck (ok : Bool) (next : Position) : Position := if ok then next else .finish .opErr

/-- An event of a command whose word is not legal (rules R49, R54): the dispatch leads to the finish with
`BAD_CMD`, and there is no other event. -/
def rejectEvent (s : State) (e : Engine) : Host.Outcome State Fault Refusal :=
  match e.pos with
  | .dispatch => .next (s.goto e (.finish .badCmd))
  | .finish code => .next (s.finish code)
  | _ => .fault .strayPosition

/-- Reset (rules R104, R105): every slot 0, the internal state empty, memory untouched. -/
def State.takeReset (s : State) : State :=
  { s with src := 0, dst := 0, len := 0, key := Vector.replicate 4 0, iv := Vector.replicate 4 0,
           doneBit := false, result := 0, keyw := 0, phase := .idle }

/-! The host's accesses. -/

/-- The offset of a slot (rule R14). -/
def slotOffset : Slot → BitVec 6
  | .cmd => 0x00
  | .status => 0x04
  | .src => 0x08
  | .dst => 0x0C
  | .len => 0x10
  | .reserved k => 0x14 + 4 * BitVec.ofNat 6 k
  | .key k => 0x20 + 4 * BitVec.ofNat 6 k
  | .iv k => 0x30 + 4 * BitVec.ofNat 6 k

/-- The slots in the order of their offsets (rule R14). -/
def slotTable : Vector Slot 16 :=
  #v[.cmd, .status, .src, .dst, .len, .reserved 0, .reserved 1, .reserved 2,
     .key 0, .key 1, .key 2, .key 3, .iv 0, .iv 1, .iv 2, .iv 3]

/-- The slot an access reaches: only a 32-bit access at a multiple of 4 reaches one (rules R15, R93). -/
def accessedSlot (off : BitVec 6) (bits : Nat) : Option Slot :=
  if bits = 32 ∧ off.toNat % 4 = 0 then some slotTable[(off.extractLsb' 2 4).toFin] else none

/-- The host address of an offset of the window (rule R15). -/
def State.hostAddress (s : State) (off : BitVec 6) : Nat := s.cryptoBase + off.toNat

/-- The offset in the window of a host address, if it lies there (rules R15, R30). -/
def State.windowOffset (s : State) (a : Nat) : Option (BitVec 6) :=
  if s.inOwnWindow a then some (BitVec.ofNat 6 (a - s.cryptoBase)) else none

/-- The value `HostRead` gives of a slot (rules R14, R16, R17, R25). -/
def State.hostRead (s : State) : Slot → Word
  | .cmd => 0
  | .status => s.status
  | .src => s.src
  | .dst => s.dst
  | .len => s.len
  | .reserved _ => 0
  | .key _ => 0
  | .iv k => s.iv[k]

/-- `HostWrite` of a slot while `BUSY = 0` (rules R14, R17, R18, R22 to R26). -/
def State.hostWriteIdle (s : State) (slot : Slot) (v : Word) : State :=
  match slot with
  | .cmd => s.accept v
  | .status => s
  | .src => { s with src := v }
  | .dst => { s with dst := v }
  | .len => { s with len := v }
  | .reserved _ => s
  | .key k => { s with key := s.key.set k v, keyw := keywWithBit s.keyw k }
  | .iv k => { s with iv := s.iv.set k v }

/-- `HostWrite` of a slot: ignored while `BUSY = 1` (rule R16). -/
def State.hostWrite (s : State) (slot : Slot) (v : Word) : State :=
  if s.busy then s else s.hostWriteIdle slot v

/-- The bus answers the host (notes/assumptions/9.md). -/
def State.respond (s : State) (r : Response) : State := { s with responses := r :: s.responses }

/-- A turn that is not the core's (rules R11, R15, R16, R30, R39, R93, R104). `poll` is one read of `STATUS`, and
while `BUSY = 1` a turn of the core before the next one (notes/assumptions/12.md). -/
def hostStep (turn : Input) (s : State) : State :=
  match turn with
  | .core => s
  | .regRead off bits =>
    match accessedSlot off bits with
    | some slot => s.respond (.data (s.hostRead slot))
    | none => s.respond .busError
  | .regWrite off bits v =>
    match accessedSlot off bits with
    | some slot => (s.hostWrite slot v).respond .writeDone
    | none => s.respond .busError
  | .memLoad a => s.respond (.loaded (Memory.read s.mem a.toNat))
  | .memStore a b => { s with mem := Memory.write s.mem a.toNat b }
  | .reset => s.takeReset
  | .poll =>
    let read := s.respond (.data s.status)
    if s.busy then { read with inputs := .core :: .poll :: read.inputs } else read

end Sys2Proof.Machine
end

