-- ==== Sys2Proof/Machine/Cbc.lean ====
section
/-! DEFINITION. `CBC_ENC` and `CBC_DEC` (rules R75 to R78). A meaning is the next event of the command, by its
position in the sequence of rule R76 (rule R53; notes/assumptions/1.md). -/

namespace Sys2Proof.Machine

/-- Where the block loop of rule R76 goes at its head, for block `i`. -/
def State.cbcLoopHead (s : State) (i : Nat) : Position :=
  if i < s.cbcBlocks then .cbcRead i 0 else .finish .ok

/-- The check that takes the operands: the key schedule of `K`, and `CV` (rules R48, R76). -/
def cbcLoadEvent (s : State) (e : Engine) : Host.Outcome State Fault Refusal :=
  .next (s.withEngine { e with w := keyExpansion s.keyBytes, cv := s.ivBytes, pos := s.cbcLoopHead 0 })

/-- The read of byte `j` of input block `i` (rules R36, R76). -/
def cbcReadEvent (s : State) (e : Engine) (i : Nat) (j : Fin 16) : Host.Outcome State Fault Refusal :=
  match s.memRead (s.cbcReadAddr i j) with
  | .data b =>
    .next (s.withEngine { e with
      inBlock := e.inBlock.set j b
      pos := if j = 15 then .cbcCompute i else .cbcRead i (j + 1) })
  | .busError => .next (s.goto e (.finish .opErr))
  | .noSuchAddress => .fault .noSuchAddress

/-- The check that computes output block `i` and the next chaining value (rules R76 to R78). -/
def cbcComputeEvent (dir : Direction) (s : State) (e : Engine) (i : Nat) : Host.Outcome State Fault Refusal :=
  let o := cbcOutput dir e.w e.cv e.inBlock
  .next (s.withEngine { e with outBlock := o, cv := cbcNextCv dir e.inBlock o, pos := .cbcWrite i 0 })

/-- The write of byte `j` of output block `i` (rules R36, R76). -/
def cbcWriteEvent (s : State) (e : Engine) (i : Nat) (j : Fin 16) : Host.Outcome State Fault Refusal :=
  match s.memWrite (s.cbcWriteAddr i j) e.outBlock[j] with
  | .wrote m =>
    .next { s.goto e (if j = 15 then s.cbcLoopHead (i + 1) else .cbcWrite i (j + 1)) with mem := m }
  | .busError => .next (s.goto e (.finish .opErr))
  | .noSuchAddress => .fault .noSuchAddress

/-- The next event of `cbc_run(dir)` (rules R54, R76). -/
def cbcEvent (dir : Direction) (s : State) : Host.Outcome State Fault Refusal :=
  match s.phase with
  | .idle => .fault .notRunning
  | .busy e =>
    match e.pos with
    | .dispatch => .next (s.goto e .cbcKeyCheck)
    | .finish code => .next (s.finish code)
    | .cbcKeyCheck => .next (s.goto e (s.keyCheck .cbcLengthCheck))
    | .cbcLengthCheck => .next (s.goto e (opCheck (cbcLengthOk s.length) .cbcRangeCheck))
    | .cbcRangeCheck =>
      .next (s.goto e (opCheck (inRange s.srcAddr s.length && inRange s.dstAddr s.length) .cbcLoad))
    | .cbcLoad => cbcLoadEvent s e
    | .cbcRead i j => cbcReadEvent s e i j
    | .cbcCompute i => cbcComputeEvent dir s e i
    | .cbcWrite i j => cbcWriteEvent s e i j
    | .cmacTagRangeCheck | .cmacZero _ | .cmacKeyCheck | .cmacMessageRangeCheck | .cmacLoad | .cmacRead _
    | .cmacTag | .cmacWrite _ => .fault .strayPosition

/-- `CBC_ENC` (rule R77): its next event. -/
def execCbcEnc (s : State) : Host.Outcome State Fault Refusal := cbcEvent .enc s

/-- `CBC_DEC` (rule R78): its next event. -/
def execCbcDec (s : State) : Host.Outcome State Fault Refusal := cbcEvent .dec s

end Sys2Proof.Machine
end

