-- ==== Sys2Proof/Machine/CmacMath.lean ====
section
/-! DEFINITION. The CMAC function and the truncation selector (rules R81 to R85; notes/assumptions/14.md). -/

namespace Sys2Proof.Machine

/-- `dbl(B)` (rule R81). -/
def dbl (b : Block) : Block :=
  bytes128 ((int128 b <<< 1) ^^^ (if (int128 b).getLsbD 127 then 0x87 else 0))

/-- `L` of rule R82, under a key schedule. -/
def cmacL (w : Vector Word 44) : Block := aesEncWith w Block.zero

/-- `K1` (rule R82). -/
def cmacK1 (w : Vector Word 44) : Block := dbl (cmacL w)

/-- `K2` (rule R82). -/
def cmacK2 (w : Vector Word 44) : Block := dbl (cmacK1 w)

/-- `pad(x)` for a byte string of fewer than 16 bytes (rule R83). -/
def pad (x : List Byte) : Block := blockOfBytes (x ++ [0x80])

/-- `n` of rule R84: the number of blocks of a message of `len` bytes. -/
def cmacBlocks (len : Nat) : Nat := if len = 0 then 1 else (len + 15) / 16

/-- `complete` of rule R84. -/
def cmacComplete (len : Nat) : Bool := decide (len ≠ 0 ∧ len % 16 = 0)

/-- `M_last` of rule R84, from the bytes `M_n` of the last block. -/
def cmacLast (len : Nat) (k1 k2 : Block) (last : List Byte) : Block :=
  if cmacComplete len then xorBlock (blockOfBytes last) k1 else xorBlock (pad last) k2

/-- One step of the chain of rule R84. -/
def cmacChain (w : Vector Word 44) (x b : Block) : Block := aesEncWith w (xorBlock x b)

/-- The bytes of block `i`, counted from 0, of a message (rule R84). -/
def messageBlock (message : List Byte) (i : Nat) : List Byte := (message.drop (16 * i)).take 16

/-- `CMAC(K, M)` (rule R84). -/
def cmac (key : Block) (message : List Byte) : Block :=
  let w := keyExpansion key
  let n := cmacBlocks message.length
  let x := (List.range (n - 1)).foldl
    (fun x i => cmacChain w x (blockOfBytes (messageBlock message i))) Block.zero
  cmacChain w x (cmacLast message.length (cmacK1 w) (cmacK2 w) (messageBlock message (n - 1)))

/-- `TRUNC64(T)` (rule R85). -/
def trunc64 (t : Block) : Vector Byte 8 := Vector.ofFn fun i => t[2 * i.val + 1]

end Sys2Proof.Machine
end

