-- ==== Sys2Proof/Machine/Cmac.lean ====
section
/-! DEFINITION. `CMAC128` and `CMAC64` (rules R86, R88, R89). A meaning is the next event of the command, by its
position in the sequence of rule R86 (rule R53; notes/assumptions/1.md). -/

namespace Sys2Proof.Machine

/-- Which tag a CMAC command writes (rules R85, R86). -/
inductive TagKind where
  /-- `CMAC128`: the whole tag. -/
  | full
  /-- `CMAC64`: `TRUNC64` of the tag. -/
  | selected
  deriving DecidableEq, Repr

/-- `TL` of rule R86. -/
def tagLength : TagKind → Nat
  | .full => 16
  | .selected => 8

/-- `out` of rule R86, in a 16-byte output block (notes/assumptions/10.md). -/
def tagOutput (kind : TagKind) (t : Block) : Block :=
  match kind with
  | .full => t
  | .selected => blockOfBytes (trunc64 t).toList

/-- Where a loop over the tag bytes goes after byte `j` (rule R86). -/
def tagLoop (kind : TagKind) (j : Fin 16) (again : Fin 16 → Position) (after : Position) : Position :=
  if j.val + 1 < tagLength kind then again (j + 1) else after

/-- Where the message loop of rule R86 goes at its head, for byte `m`. -/
def State.cmacLoopHead (s : State) (m : Nat) : Position := if m < s.length then .cmacRead m else .cmacTag

/-- The zeroing of tag byte `j` (rules R36, R86). -/
def cmacZeroEvent (kind : TagKind) (s : State) (e : Engine) (j : Fin 16) : Host.Outcome State Fault Refusal :=
  match s.memWrite (s.cmacTagAddr j) 0 with
  | .wrote m => .next { s.goto e (tagLoop kind j .cmacZero .cmacKeyCheck) with mem := m }
  | .busError => .next (s.goto e (.finish .opErr))
  | .noSuchAddress => .fault .noSuchAddress

/-- The check that takes the key and derives the subkeys (rules R82, R86). -/
def cmacLoadEvent (s : State) (e : Engine) : Host.Outcome State Fault Refusal :=
  let w := keyExpansion s.keyBytes
  .next (s.withEngine { e with
    w := w, l := cmacL w, k1 := cmacK1 w, k2 := cmacK2 w, x := Block.zero, pos := s.cmacLoopHead 0 })

/-- The running value after message byte `m` of a message of `len` bytes completed the input block `b`: a full
block that is not the last goes through the chain (rule R86). -/
def cmacRunning (len m : Nat) (w : Vector Word 44) (x b : Block) : Block :=
  if (m + 1) % 16 = 0 ∧ m + 1 < len then cmacChain w x b else x

/-- The read of message byte `m` (rules R36, R86). -/
def cmacReadEvent (s : State) (e : Engine) (m : Nat) : Host.Outcome State Fault Refusal :=
  match s.memRead (s.cmacReadAddr m) with
  | .data b =>
    let inBlock := e.inBlock.set (m % 16) b (Nat.mod_lt m (by decide))
    .next (s.withEngine { e with
      inBlock := inBlock
      x := cmacRunning s.length m e.w e.x inBlock
      pos := s.cmacLoopHead (m + 1) })
  | .busError => .next (s.goto e (.finish .opErr))
  | .noSuchAddress => .fault .noSuchAddress

/-- The bytes of the last block `M_n` (rule R84) that the input block holds. -/
def lastBytes (len : Nat) (inBlock : Block) : List Byte :=
  if cmacComplete len then inBlock.toList else inBlock.toList.take (len % 16)

/-- The check that computes the tag (rules R84 to R86). -/
def cmacTagEvent (kind : TagKind) (s : State) (e : Engine) : Host.Outcome State Fault Refusal :=
  let t := cmacChain e.w e.x (cmacLast s.length e.k1 e.k2 (lastBytes s.length e.inBlock))
  .next (s.withEngine { e with outBlock := tagOutput kind t, pos := .cmacWrite 0 })

/-- The write of tag byte `j` (rules R36, R86). -/
def cmacWriteEvent (kind : TagKind) (s : State) (e : Engine) (j : Fin 16) : Host.Outcome State Fault Refusal :=
  match s.memWrite (s.cmacTagAddr j) e.outBlock[j] with
  | .wrote m => .next { s.goto e (tagLoop kind j .cmacWrite (.finish .ok)) with mem := m }
  | .busError => .next (s.goto e (.finish .opErr))
  | .noSuchAddress => .fault .noSuchAddress

/-- The next event of `cmac_run(TL)` (rules R54, R86). -/
def cmacEvent (kind : TagKind) (s : State) : Host.Outcome State Fault Refusal :=
  match s.phase with
  | .idle => .fault .notRunning
  | .busy e =>
    match e.pos with
    | .dispatch => .next (s.goto e .cmacTagRangeCheck)
    | .finish code => .next (s.finish code)
    | .cmacTagRangeCheck => .next (s.goto e (opCheck (inRange s.dstAddr (tagLength kind)) (.cmacZero 0)))
    | .cmacZero j => cmacZeroEvent kind s e j
    | .cmacKeyCheck => .next (s.goto e (s.keyCheck .cmacMessageRangeCheck))
    | .cmacMessageRangeCheck => .next (s.goto e (opCheck (inRange s.srcAddr s.length) .cmacLoad))
    | .cmacLoad => cmacLoadEvent s e
    | .cmacRead m => cmacReadEvent s e m
    | .cmacTag => cmacTagEvent kind s e
    | .cmacWrite j => cmacWriteEvent kind s e j
    | .cbcKeyCheck | .cbcLengthCheck | .cbcRangeCheck | .cbcLoad | .cbcRead _ _ | .cbcCompute _
    | .cbcWrite _ _ => .fault .strayPosition

/-- `CMAC128` (rule R88): its next event. -/
def execCmac128 (s : State) : Host.Outcome State Fault Refusal := cmacEvent .full s

/-- `CMAC64` (rule R89): its next event. -/
def execCmac64 (s : State) : Host.Outcome State Fault Refusal := cmacEvent .selected s

end Sys2Proof.Machine
end

