-- ==== Sys2Proof/Machine/Step.lean ====
section
/-! DEFINITION. One step of the machine: the next turn of the interleaving (rules R11, R39, R53), and the state in
which the next step runs a given command word. -/

namespace Sys2Proof.Machine

/-- A turn of the core (rules R11, R53, R54, R103): idle, it takes no step; busy, it does the next event of the
command its word spells. -/
def coreStep (s : State) : Host.Outcome State Fault Refusal :=
  match s.phase with
  | .idle => .next s
  | .busy e =>
    match decode e.cmdword with
    | .ok i => exec i s
    | .error _ => rejectEvent s e

/-- One step: the first turn of the queue, or the core's when there is none (notes/assumptions/2.md). -/
def step (s : State) : Host.Outcome State Fault Refusal :=
  match s.inputs with
  | [] => coreStep s
  | .core :: rest => coreStep { s with inputs := rest }
  | turn :: rest => .next (hostStep turn { s with inputs := rest })

/-- The queue with a turn of the core before every turn it holds. -/
def coreFirst (inputs : List Input) : List Input :=
  match inputs with
  | [] => []
  | turn :: rest => .core :: turn :: rest

/-- `s` just after the acceptance (rule R52) of the command word, the next turn the core's: a command has no place
in memory that it is fetched from (rule R13), and this stands for the host's write of `CMD`
(notes/assumptions/4.md). -/
def State.withFetchWord (s : State) (nbits w : Nat) : State :=
  { s.accept (tableWord nbits w) with inputs := coreFirst s.inputs }

end Sys2Proof.Machine
end

