-- ==== Sys2Proof/Machine/HostProgram.lean ====
section
/-! DEFINITION. The host-program notation: the bus accesses each line makes (rule R51). -/

namespace Sys2Proof.Machine

/-- `WR <slot>, v`: one 32-bit write at the slot's offset (rule R51). -/
def wrLine (slot : Slot) (v : Word) : Input := .regWrite (slotOffset slot) 32 v

/-- Word `k` of 32 hex digits, the first digits the most significant (rule R51). -/
def digitsWord (digits : BitVec 128) (k : Fin 4) : Word := digits.extractLsb' (96 - 32 * k) 32

/-- The byte stores of a `MEM` line, at ascending addresses (rule R51). -/
def memLine (addr : Word) : List Byte → List Input
  | [] => []
  | b :: rest => .memStore addr b :: memLine (addr + 1) rest

/-- The accesses of one line (rule R51). -/
def lineInputs : HostLine → List Input
  | .wr slot v => [wrLine slot v]
  | .rd slot _ => [.regRead (slotOffset slot) 32]
  | .poll => [.poll]
  | .mem addr bytes => memLine addr bytes
  | .key digits => [0, 1, 2, 3].map fun k => wrLine (.key k) (digitsWord digits k)
  | .iv digits => [0, 1, 2, 3].map fun k => wrLine (.iv k) (digitsWord digits k)
  | .run i => [wrLine .cmd (encode i), .poll]

/-- The accesses of a host program, in its order (rules R39, R51). -/
def programInputs (lines : List HostLine) : List Input := lines.flatMap lineInputs

end Sys2Proof.Machine
end

