-- ==== Sys2Proof/Safety.lean ====
section
/-! DEFINITION. What the statements about runs are made of: the invariant of the machine, the address an event
stores to, a command run to its end, and the conditions under which it succeeds. -/

namespace Sys2Proof.Machine

/-! The invariant. -/

/-- The checks that a CBC command has passed once it takes its operands (rule R76). -/
def State.cbcChecked (s : State) : Bool :=
  s.keySupplied && cbcLengthOk s.length && (inRange s.srcAddr s.length && inRange s.dstAddr s.length)

/-- The positions of `cbc_run` (rule R76), each with the checks passed before it, and each result with its cause
(rules R92, R95). -/
def cbcPositionOk (s : State) : Position → Bool
  | .dispatch | .cbcKeyCheck => true
  | .finish .ok => s.cbcChecked
  | .finish .keyErr => !s.keySupplied
  | .finish .opErr => s.keySupplied
  | .cbcLengthCheck => s.keySupplied
  | .cbcRangeCheck => s.keySupplied && cbcLengthOk s.length
  | .cbcLoad => s.cbcChecked
  | .cbcRead i _ | .cbcCompute i | .cbcWrite i _ => s.cbcChecked && decide (i < s.cbcBlocks)
  | .finish .badCmd | .cmacTagRangeCheck | .cmacZero _ | .cmacKeyCheck | .cmacMessageRangeCheck | .cmacLoad
  | .cmacRead _ | .cmacTag | .cmacWrite _ => false

/-- The checks that a CMAC command has passed once it takes its key (rule R86). -/
def State.cmacChecked (s : State) (kind : TagKind) : Bool :=
  inRange s.dstAddr (tagLength kind) && s.keySupplied && inRange s.srcAddr s.length

/-- The positions of `cmac_run` (rule R86), each with the checks passed before it, and each result with its cause
(rules R92, R95). -/
def cmacPositionOk (kind : TagKind) (s : State) : Position → Bool
  | .dispatch | .cmacTagRangeCheck => true
  | .finish .ok => s.cmacChecked kind
  | .finish .keyErr => inRange s.dstAddr (tagLength kind) && !s.keySupplied
  | .finish .opErr => true
  | .cmacZero j => inRange s.dstAddr (tagLength kind) && decide (j.val < tagLength kind)
  | .cmacKeyCheck => inRange s.dstAddr (tagLength kind)
  | .cmacMessageRangeCheck => inRange s.dstAddr (tagLength kind) && s.keySupplied
  | .cmacLoad | .cmacTag => s.cmacChecked kind
  | .cmacRead m => s.cmacChecked kind && decide (m < s.length)
  | .cmacWrite j => s.cmacChecked kind && decide (j.val < tagLength kind)
  | .finish .badCmd | .cbcKeyCheck | .cbcLengthCheck | .cbcRangeCheck | .cbcLoad | .cbcRead _ _ | .cbcCompute _
  | .cbcWrite _ _ => false

/-- The positions of a command whose word is not legal (rules R49, R54). -/
def rejectPositionOk (p : Position) : Bool := p == .dispatch || p == .finish .badCmd

/-- The position belongs to the event sequence of the latched word. -/
def positionOk (s : State) (e : Engine) : Bool :=
  match decode e.cmdword with
  | .ok .cbcEnc => cbcPositionOk s e.pos
  | .ok .cbcDec => cbcPositionOk s e.pos
  | .ok .cmac128 => cmacPositionOk .full s e.pos
  | .ok .cmac64 => cmacPositionOk .selected s e.pos
  | .error _ => rejectPositionOk e.pos

/-- From the event that takes the key on, `w` is the key schedule of the key registers, and for a CMAC command
`L`, `K1` and `K2` are its subkeys (rules R27, R76, R82, R86). -/
def scheduleOk (s : State) (e : Engine) : Bool :=
  match e.pos with
  | .cbcRead _ _ | .cbcCompute _ | .cbcWrite _ _ => e.w == keyExpansion s.keyBytes
  | .cmacRead _ | .cmacTag | .cmacWrite _ =>
    e.w == keyExpansion s.keyBytes && e.l == cmacL e.w && e.k1 == cmacK1 e.w && e.k2 == cmacK2 e.w
  | .dispatch | .finish _ | .cbcKeyCheck | .cbcLengthCheck | .cbcRangeCheck | .cbcLoad | .cmacTagRangeCheck
  | .cmacZero _ | .cmacKeyCheck | .cmacMessageRangeCheck | .cmacLoad => true

/-- The phase agrees with the registers: while busy, `DONE` is 0 (rule R20) and the internal state is one the
command can have. -/
def State.phaseOk (s : State) : Bool :=
  match s.phase with
  | .idle => true
  | .busy e => !s.doneBit && positionOk s e && scheduleOk s e

/-- A key register whose `KEYW` bit is 0 holds 0 (rules R22, R25). -/
def State.keyTracked (s : State) : Bool :=
  ([0, 1, 2, 3] : List (Fin 4)).all fun k => s.keyw.getLsbD k || s.key[k] == 0

/-- The invariant that every step keeps. -/
structure Inv (s : State) : Prop where
  /-- Memory has its canonical form. -/
  memory : Memory.wf s.mem = true
  /-- `RESULT` is one of the codes of rule R92. -/
  resultCode : s.result.toNat ≤ 3
  /-- `RESULT` is 0 while `DONE = 0` (rules R21, R111). -/
  resultMeaning : s.doneBit = false → s.result = 0
  /-- A key register that was not written holds 0. -/
  keyTracked : s.keyTracked = true
  /-- The phase agrees with the registers. -/
  phase : s.phaseOk = true

/-! Runs. -/

/-- The address to which the next event of the running command stores, if it stores (rules R76, R86). -/
def State.storeAddr (s : State) : Option Nat :=
  match s.phase with
  | .idle => none
  | .busy e =>
    match e.pos with
    | .cbcWrite i j => some (s.cbcWriteAddr i j)
    | .cmacZero j | .cmacWrite j => some (s.cmacTagAddr j)
    | _ => none

/-- The next event of the running command is its finish (rule R56). -/
def State.atFinish (s : State) : Bool :=
  match s.phase with
  | .idle => false
  | .busy e =>
    match e.pos with
    | .finish _ => true
    | _ => false

/-- `k` events of one command, with no turn of the host between them. -/
def execTimes (i : Instr) : Nat → State → Host.Outcome State Fault Refusal
  | 0, s => .next s
  | k + 1, s =>
    match exec i s with
    | .next t => execTimes i k t
    | .fault r => .fault r
    | .refused r => .refused r

/-- The command has just been accepted (rule R52). -/
def State.accepted (s : State) (i : Instr) : Prop := s.phase = .busy (Engine.start (encode i))

/-! Interleavings. -/

/-- How many bytes a command writes (rules R76, R86). -/
def State.outputLength (s : State) : Instr → Nat
  | .cbcEnc | .cbcDec => s.length
  | .cmac128 => tagLength .full
  | .cmac64 => tagLength .selected

/-- The address lies in the input range or the output range of a command (rules R40, R109). -/
def State.inCommandRange (s : State) (i : Instr) (a : Nat) : Prop :=
  (s.srcAddr ≤ a ∧ a < s.srcAddr + s.length) ∨ (s.dstAddr ≤ a ∧ a < s.dstAddr + s.outputLength i)

/-- The turn stores to the byte at an address. -/
def storesTo (turn : Input) (a : Nat) : Bool :=
  match turn with
  | .memStore b _ => b.toNat == a
  | .core | .regRead _ _ | .regWrite _ _ _ | .memLoad _ | .reset | .poll => false

/-- The turn is no race with a command (rules R40, R109): neither a reset nor a store into its ranges. Reads and
writes of registers, polls, loads, and stores elsewhere are all quiet. -/
def State.quiet (s : State) (i : Instr) (turn : Input) : Prop :=
  turn ≠ .reset ∧ ∀ a, storesTo turn a = true → ¬s.inCommandRange i a

/-- Rule R11, for a command that leads from `s` to `t` with no host turn between two events: whatever quiet turns
stand between them, the machine comes to the registers and internal state of `t`, and to its memory at every address
that no turn stores to, with the core busy in every state before. -/
def State.interleaved (s : State) (i : Instr) (t : State) : Prop :=
  ∀ turns : List Input, (∀ turn ∈ turns, s.quiet i turn) →
    ∃ n u, Host.Core.run Sys2Proof.core n { s with inputs := turns } = .next u ∧
      (∀ m, m < n → ∃ v, Host.Core.run Sys2Proof.core m { s with inputs := turns } = .next v ∧ v.busy = true) ∧
      u = { t with mem := u.mem, inputs := u.inputs, responses := u.responses } ∧
      ∀ a, (∀ turn ∈ turns, storesTo turn a = false) → Memory.read u.mem a = Memory.read t.mem a

/-- `n` events of the command lead from `s` to `t`, and so does every interleaving with quiet turns (rule R11). -/
def State.leadsTo (s : State) (i : Instr) (n : Nat) (t : State) : Prop :=
  execTimes i n s = .next t ∧ (Memory.wf s.mem = true → s.interleaved i t)

/-! Whole commands. -/

/-- The CBC command of a direction (rule R76). -/
def cbcInstr : Direction → Instr
  | .enc => .cbcEnc
  | .dec => .cbcDec

/-- The equations of a direction (rules R77, R78). -/
def cbcEquations : Direction → Block → Block → List Block → List Block
  | .enc => cbcEncrypt
  | .dec => cbcDecrypt

/-- The CMAC command of a tag (rule R86). -/
def cmacInstr : TagKind → Instr
  | .full => .cmac128
  | .selected => .cmac64

/-- The bytes a CMAC command writes for a tag (rules R85, R86). -/
def tagBytes (kind : TagKind) (t : Block) : List Byte :=
  match kind with
  | .full => t.toList
  | .selected => (trunc64 t).toList

/-- A CBC command that is accepted and passes its checks (rules R76 to R78). -/
structure CbcChecked (dir : Direction) (s : State) : Prop where
  accepted : s.accepted (cbcInstr dir)
  key : s.keyw = 0b1111
  lengthPositive : 0 < s.length
  lengthBlocks : s.length % 16 = 0
  source : s.srcAddr + s.length ≤ 2 ^ 32
  destination : s.dstAddr + s.length ≤ 2 ^ 32

/-- A CBC command that is accepted, passes its checks and meets no bus error. -/
structure CbcReady (dir : Direction) (s : State) : Prop extends CbcChecked dir s where
  reads : ∀ k, k < s.length → s.busOk (s.srcAddr + k) .read = true
  writes : ∀ k, k < s.length → s.busOk (s.dstAddr + k) .write = true

/-- How many events a CBC command that succeeds takes (rules R54, R56, R76). -/
def State.cbcEvents (s : State) : Nat := 6 + 33 * s.cbcBlocks

/-- The input blocks of a CBC command, as they stand in memory (rules R32, R76). -/
def State.inputBlocks (s : State) : List Block :=
  (List.range s.cbcBlocks).map fun i => Memory.block s.mem (s.srcAddr + 16 * i)

/-- No input byte is overwritten before it is read: `DST <= SRC`, or the ranges do not overlap (rule R79). -/
def State.cbcSafeOverlap (s : State) : Prop := s.dstAddr ≤ s.srcAddr ∨ s.srcAddr + s.length ≤ s.dstAddr

/-- A CMAC command that is accepted, with its tag range in range and writable (rules R86, R87). -/
structure CmacTagReady (kind : TagKind) (s : State) : Prop where
  accepted : s.accepted (cmacInstr kind)
  tagRange : s.dstAddr + tagLength kind ≤ 2 ^ 32
  writes : ∀ k, k < tagLength kind → s.busOk (s.dstAddr + k) .write = true

/-- A CMAC command that is accepted, passes its checks and meets no bus error (rule R86). -/
structure CmacReady (kind : TagKind) (s : State) : Prop extends CmacTagReady kind s where
  key : s.keyw = 0b1111
  message : s.srcAddr + s.length ≤ 2 ^ 32
  reads : ∀ k, k < s.length → s.busOk (s.srcAddr + k) .read = true

/-- How many events a CMAC command that succeeds takes (rules R54, R56, R86). -/
def State.cmacEvents (s : State) (kind : TagKind) : Nat := 7 + 2 * tagLength kind + s.length

/-- The message a CMAC command reads: message bytes in the tag range are read as 0, because the zeroing comes
first (rule R88, corner cases). -/
def State.message (s : State) (kind : TagKind) : List Byte :=
  (List.range s.length).map fun m =>
    if s.dstAddr ≤ s.srcAddr + m ∧ s.srcAddr + m < s.dstAddr + tagLength kind then 0
    else Memory.read s.mem (s.srcAddr + m)

/-- Byte `m` of the input of a CBC command with overlapping ranges, from memory before (`mem`) and after (`mem'`)
the command: an output byte where the block that wrote it comes before the block that reads it (rule R79). -/
def State.overlapByte (s : State) (mem mem' : Memory) (m : Nat) : Byte :=
  let d := s.dstAddr - s.srcAddr
  if s.srcAddr < s.dstAddr ∧ d ≤ m ∧ (m - d) / 16 < m / 16 then Memory.read mem' (s.dstAddr + (m - d))
  else Memory.read mem (s.srcAddr + m)

/-- Input block `i` of a CBC command with overlapping ranges (rule R79). -/
def State.overlapBlock (s : State) (mem mem' : Memory) (i : Nat) : Block :=
  Vector.ofFn fun j => s.overlapByte mem mem' (16 * i + j)

/-- The chaining value of block `i` (rules R77, R78): the IV, then the ciphertext block before. -/
def State.overlapCv (s : State) (dir : Direction) (mem mem' : Memory) (i : Nat) : Block :=
  match i with
  | 0 => s.ivBytes
  | i + 1 =>
    match dir with
    | .enc => Memory.block mem' (s.dstAddr + 16 * i)
    | .dec => s.overlapBlock mem mem' i

/-- Output block `i` of a CBC command with overlapping ranges: the equation of its direction, on the input block and
chaining value as the command finds them (rules R77 to R79). -/
def State.overlapOutput (s : State) (dir : Direction) (mem mem' : Memory) (i : Nat) : Block :=
  match dir with
  | .enc => aesEnc s.keyBytes (xorBlock (s.overlapBlock mem mem' i) (s.overlapCv .enc mem mem' i))
  | .dec => xorBlock (aesDec s.keyBytes (s.overlapBlock mem mem' i)) (s.overlapCv .dec mem mem' i)

end Sys2Proof.Machine
end

