-- ==== Sys2Proof/Certificates/Slice0/Obligations.lean ====
section
/-! DEFINITION. The statements about the machine, each formalising a rule of spec/ or a consequence of one.
Where a statement counts events, it counts them as rules R53 and R56 divide a command: a check, an access and the
finish are events of their own (notes/assumptions/1.md). -/

open Sys2Proof Sys2Proof.Machine

/-! ## Encoding -/

/-- The words of rule R47, written out, and three reserved ones of rule R49. -/
def Obligations.CommandWordsDecodeAsTabled : Prop :=
  decode 0x00000001 = .ok .cbcEnc ∧ decode 0x00000002 = .ok .cbcDec ∧ decode 0x00000003 = .ok .cmac128 ∧
  decode 0x00000004 = .ok .cmac64 ∧ decode 0x00000000 = .error .reservedOp ∧
  decode 0x00000005 = .error .reservedOp ∧ decode 0x00000011 = .error .reservedBits

/-- Rule R47: exactly one command word selects each command; every other word is reserved. -/
def Obligations.EachCommandHasExactlyOneWord : Prop :=
  encode .cbcEnc = 0x00000001 ∧ encode .cbcDec = 0x00000002 ∧ encode .cmac128 = 0x00000003 ∧
  encode .cmac64 = 0x00000004 ∧ (∀ (v : Word) (i : Instr), decode v = .ok i ↔ v = encode i) ∧
  ∀ v : Word, (∀ i, v ≠ encode i) → ∃ r, decode v = .error r

/-- Rule R46: the two fields of a command word, and `legal`. -/
def Obligations.LegalWordsAreThoseOfTheFields : Prop :=
  ∀ v : Word, (commandFields v).op.toNat = v.toNat % 16 ∧ (commandFields v).rsvd.toNat = v.toNat / 16 ∧
    ((∃ i, decode v = .ok i) ↔
      v.toNat / 16 = 0 ∧ (v.toNat % 16 = 1 ∨ v.toNat % 16 = 2 ∨ v.toNat % 16 = 3 ∨ v.toNat % 16 = 4))

/-! ## Steps and turns -/

/-- Rules R53, R54: a turn of the core does the next event of the command whose word it latched. -/
def Obligations.StepRunsTheDecodedCommand : Prop :=
  ∀ (s : State) (e : Engine) (i : Instr), s.phase = .busy e → decode e.cmdword = .ok i →
    (s.inputs = [] → step s = exec i s) ∧
    ∀ rest, s.inputs = .core :: rest → step s = exec i { s with inputs := rest }

/-- Rule R103: with `BUSY = 0` the core takes no steps (as a step of the machine: notes/assumptions/3.md). -/
def Obligations.IdleCoreTakesNoStep : Prop :=
  ∀ s : State, s.phase = .idle →
    (s.inputs = [] → step s = .next s) ∧ ∀ rest, s.inputs = .core :: rest → step s = .next { s with inputs := rest }

/-- Rule R39: a load of a byte answers the value of the last store to it before, and any other byte as it was.
That a host's access is a single byte is the model's choice (notes/assumptions/8.md). -/
def Obligations.HostLoadSeesTheLastStore : Prop :=
  ∀ (s : State) (a b : Word) (v : Byte), Memory.wf s.mem = true → s.inputs = [.memStore a v, .memLoad b] →
    ∃ t, Host.Core.run core 2 s = .next t ∧
      t.responses = .loaded (if b = a then v else Memory.read s.mem b.toNat) :: s.responses ∧
      t = { s with mem := Memory.write s.mem a.toNat v, inputs := [], responses := t.responses }

/-! ## The register window -/

/-- Rule R14: the offsets of the slots, what each reads as, what a write does while idle and what it leaves as it was,
the step that a 32-bit access is, and the reset values. -/
def Obligations.RegisterWindowIsAsTabled : Prop :=
  (accessedSlot 0x00 32 = some .cmd ∧ accessedSlot 0x04 32 = some .status ∧ accessedSlot 0x08 32 = some .src ∧
   accessedSlot 0x0C 32 = some .dst ∧ accessedSlot 0x10 32 = some .len ∧
   accessedSlot 0x14 32 = some (.reserved 0) ∧ accessedSlot 0x18 32 = some (.reserved 1) ∧
   accessedSlot 0x1C 32 = some (.reserved 2) ∧ accessedSlot 0x20 32 = some (.key 0) ∧
   accessedSlot 0x24 32 = some (.key 1) ∧ accessedSlot 0x28 32 = some (.key 2) ∧
   accessedSlot 0x2C 32 = some (.key 3) ∧ accessedSlot 0x30 32 = some (.iv 0) ∧
   accessedSlot 0x34 32 = some (.iv 1) ∧ accessedSlot 0x38 32 = some (.iv 2) ∧
   accessedSlot 0x3C 32 = some (.iv 3)) ∧
  (∀ s : State, s.hostRead .cmd = 0 ∧ s.hostRead .status = s.status ∧ (∀ k, s.hostRead (.reserved k) = 0) ∧
    ∀ k, s.hostRead (.key k) = 0) ∧
  (∀ (s : State) (v : Word), s.hostWrite .status v = s ∧ ∀ k, s.hostWrite (.reserved k) v = s) ∧
  (∀ (s : State) (v : Word), s.busy = false →
    (s.hostWrite .src v).hostRead .src = v ∧ (s.hostWrite .dst v).hostRead .dst = v ∧
    (s.hostWrite .len v).hostRead .len = v ∧ ∀ k, (s.hostWrite (.iv k) v).hostRead (.iv k) = v ∧
      (s.hostWrite (.key k) v).key = s.key.set k v) ∧
  (∀ (s : State) (v : Word), s.busy = false →
    s.hostWrite .src v = { s with src := v } ∧ s.hostWrite .dst v = { s with dst := v } ∧
    s.hostWrite .len v = { s with len := v } ∧ (∀ k, s.hostWrite (.iv k) v = { s with iv := s.iv.set k v }) ∧
    ∀ k, ∃ keyw : BitVec 4, (∀ j : Fin 4, keyw.getLsbD j = (decide (j = k) || s.keyw.getLsbD j)) ∧
      s.hostWrite (.key k) v = { s with key := s.key.set k v, keyw := keyw }) ∧
  (∀ (s : State) (off : BitVec 6) (slot : Slot) (v : Word) (rest : List Input), s.busy = false →
    accessedSlot off 32 = some slot →
    (s.inputs = .regWrite off 32 v :: rest →
      step s = .next { s.hostWrite slot v with inputs := rest, responses := .writeDone :: s.responses }) ∧
    (s.inputs = .regRead off 32 :: rest →
      step s = .next { s with inputs := rest, responses := .data (s.hostRead slot) :: s.responses })) ∧
  (∀ slot, State.reset.hostRead slot = 0) ∧ ∀ k : Fin 4, State.reset.key[k] = 0

/-- Rule R18: the fields of `STATUS`, and that it cannot be written. -/
def Obligations.StatusHasTheFieldsOfRule18 : Prop :=
  ∀ s : State, s.status.getLsbD 0 = s.busy ∧ s.status.getLsbD 1 = s.doneBit ∧ s.status.extractLsb' 2 2 = 0 ∧
    s.status.extractLsb' 4 4 = s.result ∧ s.status.extractLsb' 8 4 = s.keyw ∧ s.status.extractLsb' 12 20 = 0 ∧
    s.hostRead .status = s.status ∧ ∀ v, s.hostWrite .status v = s

/-- Rules R25 and R26: the byte order of the key and IV registers, and that the key registers read as 0. -/
def Obligations.KeyAndIvWordsPutLowerBytesHigher : Prop :=
  ∀ (s : State) (k j : Nat) (hk : k < 4) (hj : j < 4),
    s.keyBytes[4 * k + j] = s.key[k].extractLsb' (24 - 8 * j) 8 ∧
    s.ivBytes[4 * k + j] = s.iv[k].extractLsb' (24 - 8 * j) 8 ∧ s.hostRead (.key ⟨k, hk⟩) = 0

/-- Rules R25 and R28: no read of the host depends on the key registers or on the internal state. -/
def Obligations.HostReadsRevealNoSecret : Prop :=
  ∀ (s : State) (key : Vector Word 4) (e e' : Engine) (slot : Slot),
    ({ s with key := key } : State).hostRead slot = s.hostRead slot ∧
    (s.withEngine e).hostRead slot = (s.withEngine e').hostRead slot

/-- Rule R16: while busy, every write completes on the bus and changes nothing, and a read gives the slot's
current value. -/
def Obligations.WritesWhileBusyAreIgnored : Prop :=
  ∀ (s : State) (off : BitVec 6) (slot : Slot) (v : Word) (rest : List Input),
    s.busy = true → accessedSlot off 32 = some slot →
    (s.inputs = .regWrite off 32 v :: rest →
      step s = .next { s with inputs := rest, responses := .writeDone :: s.responses }) ∧
    (s.inputs = .regRead off 32 :: rest →
      step s = .next { s with inputs := rest, responses := .data (s.hostRead slot) :: s.responses })

/-- Rule R93: an access of another width or alignment gets a bus error and changes nothing, busy or not. -/
def Obligations.MalformedAccessIsABusError : Prop :=
  ∀ (s : State) (off : BitVec 6) (bits : Nat) (v : Word) (rest : List Input),
    (bits ≠ 32 ∨ off.toNat % 4 ≠ 0) →
    (s.inputs = .regWrite off bits v :: rest ∨ s.inputs = .regRead off bits :: rest) →
    step s = .next { s with inputs := rest, responses := .busError :: s.responses }

/-- Rules R19, R20, R21 and R52: what acceptance does, and that a write of `CMD` while busy is none. -/
def Obligations.WritingCmdAcceptsACommand : Prop :=
  ∀ (s : State) (v : Word) (rest : List Input), s.inputs = .regWrite 0x00 32 v :: rest →
    (s.busy = false → ∃ e, e.cmdword = v ∧ e.pos = .dispatch ∧
      step s = .next { s with result := 0, doneBit := false, phase := .busy e, inputs := rest,
                              responses := .writeDone :: s.responses }) ∧
    (s.busy = true → step s = .next { s with inputs := rest, responses := .writeDone :: s.responses })

/-- Rule R19: `BUSY` is set by acceptance and cleared by finish and reset, and nothing else writes it. -/
def Obligations.BusyIsWrittenByAcceptanceFinishReset : Prop :=
  (∀ (s : State) (v : Word), (s.accept v).busy = true) ∧ (∀ (s : State) (c : ResultCode), (s.finish c).busy = false) ∧
  (∀ s : State, s.takeReset.busy = false) ∧
  ∀ s t : State, step s = .next t →
    (s.busy = false → t.busy = true → ∃ v rest, s.inputs = .regWrite 0x00 32 v :: rest) ∧
    (s.busy = true → t.busy = false → (∃ rest, s.inputs = .reset :: rest) ∨
      ((s.inputs = [] ∨ ∃ rest, s.inputs = .core :: rest) ∧ ∃ e c, s.phase = .busy e ∧ e.pos = .finish c))

/-- Rule R22: a write of `KEYk` while idle sets bit k of `KEYW` and no other; finish and reset clear all four;
nothing else writes them. -/
def Obligations.KeywIsWrittenByKeyWritesFinishReset : Prop :=
  (∀ (s : State) (k j : Fin 4) (v : Word), s.busy = false →
    (s.hostWrite (.key k) v).keyw.getLsbD j = (decide (j = k) || s.keyw.getLsbD j)) ∧
  (∀ (s : State) (c : ResultCode), (s.finish c).keyw = 0) ∧ (∀ s : State, s.takeReset.keyw = 0) ∧
  ∀ s t : State, step s = .next t → t.keyw ≠ s.keyw →
    (s.busy = false ∧ ∃ k v rest, s.inputs = .regWrite (slotOffset (.key k)) 32 v :: rest) ∨
    (∃ rest, s.inputs = .reset :: rest) ∨
    ((s.inputs = [] ∨ ∃ rest, s.inputs = .core :: rest) ∧ ∃ e c, s.phase = .busy e ∧ e.pos = .finish c)

/-- Rules R20 and R21: `DONE` and `RESULT` are written by acceptance, finish and reset, to the values of those
rules, and by nothing else. -/
def Obligations.DoneAndResultAreWrittenByAcceptanceFinishReset : Prop :=
  (∀ (s : State) (v : Word), (s.accept v).doneBit = false ∧ (s.accept v).result = 0) ∧
  (∀ (s : State) (c : ResultCode), (s.finish c).doneBit = true ∧ (s.finish c).result = resultBits c) ∧
  (∀ s : State, s.takeReset.doneBit = false ∧ s.takeReset.result = 0) ∧
  ∀ s t : State, step s = .next t → (t.doneBit ≠ s.doneBit ∨ t.result ≠ s.result) →
    (s.busy = false ∧ ∃ v rest, s.inputs = .regWrite 0x00 32 v :: rest) ∨
    (∃ rest, s.inputs = .reset :: rest) ∨
    ((s.inputs = [] ∨ ∃ rest, s.inputs = .core :: rest) ∧ ∃ e c, s.phase = .busy e ∧ e.pos = .finish c)

/-- Rule R31: `BUS_OK` is a predicate of the address and the kind, not of time or history; where it is false the
memory port answers a bus error, and an access that the port answers so gives no memory; and it is false over the
core's own window, whatever the platform. That the window has the same addresses at the memory port as at the host is the
model's reading (notes/assumptions/20.md). -/
def Obligations.BusOkNeverChanges : Prop :=
  (∀ s t : State, step s = .next t → t.cryptoBase = s.cryptoBase ∧ ∀ a kind, t.busOk a kind = s.busOk a kind) ∧
  (∀ (s : State) (a : Nat) (v : Byte), a < 2 ^ 32 →
    (s.memRead a = if s.busOk a .read = true then .data (Memory.read s.mem a) else .busError) ∧
    s.memWrite a v = if s.busOk a .write = true then .wrote (Memory.write s.mem a v) else .busError) ∧
  ∀ (s : State) (a : Nat) (kind : AccessKind), s.cryptoBase ≤ a → a < s.cryptoBase + 64 → s.busOk a kind = false

/-- Rules R29, R104 and R105: reset sets every slot to 0, empties the internal state and touches no memory. That the
platform, the rest of the queue and the answers survive it is the model's (notes/assumptions/18.md). -/
def Obligations.ResetClearsEverySlotAndNoMemory : Prop :=
  ∀ (s : State) (rest : List Input), s.inputs = .reset :: rest →
    step s = .next { src := 0, dst := 0, len := 0, key := Vector.replicate 4 0, iv := Vector.replicate 4 0,
                     doneBit := false, result := 0, keyw := 0, phase := .idle, mem := s.mem,
                     cryptoWindow := s.cryptoWindow, portFaults := s.portFaults, inputs := rest, responses := s.responses }

/-- Rule R51: the writes of a `KEY` line and of an `IV` line give the key and IV bytes of the digits in order. -/
def Obligations.KeyAndIvLinesWriteTheDigits : Prop :=
  ∀ (s : State) (digits : BitVec 128), s.phase = .idle →
    (∃ t, Host.Core.run core 4 { s with inputs := lineInputs (.key digits) } = .next t ∧
      t.keyBytes = bytes128 digits ∧ t.keyw = 0b1111 ∧ t.phase = .idle ∧ t.inputs = []) ∧
    ∃ t, Host.Core.run core 4 { s with inputs := lineInputs (.iv digits) } = .next t ∧
      t.ivBytes = bytes128 digits ∧ t.keyw = s.keyw ∧ t.phase = .idle ∧ t.inputs = []

/-! ## The lifecycle of a command -/

/-- Rule R54: where the dispatch of each command leads, and that of a word that is not legal. That the failing
dispatch and the finish are two events is the model's reading of rules R53 and R56 (notes/assumptions/1.md). -/
def Obligations.DispatchStartsTheSequence : Prop :=
  ∀ (s : State) (e : Engine), s.phase = .busy e → e.pos = .dispatch →
    exec .cbcEnc s = .next (s.goto e .cbcKeyCheck) ∧ exec .cbcDec s = .next (s.goto e .cbcKeyCheck) ∧
    exec .cmac128 s = .next (s.goto e .cmacTagRangeCheck) ∧ exec .cmac64 s = .next (s.goto e .cmacTagRangeCheck) ∧
    ∀ r, decode e.cmdword = .error r → coreStep s = .next (s.goto e (.finish .badCmd))

/-- Rules R53, R55 and R56: the key check of every command. That a failing check changes nothing itself, and leads to
a finish that is the next event, is the model's reading of these rules (notes/assumptions/1.md). -/
def Obligations.KeyCheckNeedsAllFourKeySlots : Prop :=
  ∀ (s : State) (e : Engine), s.phase = .busy e →
    (∀ dir, e.pos = .cbcKeyCheck → exec (cbcInstr dir) s =
      .next (s.goto e (if s.keyw = 0b1111 then .cbcLengthCheck else .finish .keyErr))) ∧
    ∀ kind, e.pos = .cmacKeyCheck → exec (cmacInstr kind) s =
      .next (s.goto e (if s.keyw = 0b1111 then .cmacMessageRangeCheck else .finish .keyErr))

/-- Rule R56: the finish of every command, and of a word that is not legal; a busy core goes idle by it alone, or
by reset. The numbers are those of rule R92. -/
def Obligations.FinishRecordsAndZeroizes : Prop :=
  (resultBits .ok = 0 ∧ resultBits .keyErr = 1 ∧ resultBits .opErr = 2 ∧ resultBits .badCmd = 3) ∧
  (∀ (s : State) (e : Engine) (c : ResultCode), s.phase = .busy e → e.pos = .finish c →
    (∀ i, exec i s = .next { s with result := resultBits c, key := Vector.replicate 4 0, keyw := 0,
                                    iv := Vector.replicate 4 0, phase := .idle, doneBit := true }) ∧
    ∀ r, decode e.cmdword = .error r →
      coreStep s = .next { s with result := resultBits c, key := Vector.replicate 4 0, keyw := 0,
                                  iv := Vector.replicate 4 0, phase := .idle, doneBit := true }) ∧
  ∀ s t : State, step s = .next t → s.busy = true → t.busy = false →
    (∃ rest, s.inputs = .reset :: rest) ∨ ∃ e c, s.phase = .busy e ∧ e.pos = .finish c

/-- Rule R49: a reserved word is accepted, makes no memory access and ends with `BAD_CMD`. -/
def Obligations.ReservedWordEndsWithBadCmd : Prop :=
  ∀ (s : State) (v : Word), s.busy = false → s.inputs = [.regWrite 0x00 32 v] →
    ¬(v.toNat / 16 = 0 ∧ (v.toNat % 16 = 1 ∨ v.toNat % 16 = 2 ∨ v.toNat % 16 = 3 ∨ v.toNat % 16 = 4)) →
    Host.Core.run core 3 s = .next { s with
      result := 3, key := Vector.replicate 4 0, keyw := 0, iv := Vector.replicate 4 0, phase := .idle,
      doneBit := true, inputs := [], responses := .writeDone :: s.responses }

/-- Rule R36: an access that the bus does not complete has no effect, and the command ends with `OP_ERR`; what it
wrote before stays. That the failing access and the finish are exactly two events is the model's reading of rules R53
and R56 (notes/assumptions/1.md). -/
def Obligations.BusErrorEndsTheCommand : Prop :=
  ∀ (s : State) (e : Engine), s.phase = .busy e →
    (∀ dir i j, e.pos = .cbcRead i j → s.cbcReadAddr i j < 2 ^ 32 → s.busOk (s.cbcReadAddr i j) .read = false →
      execTimes (cbcInstr dir) 2 s = .next (s.finish .opErr)) ∧
    (∀ dir i j, e.pos = .cbcWrite i j → s.cbcWriteAddr i j < 2 ^ 32 → s.busOk (s.cbcWriteAddr i j) .write = false →
      execTimes (cbcInstr dir) 2 s = .next (s.finish .opErr)) ∧
    (∀ kind j, e.pos = .cmacZero j → s.cmacTagAddr j < 2 ^ 32 → s.busOk (s.cmacTagAddr j) .write = false →
      execTimes (cmacInstr kind) 2 s = .next (s.finish .opErr)) ∧
    (∀ kind m, e.pos = .cmacRead m → s.cmacReadAddr m < 2 ^ 32 → s.busOk (s.cmacReadAddr m) .read = false →
      execTimes (cmacInstr kind) 2 s = .next (s.finish .opErr)) ∧
    ∀ kind j, e.pos = .cmacWrite j → s.cmacTagAddr j < 2 ^ 32 → s.busOk (s.cmacTagAddr j) .write = false →
      execTimes (cmacInstr kind) 2 s = .next (s.finish .opErr)

/-- Rules R75, R76 and R95: a CBC command reports the first check that fails, in the order key, length, ranges,
and touches no memory; under every interleaving with quiet turns (rule R11). -/
def Obligations.CbcReportsTheFirstFailedCheck : Prop :=
  ∀ (dir : Direction) (s : State), s.accepted (cbcInstr dir) →
    (s.keyw ≠ 0b1111 → s.leadsTo (cbcInstr dir) 3 (s.finish .keyErr)) ∧
    (s.keyw = 0b1111 → (s.length = 0 ∨ s.length % 16 ≠ 0) → s.leadsTo (cbcInstr dir) 4 (s.finish .opErr)) ∧
    (s.keyw = 0b1111 → s.length ≠ 0 → s.length % 16 = 0 →
      (2 ^ 32 < s.srcAddr + s.length ∨ 2 ^ 32 < s.dstAddr + s.length) →
      s.leadsTo (cbcInstr dir) 5 (s.finish .opErr))

/-- Rules R86 and R95: a CMAC command checks the tag range before it touches memory, then zeroes the tag range,
then checks the key, then the message range; under every interleaving with quiet turns (rule R11). -/
def Obligations.CmacReportsTheFirstFailedCheck : Prop :=
  ∀ (kind : TagKind) (s : State), s.accepted (cmacInstr kind) →
    (2 ^ 32 < s.dstAddr + tagLength kind → s.leadsTo (cmacInstr kind) 3 (s.finish .opErr)) ∧
    (Memory.wf s.mem = true → CmacTagReady kind s →
      (s.keyw ≠ 0b1111 → ∃ t, s.leadsTo (cmacInstr kind) (4 + tagLength kind) t ∧
        t = { s.finish .keyErr with mem := t.mem } ∧
        ∀ a, Memory.read t.mem a =
          if s.dstAddr ≤ a ∧ a < s.dstAddr + tagLength kind then 0 else Memory.read s.mem a) ∧
      (s.keyw = 0b1111 → 2 ^ 32 < s.srcAddr + s.length →
        ∃ t, s.leadsTo (cmacInstr kind) (5 + tagLength kind) t ∧
        t = { s.finish .opErr with mem := t.mem } ∧
        ∀ a, Memory.read t.mem a =
          if s.dstAddr ≤ a ∧ a < s.dstAddr + tagLength kind then 0 else Memory.read s.mem a))

/-- Rule R108: finish leaves a zero key and a zero IV, and each of the four commands whose key is not written again
after it ends with `KEY_ERR`: a CBC command with memory unchanged, a CMAC command once its tag range is zeroed. -/
def Obligations.KeyMustBeWrittenBeforeEveryCommand : Prop :=
  ∀ (s : State) (c : ResultCode),
    (s.finish c).ivBytes = Block.zero ∧ (s.finish c).keyBytes = Block.zero ∧
    (∀ dir : Direction, ∃ t, ((s.finish c).accept (encode (cbcInstr dir))).leadsTo (cbcInstr dir) 3 t ∧
      t.result = 1 ∧ t.doneBit = true ∧ t.phase = .idle ∧ t.mem = s.mem) ∧
    ∀ kind : TagKind, Memory.wf s.mem = true → s.dstAddr + tagLength kind ≤ 2 ^ 32 →
      (∀ k, k < tagLength kind → s.busOk (s.dstAddr + k) .write = true) →
      ∃ t, ((s.finish c).accept (encode (cmacInstr kind))).leadsTo (cmacInstr kind) (4 + tagLength kind) t ∧
        t.result = 1 ∧ t.doneBit = true ∧ t.phase = .idle ∧
        ∀ a, Memory.read t.mem a =
          if s.dstAddr ≤ a ∧ a < s.dstAddr + tagLength kind then 0 else Memory.read s.mem a

/-! ## Events -/

/-- Rule R76: the events of the block loop of a CBC command that meets no bus error. -/
def Obligations.CbcBlockEvents : Prop :=
  ∀ (dir : Direction) (s : State) (e : Engine), s.phase = .busy e →
    (∀ i j, e.pos = .cbcRead i j → s.cbcReadAddr i j < 2 ^ 32 → s.busOk (s.cbcReadAddr i j) .read = true →
      exec (cbcInstr dir) s = .next (s.withEngine { e with
        inBlock := e.inBlock.set j (Memory.read s.mem (s.srcAddr + 16 * i + j))
        pos := if j = 15 then .cbcCompute i else .cbcRead i (j + 1) })) ∧
    (∀ i, e.pos = .cbcCompute i →
      exec .cbcEnc s = .next (s.withEngine { e with
        outBlock := aesEncWith e.w (xorBlock e.inBlock e.cv)
        cv := aesEncWith e.w (xorBlock e.inBlock e.cv)
        pos := .cbcWrite i 0 }) ∧
      exec .cbcDec s = .next (s.withEngine { e with
        outBlock := xorBlock (aesDecWith e.w e.inBlock) e.cv
        cv := e.inBlock
        pos := .cbcWrite i 0 })) ∧
    ∀ i j, e.pos = .cbcWrite i j → s.cbcWriteAddr i j < 2 ^ 32 → s.busOk (s.cbcWriteAddr i j) .write = true →
      exec (cbcInstr dir) s = .next
        { s.goto e (if j ≠ 15 then .cbcWrite i (j + 1) else
                    if i + 1 < s.length / 16 then .cbcRead (i + 1) 0 else .finish .ok) with
          mem := Memory.write s.mem (s.dstAddr + 16 * i + j) e.outBlock[j] }

/-- Rules R82 to R86: the events of a CMAC command after its dispatch and before its finish, when it meets no bus
error: the checks, the zeroing, the load of key and subkeys, the reads, the tag, the writes. Where a failing check
leads is the model's reading of rules R53 and R56 (notes/assumptions/1.md). -/
def Obligations.CmacEvents : Prop :=
  ∀ (kind : TagKind) (s : State) (e : Engine), s.phase = .busy e →
    (e.pos = .cmacTagRangeCheck → exec (cmacInstr kind) s =
      .next (s.goto e (if s.dstAddr + tagLength kind ≤ 2 ^ 32 then .cmacZero 0 else .finish .opErr))) ∧
    (e.pos = .cmacKeyCheck → exec (cmacInstr kind) s =
      .next (s.goto e (if s.keyw = 0b1111 then .cmacMessageRangeCheck else .finish .keyErr))) ∧
    (e.pos = .cmacMessageRangeCheck → exec (cmacInstr kind) s =
      .next (s.goto e (if s.srcAddr + s.length ≤ 2 ^ 32 then .cmacLoad else .finish .opErr))) ∧
    (e.pos = .cmacLoad → exec (cmacInstr kind) s = .next (s.withEngine { e with
      w := keyExpansion s.keyBytes
      l := aesEnc s.keyBytes Block.zero
      k1 := dbl (aesEnc s.keyBytes Block.zero)
      k2 := dbl (dbl (aesEnc s.keyBytes Block.zero))
      x := Block.zero
      pos := if 0 < s.length then .cmacRead 0 else .cmacTag })) ∧
    (e.pos = .cmacTag → ∃ last tag half : Block,
      last = (if 0 < s.length ∧ s.length % 16 = 0 then xorBlock e.inBlock e.k1
              else xorBlock (pad (e.inBlock.toList.take (s.length % 16))) e.k2) ∧
      tag = aesEncWith e.w (xorBlock e.x last) ∧ (∀ i : Fin 8, half[i.val] = tag[2 * i.val + 1]) ∧
      exec .cmac128 s = .next (s.withEngine { e with outBlock := tag, pos := .cmacWrite 0 }) ∧
      exec .cmac64 s = .next (s.withEngine { e with outBlock := half, pos := .cmacWrite 0 })) ∧
    (∀ j, e.pos = .cmacZero j → s.cmacTagAddr j < 2 ^ 32 → s.busOk (s.cmacTagAddr j) .write = true →
      exec (cmacInstr kind) s = .next
        { s.goto e (if j.val + 1 < tagLength kind then .cmacZero (j + 1) else .cmacKeyCheck) with
          mem := Memory.write s.mem (s.dstAddr + j) 0 }) ∧
    (∀ m, e.pos = .cmacRead m → s.cmacReadAddr m < 2 ^ 32 → s.busOk (s.cmacReadAddr m) .read = true →
      ∃ b : Block, b = e.inBlock.set! (m % 16) (Memory.read s.mem (s.srcAddr + m)) ∧
        exec (cmacInstr kind) s = .next (s.withEngine { e with
          inBlock := b
          x := if (m + 1) % 16 = 0 ∧ m + 1 < s.length then aesEncWith e.w (xorBlock e.x b) else e.x
          pos := if m + 1 < s.length then .cmacRead (m + 1) else .cmacTag })) ∧
    ∀ j, e.pos = .cmacWrite j → s.cmacTagAddr j < 2 ^ 32 → s.busOk (s.cmacTagAddr j) .write = true →
      exec (cmacInstr kind) s = .next
        { s.goto e (if j.val + 1 < tagLength kind then .cmacWrite (j + 1) else .finish .ok) with
          mem := Memory.write s.mem (s.dstAddr + j) e.outBlock[j] }

/-- The frame of `CBC_ENC` and `CBC_DEC`: the operand registers, the platform and the turns are unchanged; until
the finish so are key, IV, `KEYW`, `RESULT`, `DONE` and the latched word; and so is every byte but the one the event stores to. -/
def Obligations.CbcEventFrame : Prop :=
  ∀ (dir : Direction) (s t : State), exec (cbcInstr dir) s = .next t →
    t.src = s.src ∧ t.dst = s.dst ∧ t.len = s.len ∧ t.portFaults = s.portFaults ∧
    t.cryptoWindow = s.cryptoWindow ∧ t.inputs = s.inputs ∧
    t.responses = s.responses ∧ (∀ a, s.storeAddr ≠ some a → Memory.read t.mem a = Memory.read s.mem a) ∧
    (s.atFinish = false → t.key = s.key ∧ t.iv = s.iv ∧ t.keyw = s.keyw ∧ t.result = s.result ∧
      t.doneBit = s.doneBit ∧ t.busy = true ∧
      ∀ e, s.phase = .busy e → ∃ e', t.phase = .busy e' ∧ e'.cmdword = e.cmdword)

/-- The frame of `CMAC128` and `CMAC64`, as that of the CBC commands. -/
def Obligations.CmacEventFrame : Prop :=
  ∀ (kind : TagKind) (s t : State), exec (cmacInstr kind) s = .next t →
    t.src = s.src ∧ t.dst = s.dst ∧ t.len = s.len ∧ t.portFaults = s.portFaults ∧
    t.cryptoWindow = s.cryptoWindow ∧ t.inputs = s.inputs ∧
    t.responses = s.responses ∧ (∀ a, s.storeAddr ≠ some a → Memory.read t.mem a = Memory.read s.mem a) ∧
    (s.atFinish = false → t.key = s.key ∧ t.iv = s.iv ∧ t.keyw = s.keyw ∧ t.result = s.result ∧
      t.doneBit = s.doneBit ∧ t.busy = true ∧
      ∀ e, s.phase = .busy e → ∃ e', t.phase = .busy e' ∧ e'.cmdword = e.cmdword)

/-- Rules R26 and R88: the CMAC commands do not read the IV. -/
def Obligations.CmacIgnoresTheIv : Prop :=
  ∀ (kind : TagKind) (s t : State) (iv : Vector Word 4), exec (cmacInstr kind) s = .next t →
    exec (cmacInstr kind) { s with iv := iv } = .next { t with iv := if s.atFinish then t.iv else iv }

/-! ## Whole commands -/

/-- Rules R76 and R77: `CBC_ENC` completes, and writes the ciphertext of its input, when no input byte is
overwritten before it is read; under every interleaving with quiet turns (rule R11). -/
def Obligations.CbcEncWritesTheCiphertext : Prop :=
  ∀ s : State, Memory.wf s.mem = true → CbcReady .enc s → s.cbcSafeOverlap →
    ∃ s' t, exec .cbcEnc s = .next s' ∧ execTimes .cbcEnc (s.cbcEvents - 1) s' = .next t ∧
      s.interleaved .cbcEnc t ∧ t = { s.finish .ok with mem := t.mem } ∧
      (∀ i, i < s.cbcBlocks → Memory.block t.mem (s.dstAddr + 16 * i) =
        (cbcEncrypt s.keyBytes s.ivBytes s.inputBlocks).getD i Block.zero) ∧
      ∀ a, (a < s.dstAddr ∨ s.dstAddr + s.length ≤ a) → Memory.read t.mem a = Memory.read s.mem a

/-- Rules R76 and R78: `CBC_DEC` completes, and writes the plaintext of its input, when no input byte is
overwritten before it is read; under every interleaving with quiet turns (rule R11). -/
def Obligations.CbcDecWritesThePlaintext : Prop :=
  ∀ s : State, Memory.wf s.mem = true → CbcReady .dec s → s.cbcSafeOverlap →
    ∃ s' t, exec .cbcDec s = .next s' ∧ execTimes .cbcDec (s.cbcEvents - 1) s' = .next t ∧
      s.interleaved .cbcDec t ∧ t = { s.finish .ok with mem := t.mem } ∧
      (∀ i, i < s.cbcBlocks → Memory.block t.mem (s.dstAddr + 16 * i) =
        (cbcDecrypt s.keyBytes s.ivBytes s.inputBlocks).getD i Block.zero) ∧
      ∀ a, (a < s.dstAddr ∨ s.dstAddr + s.length ≤ a) → Memory.read t.mem a = Memory.read s.mem a

/-- Rule R79: for any overlap of the ranges, what each block of a CBC command reads and writes; under every
interleaving with quiet turns (rule R11). -/
def Obligations.CbcOverlapFollowsTheEventOrder : Prop :=
  ∀ (dir : Direction) (s : State), Memory.wf s.mem = true → CbcReady dir s →
    ∃ t, s.leadsTo (cbcInstr dir) s.cbcEvents t ∧ t = { s.finish .ok with mem := t.mem } ∧
      (∀ i, i < s.cbcBlocks → Memory.block t.mem (s.dstAddr + 16 * i) =
        match dir with
        | .enc => aesEnc s.keyBytes (xorBlock (s.overlapBlock s.mem t.mem i) (s.overlapCv .enc s.mem t.mem i))
        | .dec => xorBlock (aesDec s.keyBytes (s.overlapBlock s.mem t.mem i)) (s.overlapCv .dec s.mem t.mem i)) ∧
      (s.cbcSafeOverlap → ∀ i, i < s.cbcBlocks →
        s.overlapBlock s.mem t.mem i = Memory.block s.mem (s.srcAddr + 16 * i)) ∧
      ∀ a, (a < s.dstAddr ∨ s.dstAddr + s.length ≤ a) → Memory.read t.mem a = Memory.read s.mem a

/-- Rules R36 and R60: after a bus error on a read of block `i` of a CBC command, the output blocks before it stay
and nothing else is written; for any overlap of the ranges (rule R79), and under every interleaving with quiet turns
(rule R11). -/
def Obligations.CbcReadErrorLeavesEarlierBlocks : Prop :=
  ∀ (dir : Direction) (s : State) (i : Nat), Memory.wf s.mem = true → CbcChecked dir s → i < s.cbcBlocks →
    (∀ k, k < 16 * i → s.busOk (s.srcAddr + k) .read = true ∧ s.busOk (s.dstAddr + k) .write = true) →
    (∃ j, j < 16 ∧ s.busOk (s.srcAddr + 16 * i + j) .read = false) →
    ∃ n t, s.leadsTo (cbcInstr dir) n t ∧ t = { s.finish .opErr with mem := t.mem } ∧
      (∀ k, k < i → Memory.block t.mem (s.dstAddr + 16 * k) = s.overlapOutput dir s.mem t.mem k) ∧
      (s.cbcSafeOverlap → ∀ k, k < i → Memory.block t.mem (s.dstAddr + 16 * k) =
        (cbcEquations dir s.keyBytes s.ivBytes s.inputBlocks).getD k Block.zero) ∧
      ∀ a, (a < s.dstAddr ∨ s.dstAddr + 16 * i ≤ a) → Memory.read t.mem a = Memory.read s.mem a

/-- Rules R36 and R60: after a bus error on the write of byte `j` of block `i` of a CBC command, the output bytes
before it stay and nothing else is written; for any overlap of the ranges (rule R79), and under every interleaving
with quiet turns (rule R11). -/
def Obligations.CbcWriteErrorLeavesEarlierBytes : Prop :=
  ∀ (dir : Direction) (s : State) (i : Nat) (j : Fin 16), Memory.wf s.mem = true → CbcChecked dir s →
    i < s.cbcBlocks →
    (∀ k, k < 16 * i + 16 → s.busOk (s.srcAddr + k) .read = true) →
    (∀ k, k < 16 * i + j.val → s.busOk (s.dstAddr + k) .write = true) →
    s.busOk (s.dstAddr + 16 * i + j) .write = false →
    ∃ n t, s.leadsTo (cbcInstr dir) n t ∧ t = { s.finish .opErr with mem := t.mem } ∧
      (∀ k (l : Fin 16), 16 * k + l.val < 16 * i + j.val →
        Memory.read t.mem (s.dstAddr + 16 * k + l) = (s.overlapOutput dir s.mem t.mem k)[l]) ∧
      (s.cbcSafeOverlap → ∀ k (l : Fin 16), 16 * k + l.val < 16 * i + j.val →
        Memory.read t.mem (s.dstAddr + 16 * k + l) =
          ((cbcEquations dir s.keyBytes s.ivBytes s.inputBlocks).getD k Block.zero)[l]) ∧
      ∀ a, (a < s.dstAddr ∨ s.dstAddr + 16 * i + j.val ≤ a) → Memory.read t.mem a = Memory.read s.mem a

/-- Rules R84, R86 and R88: `CMAC128` completes, and writes the 16-byte CMAC of its message and nothing
else; under every interleaving with quiet turns (rule R11). -/
def Obligations.Cmac128WritesTheTag : Prop :=
  ∀ s : State, Memory.wf s.mem = true → CmacReady .full s →
    ∃ s' t, exec .cmac128 s = .next s' ∧ execTimes .cmac128 (s.cmacEvents .full - 1) s' = .next t ∧
      s.interleaved .cmac128 t ∧ t = { s.finish .ok with mem := t.mem } ∧
      Memory.block t.mem s.dstAddr = cmac s.keyBytes (s.message .full) ∧
      ∀ a, (a < s.dstAddr ∨ s.dstAddr + 16 ≤ a) → Memory.read t.mem a = Memory.read s.mem a

/-- Rules R84 to R86 and R89: `CMAC64` completes, and writes the odd-indexed bytes of the CMAC of its message and
nothing else; under every interleaving with quiet turns (rule R11). -/
def Obligations.Cmac64WritesTheSelectedBytes : Prop :=
  ∀ s : State, Memory.wf s.mem = true → CmacReady .selected s →
    ∃ s' t, exec .cmac64 s = .next s' ∧ execTimes .cmac64 (s.cmacEvents .selected - 1) s' = .next t ∧
      s.interleaved .cmac64 t ∧ t = { s.finish .ok with mem := t.mem } ∧
      (∀ i : Fin 8, Memory.read t.mem (s.dstAddr + i) =
        (cmac s.keyBytes (s.message .selected))[2 * i.val + 1]) ∧
      ∀ a, (a < s.dstAddr ∨ s.dstAddr + 8 ≤ a) → Memory.read t.mem a = Memory.read s.mem a

/-- Rule R87: once its zeroing phase can complete, a CMAC command ends with the whole tag and `OK`, or with zeros
and another result; a bus error in the zeroing phase leaves the bytes before it zeroed and the rest untouched. Under
every interleaving with quiet turns (rule R11). -/
def Obligations.CmacTagIsNeverPartlyWritten : Prop :=
  ∀ (kind : TagKind) (s : State), Memory.wf s.mem = true → s.accepted (cmacInstr kind) →
    s.dstAddr + tagLength kind ≤ 2 ^ 32 →
    ((∀ k, k < tagLength kind → s.busOk (s.dstAddr + k) .write = true) →
      ∃ n t, s.leadsTo (cmacInstr kind) n t ∧ t.phase = .idle ∧
        ((t.result = 0 ∧ Memory.bytes t.mem s.dstAddr (tagLength kind) =
            tagBytes kind (cmac s.keyBytes (s.message kind))) ∨
         (t.result ≠ 0 ∧ ∀ k, k < tagLength kind → Memory.read t.mem (s.dstAddr + k) = 0))) ∧
    ∀ j, j < tagLength kind → (∀ k, k < j → s.busOk (s.dstAddr + k) .write = true) →
      s.busOk (s.dstAddr + j) .write = false →
      ∃ n t, s.leadsTo (cmacInstr kind) n t ∧ t = { s.finish .opErr with mem := t.mem } ∧
        ∀ a, Memory.read t.mem a =
          if s.dstAddr ≤ a ∧ a < s.dstAddr + j then 0 else Memory.read s.mem a

/-- Rule R90: for a fixed key and message a CMAC command writes the same bytes every time, wherever they stand and
whatever else the two states hold and whatever quiet turns stand between its events (rule R11). -/
def Obligations.CmacIsDeterministic : Prop :=
  ∀ (kind : TagKind) (s₁ s₂ : State), Memory.wf s₁.mem = true → Memory.wf s₂.mem = true → CmacReady kind s₁ →
    CmacReady kind s₂ → s₁.keyBytes = s₂.keyBytes → s₁.message kind = s₂.message kind →
    ∃ t₁ t₂, s₁.leadsTo (cmacInstr kind) (s₁.cmacEvents kind) t₁ ∧
      s₂.leadsTo (cmacInstr kind) (s₂.cmacEvents kind) t₂ ∧ t₁.result = 0 ∧ t₂.result = 0 ∧
      Memory.bytes t₁.mem s₁.dstAddr (tagLength kind) = Memory.bytes t₂.mem s₂.dstAddr (tagLength kind)

/-- Rule R57: after acceptance, what a command does depends on nothing that an earlier command left: two idle
states with the same operand registers, memory and platform run in step. -/
def Obligations.EffectsDependOnTheOperandsAlone : Prop :=
  ∀ (s₁ s₂ : State) (v : Word) (n : Nat) (t₁ : State), s₁.phase = .idle → s₂.phase = .idle →
    s₁.src = s₂.src → s₁.dst = s₂.dst → s₁.len = s₂.len → s₁.key = s₂.key → s₁.iv = s₂.iv → s₁.keyw = s₂.keyw →
    s₁.mem = s₂.mem → s₁.cryptoWindow = s₂.cryptoWindow → s₁.portFaults = s₂.portFaults →
    s₁.inputs = [.regWrite 0x00 32 v] → s₂.inputs = [.regWrite 0x00 32 v] →
    Host.Core.run core (n + 1) s₁ = .next t₁ →
    ∃ t₂, Host.Core.run core (n + 1) s₂ = .next t₂ ∧ t₂.mem = t₁.mem ∧ t₂.phase = t₁.phase ∧
      t₂.result = t₁.result ∧ t₂.doneBit = t₁.doneBit

/-! ## Invariants and progress -/

/-- The invariant holds after reset (rules R29, R104). That memory lists nothing there is the model's choice
(notes/assumptions/7.md). -/
def Obligations.ResetSatisfiesTheInvariant : Prop := Inv State.reset

/-- Every step keeps the invariant: memory stays canonical, `RESULT` stays one of the four codes and means
something only with `DONE`, an unwritten key register holds 0, and the position stays one the command can have.
The canonical form is the model's own (notes/assumptions/7.md). -/
def Obligations.EveryStepKeepsTheInvariant : Prop :=
  ∀ s t : State, Inv s → step s = .next t → Inv t

/-- From every state with the invariant a step answers a next state. Rule R58 says so of a busy core; that a turn of an
idle core answers a next state is the model's (notes/assumptions/3.md), as are the three faults that this excludes
(notes/assumptions/11.md). -/
def Obligations.TheMachineNeverStops : Prop :=
  ∀ s : State, Inv s → ∃ t, step s = .next t

/-- Rule R58: every running command reaches its finish after finitely many core steps. The bound is the model's
(notes/assumptions/1.md). -/
def Obligations.EveryCommandFinishes : Prop :=
  ∀ s : State, Inv s → s.inputs = [] → s.busy = true →
    ∃ n t, n ≤ 3 * s.length + 40 ∧ Host.Core.run core n s = .next t ∧ t.phase = .idle ∧ t.doneBit = true

/-- Rules R51, R58 and R94: `POLL` ends, and its last read shows `BUSY = 0`. The turns of the core between its
reads are the model's choice (notes/assumptions/12.md). -/
def Obligations.PollEndsWithTheCommand : Prop :=
  ∀ s : State, Inv s → s.inputs = [.poll] →
    ∃ n t v, Host.Core.run core n s = .next t ∧ t.inputs = [] ∧ t.phase = .idle ∧
      t.responses.head? = some (.data v) ∧ v.getLsbD 0 = false

/-! ## The datapath -/

/-- Rules R62 and R63: the S-box table is the affine map of the inverse, which is an inverse. -/
def Obligations.SboxIsTheAffineMapOfTheInverse : Prop :=
  ∀ a : Byte, sbox a = sboxAffine (gfInv a) ∧ (a ≠ 0 → gfMul a (gfInv a) = 1) ∧ gfInv 0 = 0

/-- Rule R64: `Sinv` is the inverse permutation of `S`. -/
def Obligations.SboxInvInvertsSbox : Prop :=
  ∀ a : Byte, sboxInv (sbox a) = a ∧ sbox (sboxInv a) = a

/-- Rule R62: multiplication in GF(2^8) distributes over addition on both sides, and the examples. -/
def Obligations.GfMulDistributes : Prop :=
  (∀ a b c : Byte, gfMul a (b ^^^ c) = gfMul a b ^^^ gfMul a c ∧ gfMul (a ^^^ b) c = gfMul a c ^^^ gfMul b c) ∧
  gfMul 0x57 0x02 = 0xAE ∧ gfMul 0x57 0x13 = 0xFE ∧ gfMul 0x80 0x02 = 0x1B

/-- Rules R66 and R68: `InvShiftRows` and `InvMixColumns` invert `ShiftRows` and `MixColumns`, on both sides. -/
def Obligations.InverseRoundTransformations : Prop :=
  ∀ s : Block, invShiftRows (shiftRows s) = s ∧ shiftRows (invShiftRows s) = s ∧
    invMixColumns (mixColumns s) = s ∧ mixColumns (invMixColumns s) = s

/-- Rules R70 and R71: the words of the key schedule, and the round constants. -/
def Obligations.KeyScheduleFollowsTheRecurrence : Prop :=
  (∀ (key : Block) (i : Nat) (hi : i < 4), (keyExpansion key)[i] =
    key[4 * i].setWidth 32 <<< 24 ||| key[4 * i + 1].setWidth 32 <<< 16 |||
      key[4 * i + 2].setWidth 32 <<< 8 ||| key[4 * i + 3].setWidth 32) ∧
  (∀ (key : Block) (i : Nat) (_ : 4 ≤ i) (hi : i < 44), (keyExpansion key)[i] =
    (keyExpansion key)[i - 4] ^^^
      (if i % 4 = 0 then subWord (rotWord (keyExpansion key)[i - 1]) ^^^ ((rcon (i / 4)).setWidth 32 <<< 24)
       else (keyExpansion key)[i - 1])) ∧
  (∀ a0 a1 a2 a3 : Byte, rotWord (a0 ++ a1 ++ a2 ++ a3) = a1 ++ a2 ++ a3 ++ a0 ∧
    subWord (a0 ++ a1 ++ a2 ++ a3) = sbox a0 ++ sbox a1 ++ sbox a2 ++ sbox a3) ∧
  [1, 2, 3, 4, 5, 6, 7, 8, 9, 10].map rcon = [0x01, 0x02, 0x04, 0x08, 0x10, 0x20, 0x40, 0x80, 0x1b, 0x36]

/-- Rule R74: for every key, `AES_DEC` and `AES_ENC` are inverse permutations of the blocks. -/
def Obligations.AesDecInvertsAesEnc : Prop :=
  ∀ key x : Block, aesDec key (aesEnc key x) = x ∧ aesEnc key (aesDec key x) = x

/-- Rule R80: decryption with the same key and IV gives back the plaintext. -/
def Obligations.CbcRoundTrip : Prop :=
  ∀ (key iv : Block) (plaintext : List Block),
    cbcDecrypt key iv (cbcEncrypt key iv plaintext) = plaintext

/-- Rule R112: a CBC message split in two needs the last ciphertext block of the first part as the IV of the
second. -/
def Obligations.CbcSplitCarriesTheLastCiphertextBlock : Prop :=
  ∀ (key iv last : Block) (first second : List Block),
    ((cbcEncrypt key iv first).getLast? = some last →
      cbcEncrypt key iv (first ++ second) = cbcEncrypt key iv first ++ cbcEncrypt key last second) ∧
    (first.getLast? = some last →
      cbcDecrypt key iv (first ++ second) = cbcDecrypt key iv first ++ cbcDecrypt key last second)

/-- Rules R8 and R81: doubling, byte by byte. -/
def Obligations.DoublingShiftsTheBytes : Prop :=
  ∀ b : Block, (∀ (j : Nat) (_ : j < 15), (dbl b)[j] = (b[j] <<< 1) ||| (b[j + 1] >>> 7)) ∧
    (dbl b)[15] = (b[15] <<< 1) ^^^ (if b[0].getLsbD 7 then 0x87 else 0x00)

/-- Rule R88, corner cases: doubling is a bijection whose only fixed point is `0^16`. -/
def Obligations.DoublingFixesOnlyZero : Prop :=
  (∀ b : Block, dbl b = b ↔ b = Block.zero) ∧ (∀ a b : Block, dbl a = dbl b → a = b) ∧
  ∀ b : Block, ∃ a, dbl a = b

/-- Rule R83: the padding of a final block. -/
def Obligations.PaddingAppendsOneBit : Prop :=
  ∀ x : List Byte, x.length < 16 → (pad x).toList = x ++ [0x80] ++ List.replicate (15 - x.length) 0

/-- Rule R85: the truncation selector keeps the odd-indexed bytes in order. -/
def Obligations.SelectorKeepsTheOddBytes : Prop :=
  ∀ t : Block, (trunc64 t).toList = [t[1], t[3], t[5], t[7], t[9], t[11], t[13], t[15]]

/-- Rule R91: messages of one length that differ in exactly one bit have different `CMAC128` tags; `TRUNC64` can
map two different tags to one. -/
def Obligations.OneBitChangesTheTag : Prop :=
  (∀ (key : Block) (m : List Byte) (p : Nat) (hp : p < m.length) (bit : Fin 8),
    cmac key (m.set p (m[p] ^^^ (1 <<< bit.val))) ≠ cmac key m) ∧
  ∃ t t' : Block, t ≠ t' ∧ trunc64 t = trunc64 t'
end

