-- ==== Sys2Proof/Laws/Block.lean ====
section
/-! SUPPORT. The laws of blocks: the bytes of an exclusive-or and its cancellation, and the cells of an AES state. -/

namespace Sys2Proof.Laws

open Sys2Proof.Machine

@[simp] theorem xorBlock_getElem (a b : Block) (k : Nat) (h : k < 16) : (xorBlock a b)[k] = a[k] ^^^ b[k] := by
  simp [xorBlock]

theorem xorBlock_comm (a b : Block) : xorBlock a b = xorBlock b a := by
  ext k hk
  simp [BitVec.xor_comm]

@[simp] theorem xorBlock_cancel (a b : Block) : xorBlock (xorBlock a b) b = a := by
  ext k hk
  simp

theorem xorBlock_left_inj {a a' b : Block} (h : xorBlock a b = xorBlock a' b) : a = a' := by
  rw [← xorBlock_cancel a b, h, xorBlock_cancel]

@[simp] theorem cell_ofCells (f : Fin 4 → Fin 4 → Byte) (r c : Fin 4) : cell (ofCells f) r c = f r c := by
  have h : (r.val + 4 * c.val) % 4 = r.val := by omega
  have h' : (r.val + 4 * c.val) / 4 = c.val := by omega
  simp only [cell, ofCells, Vector.getElem_ofFn]
  congr 1 <;> apply Fin.ext <;> simp [h, h']

/-- An AES state is its cells. -/
theorem ofCells_cell (s : Block) : ofCells (cell s) = s := by
  ext k hk
  have h : k % 4 + 4 * (k / 4) = k := by omega
  simp [ofCells, cell, h]

theorem block_ext_cells {s t : Block} (h : ∀ r c, cell s r c = cell t r c) : s = t := by
  rw [← ofCells_cell s, ← ofCells_cell t]
  congr 1
  funext r c
  exact h r c

/-- The length of an encryption is that of its input. -/
@[simp] theorem cbcEncrypt_length (key cv : Block) (blocks : List Block) :
    (cbcEncrypt key cv blocks).length = blocks.length := by
  induction blocks generalizing cv with
  | nil => rfl
  | cons p ps ih => simp [cbcEncrypt, ih]

/-- The length of a decryption is that of its input. -/
@[simp] theorem cbcDecrypt_length (key cv : Block) (blocks : List Block) :
    (cbcDecrypt key cv blocks).length = blocks.length := by
  induction blocks generalizing cv with
  | nil => rfl
  | cons p ps ih => simp [cbcDecrypt, ih]

/-- `TRUNC64` byte by byte. -/
@[simp] theorem trunc64_getElem (t : Block) (i : Nat) (h : i < 8) : (trunc64 t)[i] = t[2 * i + 1] := by
  simp [trunc64]

end Sys2Proof.Laws
end

