-- ==== Sys2Proof/Laws/Memory.lean ====
section
/-! SUPPORT. The laws of memory: a read after a write, and the canonical form, which every write keeps. -/

namespace Sys2Proof.Laws

open Sys2Proof.Machine

@[simp] theorem read_nil (a : Nat) : Memory.read [] a = Memory.unlisted := rfl

theorem read_cons (k : Nat) (v : Byte) (m : Memory) (a : Nat) :
    Memory.read ((k, v) :: m) a = if k = a then v else Memory.read m a := rfl

@[simp] theorem wfFrom_nil (lo : Nat) : Memory.wfFrom lo [] = true := rfl

theorem wfFrom_cons (lo k : Nat) (v : Byte) (m : Memory) :
    Memory.wfFrom lo ((k, v) :: m) = true ↔
      lo ≤ k ∧ k < 2 ^ 32 ∧ v ≠ Memory.unlisted ∧ Memory.wfFrom (k + 1) m = true := by
  simp only [Memory.wfFrom, Bool.and_eq_true, decide_eq_true_eq, and_assoc]
  exact Iff.rfl

/-- A memory in canonical form from `lo` on lists nothing below `lo`. -/
theorem read_below {lo : Nat} {m : Memory} (h : Memory.wfFrom lo m = true) {a : Nat} (ha : a < lo) :
    Memory.read m a = Memory.unlisted := by
  induction m generalizing lo with
  | nil => rfl
  | cons c m ih =>
    obtain ⟨k, v⟩ := c
    obtain ⟨h1, -, -, h4⟩ := (wfFrom_cons ..).1 h
    rw [read_cons, if_neg (by omega)]
    exact ih h4 (by omega)

theorem wfFrom_mono {lo lo' : Nat} {m : Memory} (h : Memory.wfFrom lo m = true) (hl : lo' ≤ lo) :
    Memory.wfFrom lo' m = true := by
  cases m with
  | nil => rfl
  | cons c m =>
    obtain ⟨k, v⟩ := c
    obtain ⟨h1, h2, h3, h4⟩ := (wfFrom_cons ..).1 h
    exact (wfFrom_cons ..).2 ⟨by omega, h2, h3, h4⟩

/-- A read at another address gives what it gave before the write. -/
theorem read_write_other (m : Memory) {a b : Nat} (v : Byte) (h : b ≠ a) :
    Memory.read (Memory.write m a v) b = Memory.read m b := by
  induction m with
  | nil => simp only [Memory.write]; split <;> simp [Memory.read, Ne.symm h]
  | cons c m ih =>
    obtain ⟨k, u⟩ := c
    simp only [Memory.write]
    split
    · split <;> simp [Memory.read, Ne.symm h]
    · split
      · next hk =>
        subst hk
        split <;> simp [Memory.read, Ne.symm h]
      · simp [Memory.read, ih]

/-- A read after a write to the same address gives the value written. -/
theorem read_write_same_from {lo : Nat} {m : Memory} (h : Memory.wfFrom lo m = true) (a : Nat) (v : Byte) :
    Memory.read (Memory.write m a v) a = v := by
  induction m generalizing lo with
  | nil => simp only [Memory.write]; split <;> simp_all [Memory.read]
  | cons c m ih =>
    obtain ⟨k, u⟩ := c
    obtain ⟨-, -, -, h4⟩ := (wfFrom_cons ..).1 h
    simp only [Memory.write]
    split
    · next hk =>
      split
      · next hv => rw [read_cons, if_neg (by omega), read_below h4 (by omega), hv]
      · simp [Memory.read]
    · split
      · next hk =>
        subst hk
        split
        · next hv => rw [read_below h4 (by omega), hv]
        · simp [Memory.read]
      · next hne => rw [read_cons, if_neg (Ne.symm hne)]; exact ih h4

theorem read_write_same {m : Memory} (h : Memory.wf m = true) (a : Nat) (v : Byte) :
    Memory.read (Memory.write m a v) a = v := read_write_same_from h a v

/-- What every byte reads as after a write. -/
theorem read_write {m : Memory} (h : Memory.wf m = true) (a b : Nat) (v : Byte) :
    Memory.read (Memory.write m a v) b = if b = a then v else Memory.read m b := by
  split
  · next hb => rw [hb, read_write_same h]
  · next hb => exact read_write_other m v hb

theorem wfFrom_write {lo : Nat} {m : Memory} (h : Memory.wfFrom lo m = true) {a : Nat} (v : Byte)
    (hlo : lo ≤ a) (ha : a < 2 ^ 32) : Memory.wfFrom lo (Memory.write m a v) = true := by
  induction m generalizing lo with
  | nil =>
    simp only [Memory.write]
    split
    · rfl
    · next hv => exact (wfFrom_cons ..).2 ⟨hlo, ha, hv, rfl⟩
  | cons c m ih =>
    obtain ⟨k, u⟩ := c
    obtain ⟨h1, h2, h3, h4⟩ := (wfFrom_cons ..).1 h
    simp only [Memory.write]
    split
    · next hk =>
      split
      · exact h
      · next hv => exact (wfFrom_cons ..).2 ⟨hlo, ha, hv, (wfFrom_cons ..).2 ⟨by omega, h2, h3, h4⟩⟩
    · split
      · next hk =>
        subst hk
        split
        · exact wfFrom_mono h4 (by omega)
        · next hv => exact (wfFrom_cons ..).2 ⟨hlo, ha, hv, h4⟩
      · exact (wfFrom_cons ..).2 ⟨h1, h2, h3, ih h4 (by omega)⟩

/-- The only operation that changes memory keeps its canonical form, at every address of the memory space. -/
theorem wf_write {m : Memory} (h : Memory.wf m = true) {a : Nat} (ha : a < 2 ^ 32) (v : Byte) :
    Memory.wf (Memory.write m a v) = true := wfFrom_write h v (Nat.zero_le a) ha

/-- The memory of `State.reset` has the canonical form. -/
theorem wf_reset : Memory.wf State.reset.mem = true := rfl

theorem ext_from {lo : Nat} {m m' : Memory} (h : Memory.wfFrom lo m = true) (h' : Memory.wfFrom lo m' = true)
    (hr : ∀ a, Memory.read m a = Memory.read m' a) : m = m' := by
  induction m generalizing lo m' with
  | nil =>
    cases m' with
    | nil => rfl
    | cons c m' =>
      obtain ⟨k, v⟩ := c
      obtain ⟨-, -, h3, -⟩ := (wfFrom_cons ..).1 h'
      exact absurd ((hr k).trans (by simp [Memory.read])).symm h3
  | cons c m ih =>
    obtain ⟨k, v⟩ := c
    obtain ⟨h1, h2, h3, h4⟩ := (wfFrom_cons ..).1 h
    cases m' with
    | nil => exact absurd (by simpa [Memory.read] using hr k) h3
    | cons c' m' =>
      obtain ⟨k', v'⟩ := c'
      obtain ⟨h1', h2', h3', h4'⟩ := (wfFrom_cons ..).1 h'
      have hk : k = k' := by
        rcases Nat.lt_trichotomy k k' with hlt | heq | hgt
        · have := hr k
          rw [read_cons, if_pos rfl, read_cons, if_neg (by omega), read_below h4' (by omega)] at this
          exact absurd this h3
        · exact heq
        · have := hr k'
          rw [read_cons, if_neg (by omega), read_below h4 (by omega), read_cons, if_pos rfl] at this
          exact absurd this.symm h3'
      subst hk
      have hv : v = v' := by simpa [Memory.read] using hr k
      subst hv
      congr 1
      refine ih h4 h4' fun a => ?_
      by_cases ha : k = a
      · subst ha
        rw [read_below h4 (by omega), read_below h4' (by omega)]
      · simpa [Memory.read, ha] using hr a

/-- Memories in canonical form that read alike are equal data. -/
theorem memory_ext {m m' : Memory} (h : Memory.wf m = true) (h' : Memory.wf m' = true)
    (hr : ∀ a, Memory.read m a = Memory.read m' a) : m = m' := ext_from h h' hr

@[simp] theorem block_getElem (m : Memory) (a k : Nat) (h : k < 16) :
    (Memory.block m a)[k] = Memory.read m (a + k) := by simp [Memory.block]

@[simp] theorem bytes_length (m : Memory) (a n : Nat) : (Memory.bytes m a n).length = n := by
  simp [Memory.bytes]

end Sys2Proof.Laws
end

