-- ==== Sys2Proof/Laws/State.lean ====
section
/-! SUPPORT. What each named update of the state does to each field, and what the views of the state see of it: all
true by computation, so that no later proof unfolds an update. -/

namespace Sys2Proof.Laws

open Sys2Proof.Machine

/-! `State.accept`. -/

@[simp] theorem accept_src (s : State) (v : Word) : (s.accept v).src = s.src := rfl
@[simp] theorem accept_dst (s : State) (v : Word) : (s.accept v).dst = s.dst := rfl
@[simp] theorem accept_len (s : State) (v : Word) : (s.accept v).len = s.len := rfl
@[simp] theorem accept_key (s : State) (v : Word) : (s.accept v).key = s.key := rfl
@[simp] theorem accept_iv (s : State) (v : Word) : (s.accept v).iv = s.iv := rfl
@[simp] theorem accept_doneBit (s : State) (v : Word) : (s.accept v).doneBit = false := rfl
@[simp] theorem accept_result (s : State) (v : Word) : (s.accept v).result = 0 := rfl
@[simp] theorem accept_keyw (s : State) (v : Word) : (s.accept v).keyw = s.keyw := rfl
@[simp] theorem accept_phase (s : State) (v : Word) : (s.accept v).phase = .busy (Engine.start v) := rfl
@[simp] theorem accept_mem (s : State) (v : Word) : (s.accept v).mem = s.mem := rfl
@[simp] theorem accept_cryptoWindow (s : State) (v : Word) : (s.accept v).cryptoWindow = s.cryptoWindow := rfl
@[simp] theorem accept_portFaults (s : State) (v : Word) : (s.accept v).portFaults = s.portFaults := rfl
@[simp] theorem accept_inputs (s : State) (v : Word) : (s.accept v).inputs = s.inputs := rfl
@[simp] theorem accept_responses (s : State) (v : Word) : (s.accept v).responses = s.responses := rfl

/-! `State.finish`. -/

@[simp] theorem finish_src (s : State) (c : ResultCode) : (s.finish c).src = s.src := rfl
@[simp] theorem finish_dst (s : State) (c : ResultCode) : (s.finish c).dst = s.dst := rfl
@[simp] theorem finish_len (s : State) (c : ResultCode) : (s.finish c).len = s.len := rfl
@[simp] theorem finish_key (s : State) (c : ResultCode) : (s.finish c).key = Vector.replicate 4 0 := rfl
@[simp] theorem finish_iv (s : State) (c : ResultCode) : (s.finish c).iv = Vector.replicate 4 0 := rfl
@[simp] theorem finish_doneBit (s : State) (c : ResultCode) : (s.finish c).doneBit = true := rfl
@[simp] theorem finish_result (s : State) (c : ResultCode) : (s.finish c).result = resultBits c := rfl
@[simp] theorem finish_keyw (s : State) (c : ResultCode) : (s.finish c).keyw = 0 := rfl
@[simp] theorem finish_phase (s : State) (c : ResultCode) : (s.finish c).phase = .idle := rfl
@[simp] theorem finish_mem (s : State) (c : ResultCode) : (s.finish c).mem = s.mem := rfl
@[simp] theorem finish_cryptoWindow (s : State) (c : ResultCode) : (s.finish c).cryptoWindow = s.cryptoWindow := rfl
@[simp] theorem finish_portFaults (s : State) (c : ResultCode) : (s.finish c).portFaults = s.portFaults := rfl
@[simp] theorem finish_inputs (s : State) (c : ResultCode) : (s.finish c).inputs = s.inputs := rfl
@[simp] theorem finish_responses (s : State) (c : ResultCode) : (s.finish c).responses = s.responses := rfl

/-! `State.withEngine`. -/

@[simp] theorem withEngine_src (s : State) (e : Engine) : (s.withEngine e).src = s.src := rfl
@[simp] theorem withEngine_dst (s : State) (e : Engine) : (s.withEngine e).dst = s.dst := rfl
@[simp] theorem withEngine_len (s : State) (e : Engine) : (s.withEngine e).len = s.len := rfl
@[simp] theorem withEngine_key (s : State) (e : Engine) : (s.withEngine e).key = s.key := rfl
@[simp] theorem withEngine_iv (s : State) (e : Engine) : (s.withEngine e).iv = s.iv := rfl
@[simp] theorem withEngine_doneBit (s : State) (e : Engine) : (s.withEngine e).doneBit = s.doneBit := rfl
@[simp] theorem withEngine_result (s : State) (e : Engine) : (s.withEngine e).result = s.result := rfl
@[simp] theorem withEngine_keyw (s : State) (e : Engine) : (s.withEngine e).keyw = s.keyw := rfl
@[simp] theorem withEngine_phase (s : State) (e : Engine) : (s.withEngine e).phase = .busy e := rfl
@[simp] theorem withEngine_mem (s : State) (e : Engine) : (s.withEngine e).mem = s.mem := rfl
@[simp] theorem withEngine_cryptoWindow (s : State) (e : Engine) : (s.withEngine e).cryptoWindow = s.cryptoWindow := rfl
@[simp] theorem withEngine_portFaults (s : State) (e : Engine) : (s.withEngine e).portFaults = s.portFaults := rfl
@[simp] theorem withEngine_inputs (s : State) (e : Engine) : (s.withEngine e).inputs = s.inputs := rfl
@[simp] theorem withEngine_responses (s : State) (e : Engine) : (s.withEngine e).responses = s.responses := rfl

/-! `State.goto`. -/

@[simp] theorem goto_src (s : State) (e : Engine) (p : Position) : (s.goto e p).src = s.src := rfl
@[simp] theorem goto_dst (s : State) (e : Engine) (p : Position) : (s.goto e p).dst = s.dst := rfl
@[simp] theorem goto_len (s : State) (e : Engine) (p : Position) : (s.goto e p).len = s.len := rfl
@[simp] theorem goto_key (s : State) (e : Engine) (p : Position) : (s.goto e p).key = s.key := rfl
@[simp] theorem goto_iv (s : State) (e : Engine) (p : Position) : (s.goto e p).iv = s.iv := rfl
@[simp] theorem goto_doneBit (s : State) (e : Engine) (p : Position) : (s.goto e p).doneBit = s.doneBit := rfl
@[simp] theorem goto_result (s : State) (e : Engine) (p : Position) : (s.goto e p).result = s.result := rfl
@[simp] theorem goto_keyw (s : State) (e : Engine) (p : Position) : (s.goto e p).keyw = s.keyw := rfl
@[simp] theorem goto_phase (s : State) (e : Engine) (p : Position) : (s.goto e p).phase = .busy { e with pos := p } := rfl
@[simp] theorem goto_mem (s : State) (e : Engine) (p : Position) : (s.goto e p).mem = s.mem := rfl
@[simp] theorem goto_cryptoWindow (s : State) (e : Engine) (p : Position) : (s.goto e p).cryptoWindow = s.cryptoWindow := rfl
@[simp] theorem goto_portFaults (s : State) (e : Engine) (p : Position) : (s.goto e p).portFaults = s.portFaults := rfl
@[simp] theorem goto_inputs (s : State) (e : Engine) (p : Position) : (s.goto e p).inputs = s.inputs := rfl
@[simp] theorem goto_responses (s : State) (e : Engine) (p : Position) : (s.goto e p).responses = s.responses := rfl

/-! `State.takeReset`. -/

@[simp] theorem takeReset_src (s : State) : s.takeReset.src = 0 := rfl
@[simp] theorem takeReset_dst (s : State) : s.takeReset.dst = 0 := rfl
@[simp] theorem takeReset_len (s : State) : s.takeReset.len = 0 := rfl
@[simp] theorem takeReset_key (s : State) : s.takeReset.key = Vector.replicate 4 0 := rfl
@[simp] theorem takeReset_iv (s : State) : s.takeReset.iv = Vector.replicate 4 0 := rfl
@[simp] theorem takeReset_doneBit (s : State) : s.takeReset.doneBit = false := rfl
@[simp] theorem takeReset_result (s : State) : s.takeReset.result = 0 := rfl
@[simp] theorem takeReset_keyw (s : State) : s.takeReset.keyw = 0 := rfl
@[simp] theorem takeReset_phase (s : State) : s.takeReset.phase = .idle := rfl
@[simp] theorem takeReset_mem (s : State) : s.takeReset.mem = s.mem := rfl
@[simp] theorem takeReset_cryptoWindow (s : State) : s.takeReset.cryptoWindow = s.cryptoWindow := rfl
@[simp] theorem takeReset_portFaults (s : State) : s.takeReset.portFaults = s.portFaults := rfl
@[simp] theorem takeReset_inputs (s : State) : s.takeReset.inputs = s.inputs := rfl
@[simp] theorem takeReset_responses (s : State) : s.takeReset.responses = s.responses := rfl

/-! `State.respond`. -/

@[simp] theorem respond_src (s : State) (r : Response) : (s.respond r).src = s.src := rfl
@[simp] theorem respond_dst (s : State) (r : Response) : (s.respond r).dst = s.dst := rfl
@[simp] theorem respond_len (s : State) (r : Response) : (s.respond r).len = s.len := rfl
@[simp] theorem respond_key (s : State) (r : Response) : (s.respond r).key = s.key := rfl
@[simp] theorem respond_iv (s : State) (r : Response) : (s.respond r).iv = s.iv := rfl
@[simp] theorem respond_doneBit (s : State) (r : Response) : (s.respond r).doneBit = s.doneBit := rfl
@[simp] theorem respond_result (s : State) (r : Response) : (s.respond r).result = s.result := rfl
@[simp] theorem respond_keyw (s : State) (r : Response) : (s.respond r).keyw = s.keyw := rfl
@[simp] theorem respond_phase (s : State) (r : Response) : (s.respond r).phase = s.phase := rfl
@[simp] theorem respond_mem (s : State) (r : Response) : (s.respond r).mem = s.mem := rfl
@[simp] theorem respond_cryptoWindow (s : State) (r : Response) : (s.respond r).cryptoWindow = s.cryptoWindow := rfl
@[simp] theorem respond_portFaults (s : State) (r : Response) : (s.respond r).portFaults = s.portFaults := rfl
@[simp] theorem respond_inputs (s : State) (r : Response) : (s.respond r).inputs = s.inputs := rfl
@[simp] theorem respond_responses (s : State) (r : Response) : (s.respond r).responses = r :: s.responses := rfl

/-! Views of the state after `State.accept`. -/

@[simp] theorem accept_srcAddr (s : State) (v : Word) : (s.accept v).srcAddr = s.srcAddr := rfl
@[simp] theorem accept_dstAddr (s : State) (v : Word) : (s.accept v).dstAddr = s.dstAddr := rfl
@[simp] theorem accept_length (s : State) (v : Word) : (s.accept v).length = s.length := rfl
@[simp] theorem accept_keyBytes (s : State) (v : Word) : (s.accept v).keyBytes = s.keyBytes := rfl
@[simp] theorem accept_ivBytes (s : State) (v : Word) : (s.accept v).ivBytes = s.ivBytes := rfl
@[simp] theorem accept_keySupplied (s : State) (v : Word) : (s.accept v).keySupplied = s.keySupplied := rfl
@[simp] theorem accept_cbcBlocks (s : State) (v : Word) : (s.accept v).cbcBlocks = s.cbcBlocks := rfl
@[simp] theorem accept_cryptoBase (s : State) (v : Word) : (s.accept v).cryptoBase = s.cryptoBase := rfl
@[simp] theorem accept_busOk (s : State) (v : Word) (a : Nat) (k : AccessKind) : (s.accept v).busOk a k = s.busOk a k := rfl
@[simp] theorem accept_cbcReadAddr (s : State) (v : Word) (i : Nat) (j : Fin 16) : (s.accept v).cbcReadAddr i j = s.cbcReadAddr i j := rfl
@[simp] theorem accept_cbcWriteAddr (s : State) (v : Word) (i : Nat) (j : Fin 16) : (s.accept v).cbcWriteAddr i j = s.cbcWriteAddr i j := rfl
@[simp] theorem accept_cmacReadAddr (s : State) (v : Word) (m : Nat) : (s.accept v).cmacReadAddr m = s.cmacReadAddr m := rfl
@[simp] theorem accept_cmacTagAddr (s : State) (v : Word) (j : Fin 16) : (s.accept v).cmacTagAddr j = s.cmacTagAddr j := rfl
@[simp] theorem accept_memRead (s : State) (v : Word) (a : Nat) : (s.accept v).memRead a = s.memRead a := rfl
@[simp] theorem accept_cbcLoopHead (s : State) (v : Word) (i : Nat) : (s.accept v).cbcLoopHead i = s.cbcLoopHead i := rfl
@[simp] theorem accept_cmacLoopHead (s : State) (v : Word) (m : Nat) : (s.accept v).cmacLoopHead m = s.cmacLoopHead m := rfl

/-! Views of the state after `State.withEngine`. -/

@[simp] theorem withEngine_srcAddr (s : State) (e : Engine) : (s.withEngine e).srcAddr = s.srcAddr := rfl
@[simp] theorem withEngine_dstAddr (s : State) (e : Engine) : (s.withEngine e).dstAddr = s.dstAddr := rfl
@[simp] theorem withEngine_length (s : State) (e : Engine) : (s.withEngine e).length = s.length := rfl
@[simp] theorem withEngine_keyBytes (s : State) (e : Engine) : (s.withEngine e).keyBytes = s.keyBytes := rfl
@[simp] theorem withEngine_ivBytes (s : State) (e : Engine) : (s.withEngine e).ivBytes = s.ivBytes := rfl
@[simp] theorem withEngine_keySupplied (s : State) (e : Engine) : (s.withEngine e).keySupplied = s.keySupplied := rfl
@[simp] theorem withEngine_cbcBlocks (s : State) (e : Engine) : (s.withEngine e).cbcBlocks = s.cbcBlocks := rfl
@[simp] theorem withEngine_cryptoBase (s : State) (e : Engine) : (s.withEngine e).cryptoBase = s.cryptoBase := rfl
@[simp] theorem withEngine_busOk (s : State) (e : Engine) (a : Nat) (k : AccessKind) : (s.withEngine e).busOk a k = s.busOk a k := rfl
@[simp] theorem withEngine_cbcReadAddr (s : State) (e : Engine) (i : Nat) (j : Fin 16) : (s.withEngine e).cbcReadAddr i j = s.cbcReadAddr i j := rfl
@[simp] theorem withEngine_cbcWriteAddr (s : State) (e : Engine) (i : Nat) (j : Fin 16) : (s.withEngine e).cbcWriteAddr i j = s.cbcWriteAddr i j := rfl
@[simp] theorem withEngine_cmacReadAddr (s : State) (e : Engine) (m : Nat) : (s.withEngine e).cmacReadAddr m = s.cmacReadAddr m := rfl
@[simp] theorem withEngine_cmacTagAddr (s : State) (e : Engine) (j : Fin 16) : (s.withEngine e).cmacTagAddr j = s.cmacTagAddr j := rfl
@[simp] theorem withEngine_memRead (s : State) (e : Engine) (a : Nat) : (s.withEngine e).memRead a = s.memRead a := rfl
@[simp] theorem withEngine_cbcLoopHead (s : State) (e : Engine) (i : Nat) : (s.withEngine e).cbcLoopHead i = s.cbcLoopHead i := rfl
@[simp] theorem withEngine_cmacLoopHead (s : State) (e : Engine) (m : Nat) : (s.withEngine e).cmacLoopHead m = s.cmacLoopHead m := rfl

/-! Views of the state after `State.goto`. -/

@[simp] theorem goto_srcAddr (s : State) (e : Engine) (p : Position) : (s.goto e p).srcAddr = s.srcAddr := rfl
@[simp] theorem goto_dstAddr (s : State) (e : Engine) (p : Position) : (s.goto e p).dstAddr = s.dstAddr := rfl
@[simp] theorem goto_length (s : State) (e : Engine) (p : Position) : (s.goto e p).length = s.length := rfl
@[simp] theorem goto_keyBytes (s : State) (e : Engine) (p : Position) : (s.goto e p).keyBytes = s.keyBytes := rfl
@[simp] theorem goto_ivBytes (s : State) (e : Engine) (p : Position) : (s.goto e p).ivBytes = s.ivBytes := rfl
@[simp] theorem goto_keySupplied (s : State) (e : Engine) (p : Position) : (s.goto e p).keySupplied = s.keySupplied := rfl
@[simp] theorem goto_cbcBlocks (s : State) (e : Engine) (p : Position) : (s.goto e p).cbcBlocks = s.cbcBlocks := rfl
@[simp] theorem goto_cryptoBase (s : State) (e : Engine) (p : Position) : (s.goto e p).cryptoBase = s.cryptoBase := rfl
@[simp] theorem goto_busOk (s : State) (e : Engine) (p : Position) (a : Nat) (k : AccessKind) : (s.goto e p).busOk a k = s.busOk a k := rfl
@[simp] theorem goto_cbcReadAddr (s : State) (e : Engine) (p : Position) (i : Nat) (j : Fin 16) : (s.goto e p).cbcReadAddr i j = s.cbcReadAddr i j := rfl
@[simp] theorem goto_cbcWriteAddr (s : State) (e : Engine) (p : Position) (i : Nat) (j : Fin 16) : (s.goto e p).cbcWriteAddr i j = s.cbcWriteAddr i j := rfl
@[simp] theorem goto_cmacReadAddr (s : State) (e : Engine) (p : Position) (m : Nat) : (s.goto e p).cmacReadAddr m = s.cmacReadAddr m := rfl
@[simp] theorem goto_cmacTagAddr (s : State) (e : Engine) (p : Position) (j : Fin 16) : (s.goto e p).cmacTagAddr j = s.cmacTagAddr j := rfl
@[simp] theorem goto_memRead (s : State) (e : Engine) (p : Position) (a : Nat) : (s.goto e p).memRead a = s.memRead a := rfl
@[simp] theorem goto_cbcLoopHead (s : State) (e : Engine) (p : Position) (i : Nat) : (s.goto e p).cbcLoopHead i = s.cbcLoopHead i := rfl
@[simp] theorem goto_cmacLoopHead (s : State) (e : Engine) (p : Position) (m : Nat) : (s.goto e p).cmacLoopHead m = s.cmacLoopHead m := rfl

/-! Views of the state after `State.respond`. -/

@[simp] theorem respond_srcAddr (s : State) (r : Response) : (s.respond r).srcAddr = s.srcAddr := rfl
@[simp] theorem respond_dstAddr (s : State) (r : Response) : (s.respond r).dstAddr = s.dstAddr := rfl
@[simp] theorem respond_length (s : State) (r : Response) : (s.respond r).length = s.length := rfl
@[simp] theorem respond_keyBytes (s : State) (r : Response) : (s.respond r).keyBytes = s.keyBytes := rfl
@[simp] theorem respond_ivBytes (s : State) (r : Response) : (s.respond r).ivBytes = s.ivBytes := rfl
@[simp] theorem respond_keySupplied (s : State) (r : Response) : (s.respond r).keySupplied = s.keySupplied := rfl
@[simp] theorem respond_cbcBlocks (s : State) (r : Response) : (s.respond r).cbcBlocks = s.cbcBlocks := rfl
@[simp] theorem respond_cryptoBase (s : State) (r : Response) : (s.respond r).cryptoBase = s.cryptoBase := rfl
@[simp] theorem respond_busOk (s : State) (r : Response) (a : Nat) (k : AccessKind) : (s.respond r).busOk a k = s.busOk a k := rfl
@[simp] theorem respond_cbcReadAddr (s : State) (r : Response) (i : Nat) (j : Fin 16) : (s.respond r).cbcReadAddr i j = s.cbcReadAddr i j := rfl
@[simp] theorem respond_cbcWriteAddr (s : State) (r : Response) (i : Nat) (j : Fin 16) : (s.respond r).cbcWriteAddr i j = s.cbcWriteAddr i j := rfl
@[simp] theorem respond_cmacReadAddr (s : State) (r : Response) (m : Nat) : (s.respond r).cmacReadAddr m = s.cmacReadAddr m := rfl
@[simp] theorem respond_cmacTagAddr (s : State) (r : Response) (j : Fin 16) : (s.respond r).cmacTagAddr j = s.cmacTagAddr j := rfl
@[simp] theorem respond_memRead (s : State) (r : Response) (a : Nat) : (s.respond r).memRead a = s.memRead a := rfl
@[simp] theorem respond_cbcLoopHead (s : State) (r : Response) (i : Nat) : (s.respond r).cbcLoopHead i = s.cbcLoopHead i := rfl
@[simp] theorem respond_cmacLoopHead (s : State) (r : Response) (m : Nat) : (s.respond r).cmacLoopHead m = s.cmacLoopHead m := rfl

/-! `BUSY` after each update. -/

@[simp] theorem accept_busy (s : State) (v : Word) : (s.accept v).busy = true := rfl
@[simp] theorem finish_busy (s : State) (c : ResultCode) : (s.finish c).busy = false := rfl
@[simp] theorem withEngine_busy (s : State) (e : Engine) : (s.withEngine e).busy = true := rfl
@[simp] theorem goto_busy (s : State) (e : Engine) (p : Position) : (s.goto e p).busy = true := rfl
@[simp] theorem takeReset_busy (s : State) : s.takeReset.busy = false := rfl
@[simp] theorem respond_busy (s : State) (r : Response) : (s.respond r).busy = s.busy := rfl

/-- `BUSY` is 1 exactly while there is internal state. -/
theorem busy_iff (s : State) : s.busy = true ↔ ∃ e, s.phase = .busy e := by
  unfold State.busy
  cases s.phase <;> simp

/-- A later position replaces an earlier one. -/
@[simp] theorem goto_withEngine (s : State) (e f : Engine) (p : Position) :
    (s.withEngine e).goto f p = s.goto f p := rfl

end Sys2Proof.Laws
end

