-- ==== Sys2Proof/Laws/Ops.lean ====
section
/-! SUPPORT. One lemma per shared operation that says once everything it can do: the memory port, an event of a
CBC command, an event of a CMAC command, an event of a reserved word, a turn of the core, and a step. -/

namespace Sys2Proof.Laws

open Sys2Proof.Machine

/-! The memory port. -/

/-- Rule R31: `BUS_OK` holds outside the core's own window, where no region of the platform's stops the access. -/
theorem busOk_iff {s : State} {a : Nat} {kind : AccessKind} :
    s.busOk a kind = true ↔
      (a < s.cryptoBase ∨ s.cryptoBase + 64 ≤ a) ∧ ∀ r ∈ s.portFaults, r.stops a kind = false := by
  have hw : s.inOwnWindow a = false ↔ a < s.cryptoBase ∨ s.cryptoBase + 64 ≤ a := by
    unfold State.inOwnWindow Config.windowSize
    rw [decide_eq_false_iff_not]
    omega
  simp only [State.busOk, Bool.and_eq_true, Bool.not_eq_true', hw, List.any_eq_false, Bool.not_eq_true]

theorem busOk_window {s : State} {a : Nat} (kind : AccessKind) (h : s.inOwnWindow a = true) :
    s.busOk a kind = false := by simp [State.busOk, h]

theorem memRead_data_iff {s : State} {a : Nat} {b : Byte} :
    s.memRead a = .data b ↔ a < 2 ^ 32 ∧ s.busOk a .read = true ∧ b = Memory.read s.mem a := by
  unfold State.memRead
  change (if a < 2 ^ 32 then _ else _) = _ ↔ _
  generalize 2 ^ 32 = size
  by_cases ha : a < size <;> by_cases hb : s.busOk a .read = true <;> simp [ha, hb, eq_comm]

theorem memRead_busError_iff {s : State} {a : Nat} :
    s.memRead a = .busError ↔ a < 2 ^ 32 ∧ s.busOk a .read = false := by
  unfold State.memRead
  change (if a < 2 ^ 32 then _ else _) = _ ↔ _
  generalize 2 ^ 32 = size
  by_cases ha : a < size <;> by_cases hb : s.busOk a .read = true <;> simp [ha, hb]

theorem memRead_noSuchAddress_iff {s : State} {a : Nat} : s.memRead a = .noSuchAddress ↔ 2 ^ 32 ≤ a := by
  unfold State.memRead
  change (if a < 2 ^ 32 then _ else _) = _ ↔ _
  generalize 2 ^ 32 = size
  by_cases ha : size ≤ a <;> by_cases hb : s.busOk a .read = true <;> simp [ha, hb, Nat.not_lt.2, Nat.lt_of_not_le]

theorem memWrite_wrote_iff {s : State} {a : Nat} {v : Byte} {m : Memory} :
    s.memWrite a v = .wrote m ↔ a < 2 ^ 32 ∧ s.busOk a .write = true ∧ m = Memory.write s.mem a v := by
  unfold State.memWrite
  change (if a < 2 ^ 32 then _ else _) = _ ↔ _
  generalize 2 ^ 32 = size
  by_cases ha : a < size <;> by_cases hb : s.busOk a .write = true <;> simp [ha, hb, eq_comm]

theorem memWrite_busError_iff {s : State} {a : Nat} {v : Byte} :
    s.memWrite a v = .busError ↔ a < 2 ^ 32 ∧ s.busOk a .write = false := by
  unfold State.memWrite
  change (if a < 2 ^ 32 then _ else _) = _ ↔ _
  generalize 2 ^ 32 = size
  by_cases ha : a < size <;> by_cases hb : s.busOk a .write = true <;> simp [ha, hb]

theorem memWrite_noSuchAddress_iff {s : State} {a : Nat} {v : Byte} :
    s.memWrite a v = .noSuchAddress ↔ 2 ^ 32 ≤ a := by
  unfold State.memWrite
  change (if a < 2 ^ 32 then _ else _) = _ ↔ _
  generalize 2 ^ 32 = size
  by_cases ha : size ≤ a <;> by_cases hb : s.busOk a .write = true <;> simp [ha, hb, Nat.not_lt.2, Nat.lt_of_not_le]

/-! CBC. -/

/-- The position after a check of `cbc_run` that reads only the registers (rule R76). -/
def cbcCheckNext (s : State) : Position → Option Position
  | .dispatch => some .cbcKeyCheck
  | .cbcKeyCheck => some (s.keyCheck .cbcLengthCheck)
  | .cbcLengthCheck => some (opCheck (cbcLengthOk s.length) .cbcRangeCheck)
  | .cbcRangeCheck => some (opCheck (inRange s.srcAddr s.length && inRange s.dstAddr s.length) .cbcLoad)
  | _ => none

/-- The address of an access of `cbc_run` and its kind (rule R76). -/
def cbcAccess (s : State) : Position → Option (Nat × AccessKind)
  | .cbcRead i j => some (s.cbcReadAddr i j, .read)
  | .cbcWrite i j => some (s.cbcWriteAddr i j, .write)
  | _ => none

/-- The states that an event of `cbc_run(dir)` leads to. -/
inductive CbcNext (dir : Direction) (s : State) (e : Engine) : State → Prop
  | check (p : Position) (h : cbcCheckNext s e.pos = some p) : CbcNext dir s e (s.goto e p)
  | finish (c : ResultCode) (h : e.pos = .finish c) : CbcNext dir s e (s.finish c)
  | load (h : e.pos = .cbcLoad) :
    CbcNext dir s e (s.withEngine { e with w := keyExpansion s.keyBytes, cv := s.ivBytes, pos := s.cbcLoopHead 0 })
  | busError (a : Nat) (k : AccessKind) (h : cbcAccess s e.pos = some (a, k)) (hlt : a < 2 ^ 32)
    (hb : s.busOk a k = false) : CbcNext dir s e (s.goto e (.finish .opErr))
  | read (i : Nat) (j : Fin 16) (h : e.pos = .cbcRead i j) (hlt : s.cbcReadAddr i j < 2 ^ 32)
    (hb : s.busOk (s.cbcReadAddr i j) .read = true) :
    CbcNext dir s e (s.withEngine { e with
      inBlock := e.inBlock.set j (Memory.read s.mem (s.cbcReadAddr i j))
      pos := if j = 15 then .cbcCompute i else .cbcRead i (j + 1) })
  | compute (i : Nat) (h : e.pos = .cbcCompute i) :
    CbcNext dir s e (s.withEngine { e with
      outBlock := cbcOutput dir e.w e.cv e.inBlock
      cv := cbcNextCv dir e.inBlock (cbcOutput dir e.w e.cv e.inBlock)
      pos := .cbcWrite i 0 })
  | write (i : Nat) (j : Fin 16) (h : e.pos = .cbcWrite i j) (hlt : s.cbcWriteAddr i j < 2 ^ 32)
    (hb : s.busOk (s.cbcWriteAddr i j) .write = true) :
    CbcNext dir s e { s.goto e (if j = 15 then s.cbcLoopHead (i + 1) else .cbcWrite i (j + 1)) with
      mem := Memory.write s.mem (s.cbcWriteAddr i j) e.outBlock[j] }

theorem cbcReadEvent_cases {dir : Direction} {s t : State} {e : Engine} {i : Nat} {j : Fin 16}
    (hp : e.pos = .cbcRead i j) (h : cbcReadEvent s e i j = .next t) : CbcNext dir s e t := by
  unfold cbcReadEvent at h
  split at h
  · next b hb =>
    obtain ⟨h1, h2, rfl⟩ := memRead_data_iff.1 hb
    cases h
    exact .read i j hp h1 h2
  · next hb =>
    obtain ⟨h1, h2⟩ := memRead_busError_iff.1 hb
    cases h
    exact .busError _ .read (by rw [hp]; rfl) h1 h2
  · cases h

theorem cbcWriteEvent_cases {dir : Direction} {s t : State} {e : Engine} {i : Nat} {j : Fin 16}
    (hp : e.pos = .cbcWrite i j) (h : cbcWriteEvent s e i j = .next t) : CbcNext dir s e t := by
  unfold cbcWriteEvent at h
  split at h
  · next m hb =>
    obtain ⟨h1, h2, rfl⟩ := memWrite_wrote_iff.1 hb
    cases h
    exact .write i j hp h1 h2
  · next hb =>
    obtain ⟨h1, h2⟩ := memWrite_busError_iff.1 hb
    cases h
    exact .busError _ .write (by rw [hp]; rfl) h1 h2
  · cases h

/-- Everything an event of a CBC command can do. -/
theorem cbcEvent_cases {dir : Direction} {s t : State} (h : cbcEvent dir s = .next t) :
    ∃ e, s.phase = .busy e ∧ CbcNext dir s e t := by
  unfold cbcEvent at h
  split at h
  · cases h
  · next e he =>
    refine ⟨e, he, ?_⟩
    split at h <;> try cases h
    · next hp => exact .check _ (by rw [hp]; rfl)
    · next hp => exact .finish _ hp
    · next hp => exact .check _ (by rw [hp]; rfl)
    · next hp => exact .check _ (by rw [hp]; rfl)
    · next hp => exact .check _ (by rw [hp]; rfl)
    · next hp => exact .load hp
    · next hp => exact cbcReadEvent_cases hp h
    · next hp => exact .compute _ hp
    · next hp => exact cbcWriteEvent_cases hp h

/-! CMAC. -/

/-- The position after a check of `cmac_run` that reads only the registers (rule R86). -/
def cmacCheckNext (kind : TagKind) (s : State) : Position → Option Position
  | .dispatch => some .cmacTagRangeCheck
  | .cmacTagRangeCheck => some (opCheck (inRange s.dstAddr (tagLength kind)) (.cmacZero 0))
  | .cmacKeyCheck => some (s.keyCheck .cmacMessageRangeCheck)
  | .cmacMessageRangeCheck => some (opCheck (inRange s.srcAddr s.length) .cmacLoad)
  | _ => none

/-- The address of an access of `cmac_run` and its kind (rule R86). -/
def cmacAccess (s : State) : Position → Option (Nat × AccessKind)
  | .cmacZero j | .cmacWrite j => some (s.cmacTagAddr j, .write)
  | .cmacRead m => some (s.cmacReadAddr m, .read)
  | _ => none

/-- The states that an event of `cmac_run(TL)` leads to. -/
inductive CmacNext (kind : TagKind) (s : State) (e : Engine) : State → Prop
  | check (p : Position) (h : cmacCheckNext kind s e.pos = some p) : CmacNext kind s e (s.goto e p)
  | finish (c : ResultCode) (h : e.pos = .finish c) : CmacNext kind s e (s.finish c)
  | busError (a : Nat) (k : AccessKind) (h : cmacAccess s e.pos = some (a, k)) (hlt : a < 2 ^ 32)
    (hb : s.busOk a k = false) : CmacNext kind s e (s.goto e (.finish .opErr))
  | zero (j : Fin 16) (h : e.pos = .cmacZero j) (hlt : s.cmacTagAddr j < 2 ^ 32)
    (hb : s.busOk (s.cmacTagAddr j) .write = true) :
    CmacNext kind s e { s.goto e (tagLoop kind j .cmacZero .cmacKeyCheck) with
      mem := Memory.write s.mem (s.cmacTagAddr j) 0 }
  | load (h : e.pos = .cmacLoad) :
    CmacNext kind s e (s.withEngine { e with
      w := keyExpansion s.keyBytes
      l := cmacL (keyExpansion s.keyBytes)
      k1 := cmacK1 (keyExpansion s.keyBytes)
      k2 := cmacK2 (keyExpansion s.keyBytes)
      x := Block.zero
      pos := s.cmacLoopHead 0 })
  | read (m : Nat) (h : e.pos = .cmacRead m) (hlt : s.cmacReadAddr m < 2 ^ 32)
    (hb : s.busOk (s.cmacReadAddr m) .read = true) (b : Block)
    (hblock : b = e.inBlock.set (m % 16) (Memory.read s.mem (s.cmacReadAddr m)) (Nat.mod_lt m (by decide))) :
    CmacNext kind s e (s.withEngine { e with
      inBlock := b
      x := cmacRunning s.length m e.w e.x b
      pos := s.cmacLoopHead (m + 1) })
  | tag (h : e.pos = .cmacTag) :
    CmacNext kind s e (s.withEngine { e with
      outBlock := tagOutput kind
        (cmacChain e.w e.x (cmacLast s.length e.k1 e.k2 (lastBytes s.length e.inBlock)))
      pos := .cmacWrite 0 })
  | write (j : Fin 16) (h : e.pos = .cmacWrite j) (hlt : s.cmacTagAddr j < 2 ^ 32)
    (hb : s.busOk (s.cmacTagAddr j) .write = true) :
    CmacNext kind s e { s.goto e (tagLoop kind j .cmacWrite (.finish .ok)) with
      mem := Memory.write s.mem (s.cmacTagAddr j) e.outBlock[j] }

theorem cmacZeroEvent_cases {kind : TagKind} {s t : State} {e : Engine} {j : Fin 16}
    (hp : e.pos = .cmacZero j) (h : cmacZeroEvent kind s e j = .next t) : CmacNext kind s e t := by
  unfold cmacZeroEvent at h
  split at h
  · next m hb =>
    obtain ⟨h1, h2, rfl⟩ := memWrite_wrote_iff.1 hb
    cases h
    exact .zero j hp h1 h2
  · next hb =>
    obtain ⟨h1, h2⟩ := memWrite_busError_iff.1 hb
    cases h
    exact .busError _ .write (by rw [hp]; rfl) h1 h2
  · cases h

theorem cmacReadEvent_cases {kind : TagKind} {s t : State} {e : Engine} {m : Nat}
    (hp : e.pos = .cmacRead m) (h : cmacReadEvent s e m = .next t) : CmacNext kind s e t := by
  unfold cmacReadEvent at h
  split at h
  · next b hb =>
    obtain ⟨h1, h2, rfl⟩ := memRead_data_iff.1 hb
    cases h
    exact .read m hp h1 h2 _ rfl
  · next hb =>
    obtain ⟨h1, h2⟩ := memRead_busError_iff.1 hb
    cases h
    exact .busError _ .read (by rw [hp]; rfl) h1 h2
  · cases h

theorem cmacWriteEvent_cases {kind : TagKind} {s t : State} {e : Engine} {j : Fin 16}
    (hp : e.pos = .cmacWrite j) (h : cmacWriteEvent kind s e j = .next t) : CmacNext kind s e t := by
  unfold cmacWriteEvent at h
  split at h
  · next m hb =>
    obtain ⟨h1, h2, rfl⟩ := memWrite_wrote_iff.1 hb
    cases h
    exact .write j hp h1 h2
  · next hb =>
    obtain ⟨h1, h2⟩ := memWrite_busError_iff.1 hb
    cases h
    exact .busError _ .write (by rw [hp]; rfl) h1 h2
  · cases h

/-- Everything an event of a CMAC command can do. -/
theorem cmacEvent_cases {kind : TagKind} {s t : State} (h : cmacEvent kind s = .next t) :
    ∃ e, s.phase = .busy e ∧ CmacNext kind s e t := by
  unfold cmacEvent at h
  split at h
  · cases h
  · next e he =>
    refine ⟨e, he, ?_⟩
    split at h <;> try cases h
    · next hp => exact .check _ (by rw [hp]; rfl)
    · next hp => exact .finish _ hp
    · next hp => exact .check _ (by rw [hp]; rfl)
    · next hp => exact cmacZeroEvent_cases hp h
    · next hp => exact .check _ (by rw [hp]; rfl)
    · next hp => exact .check _ (by rw [hp]; rfl)
    · next hp => exact .load hp
    · next hp => exact cmacReadEvent_cases hp h
    · next hp => exact .tag hp
    · next hp => exact cmacWriteEvent_cases hp h

/-! A turn of the core and a step. -/

/-- Everything an event of a reserved command word can do. -/
theorem rejectEvent_cases {s t : State} {e : Engine} (h : rejectEvent s e = .next t) :
    (e.pos = .dispatch ∧ t = s.goto e (.finish .badCmd)) ∨ ∃ c, e.pos = .finish c ∧ t = s.finish c := by
  unfold rejectEvent at h
  split at h <;> try cases h
  · next hp => exact .inl ⟨hp, rfl⟩
  · next hp => exact .inr ⟨_, hp, rfl⟩

/-- Everything a turn of the core can do. -/
theorem coreStep_cases {s t : State} (h : coreStep s = .next t) :
    (s.phase = .idle ∧ t = s) ∨ ∃ e, s.phase = .busy e ∧
      ((∃ i, decode e.cmdword = .ok i ∧ exec i s = .next t) ∨
       (∃ r, decode e.cmdword = .error r ∧ rejectEvent s e = .next t)) := by
  unfold coreStep at h
  split at h
  · next hp => exact .inl ⟨hp, by cases h; rfl⟩
  · next e hp =>
    refine .inr ⟨e, hp, ?_⟩
    split at h
    · next i hi => exact .inl ⟨i, hi, h⟩
    · next r hr => exact .inr ⟨r, hr, h⟩

/-- Everything a step can do: a turn of the core, or a turn of the host. -/
theorem step_cases {s t : State} (h : step s = .next t) :
    (s.inputs = [] ∧ coreStep s = .next t) ∨
    (∃ rest, s.inputs = .core :: rest ∧ coreStep { s with inputs := rest } = .next t) ∨
    (∃ turn rest, turn ≠ .core ∧ s.inputs = turn :: rest ∧ t = hostStep turn { s with inputs := rest }) := by
  unfold step at h
  split at h
  · next hi => exact .inl ⟨hi, h⟩
  · next rest hi => exact .inr (.inl ⟨rest, hi, h⟩)
  · next turn rest hne hi =>
    cases h
    exact .inr (.inr ⟨turn, rest, hne, hi, rfl⟩)

/-- What a step is when the next turn is the core's and its queue is exhausted. -/
theorem step_core {s : State} (h : s.inputs = []) : step s = coreStep s := by
  unfold step
  rw [h]

/-- What a host write does while the core is idle and while it is busy. -/
theorem hostWrite_of_busy {s : State} (h : s.busy = true) (slot : Slot) (v : Word) : s.hostWrite slot v = s := by
  simp [State.hostWrite, h]

theorem hostWrite_of_idle {s : State} (h : s.busy = false) (slot : Slot) (v : Word) :
    s.hostWrite slot v = s.hostWriteIdle slot v := by
  simp [State.hostWrite, h]

/-! The register window in the host's address space. -/

/-- A host address of the window gives its offset back, whatever `CRYPTO_BASE` is. -/
theorem windowOffset_hostAddress (s : State) (off : BitVec 6) : s.windowOffset (s.hostAddress off) = some off := by
  have h : off.toNat < 64 := off.isLt
  simp [State.windowOffset, State.inOwnWindow, State.hostAddress, Config.windowSize, h]

/-- `CRYPTO_BASE` is 64-byte aligned (rule R5), so an access is aligned in the host's space exactly when its offset
is. -/
theorem hostAddress_aligned (s : State) (off : BitVec 6) : s.hostAddress off % 4 = off.toNat % 4 := by
  unfold State.hostAddress State.cryptoBase Config.windowSize
  omega

/-- The offset of a slot reaches that slot. -/
theorem accessedSlot_slotOffset (slot : Slot) : accessedSlot (slotOffset slot) 32 = some slot := by
  cases slot with
  | reserved k => revert k; decide
  | key k => revert k; decide
  | iv k => revert k; decide
  | _ => decide

end Sys2Proof.Laws
end

