-- ==== Sys2Proof/Laws/Interleaving.lean ====
section
/-! SUPPORT. A command under interleaving (rules R11, R40): a quiet turn changes nothing that `exec` reads, so every
interleaving of a command with quiet turns leads where its events alone lead. -/

namespace Sys2Proof.Laws

open Sys2Proof.Machine

theorem exec_cbc (dir : Direction) (s : State) : exec (cbcInstr dir) s = cbcEvent dir s := by cases dir <;> rfl

theorem exec_cmac (kind : TagKind) (s : State) : exec (cmacInstr kind) s = cmacEvent kind s := by
  cases kind <;> rfl

theorem outputLength_cbc (s : State) (dir : Direction) : s.outputLength (cbcInstr dir) = s.length := by
  cases dir <;> rfl

theorem outputLength_cmac (s : State) (kind : TagKind) : s.outputLength (cmacInstr kind) = tagLength kind := by
  cases kind <;> rfl

/-- A command is a CBC command or a CMAC command. -/
theorem instr_cases (i : Instr) : (∃ dir, i = cbcInstr dir) ∨ ∃ kind, i = cmacInstr kind := by
  cases i
  · exact .inl ⟨.enc, rfl⟩
  · exact .inl ⟨.dec, rfl⟩
  · exact .inr ⟨.full, rfl⟩
  · exact .inr ⟨.selected, rfl⟩

/-- `s` with the memory, queue and answers that a host leaves. -/
def withHost (s : State) (m : Memory) (inputs : List Input) (responses : List Response) : State :=
  { s with mem := m, inputs := inputs, responses := responses }

/-- Memories that agree at every address the host does not store to. -/
def AgreeOff (stored : Nat → Prop) (m m' : Memory) : Prop := ∀ a, ¬stored a → Memory.read m' a = Memory.read m a

theorem AgreeOff.write {stored : Nat → Prop} {m m' : Memory} (h : AgreeOff stored m m') (hm : Memory.wf m = true)
    (hm' : Memory.wf m' = true) (a : Nat) (v : Byte) :
    AgreeOff stored (Memory.write m a v) (Memory.write m' a v) := by
  intro b hb
  rw [read_write hm, read_write hm', h b hb]

/-- The position reads inside the input range. -/
def readsInput (s : State) : Position → Prop
  | .cbcRead i _ => i < s.cbcBlocks
  | .cbcCompute i | .cbcWrite i _ => i < s.cbcBlocks
  | .cmacRead m => m < s.length
  | _ => True

theorem cbcReadAddr_inRange {s : State} {i : Nat} (j : Fin 16) (h : i < s.cbcBlocks) (c : Instr) :
    s.inCommandRange c (s.cbcReadAddr i j) := by
  have := j.isLt
  unfold State.cbcBlocks at h
  unfold State.cbcReadAddr
  exact .inl ⟨by omega, by omega⟩

theorem cmacReadAddr_inRange {s : State} {m : Nat} (h : m < s.length) (c : Instr) :
    s.inCommandRange c (s.cmacReadAddr m) := by
  unfold State.cmacReadAddr
  exact .inl ⟨by omega, by omega⟩

@[simp] theorem withHost_phase (s : State) (m : Memory) (l : List Input) (r : List Response) :
    (withHost s m l r).phase = s.phase := rfl

/-- What an event of a command does after a quiet host: the same, to a memory that still agrees. -/
def SameEvent (stored : Nat → Prop) (i : Instr) (s t : State) (e : Engine) : Prop :=
  (∀ e', t.phase = .busy e' → e'.cmdword = e.cmdword ∧ readsInput t e'.pos) ∧ Memory.wf t.mem = true ∧
  ∀ m l r, Memory.wf m = true → AgreeOff stored s.mem m →
    ∃ m', exec i (withHost s m l r) = .next (withHost t m' l r) ∧ Memory.wf m' = true ∧ AgreeOff stored t.mem m'

theorem readsInput_goto {s : State} {e : Engine} {p : Position} (h : readsInput s p) :
    ∀ e', (s.goto e p).phase = .busy e' → e'.cmdword = e.cmdword ∧ readsInput (s.goto e p) e'.pos := by
  rintro e' ⟨⟩
  exact ⟨rfl, h⟩

theorem readsInput_cbcLoopHead (s : State) (i : Nat) : readsInput s (s.cbcLoopHead i) := by
  unfold State.cbcLoopHead
  split
  · assumption
  · trivial

theorem readsInput_cmacLoopHead (s : State) (m : Nat) : readsInput s (s.cmacLoopHead m) := by
  unfold State.cmacLoopHead
  split
  · assumption
  · trivial

theorem readsInput_check {s : State} {p q : Position} (hq : cbcCheckNext s p = some q) : readsInput s q := by
  unfold cbcCheckNext at hq
  split at hq <;> cases hq
  · trivial
  · unfold State.keyCheck; split <;> trivial
  · unfold opCheck; split <;> trivial
  · unfold opCheck; split <;> trivial

theorem cbcEvent_same {dir : Direction} {s t : State} {e : Engine} {stored : Nat → Prop} (he : s.phase = .busy e)
    (hin : readsInput s e.pos) (hw : Memory.wf s.mem = true)
    (hq : ∀ a, stored a → ¬s.inCommandRange (cbcInstr dir) a) (h : cbcEvent dir s = .next t) :
    SameEvent stored (cbcInstr dir) s t e := by
  obtain ⟨e', he', hn⟩ := cbcEvent_cases h
  rw [he] at he'
  cases he'
  unfold SameEvent
  simp only [exec_cbc]
  cases hn with
  | check p hp =>
    refine ⟨readsInput_goto (readsInput_check hp), hw, fun m l r hm ha => ⟨m, ?_, hm, ha⟩⟩
    unfold cbcCheckNext at hp
    split at hp <;> cases hp <;> next hpos => (simp only [cbcEvent, withHost_phase, he, hpos]; rfl)
  | finish c hp =>
    refine ⟨fun e' h => (by cases h), hw, fun m l r hm ha => ⟨m, ?_, hm, ha⟩⟩
    simp only [cbcEvent, withHost_phase, he, hp]
    rfl
  | load hp =>
    refine ⟨fun e' h => by cases h; exact ⟨rfl, readsInput_cbcLoopHead s 0⟩, hw, fun m l r hm ha => ⟨m, ?_, hm, ha⟩⟩
    simp only [cbcEvent, withHost_phase, he, hp]
    rfl
  | busError a k hp hlt hb =>
    refine ⟨readsInput_goto trivial, hw, fun m l r hm ha => ⟨m, ?_, hm, ha⟩⟩
    unfold cbcAccess at hp
    split at hp <;> cases hp
    · next i j hpos =>
      have hr : (withHost s m l r).memRead ((withHost s m l r).cbcReadAddr i j) = .busError :=
        memRead_busError_iff.2 ⟨hlt, hb⟩
      simp only [cbcEvent, withHost_phase, he, hpos, cbcReadEvent, hr]
      rfl
    · next i j hpos =>
      have hr : (withHost s m l r).memWrite ((withHost s m l r).cbcWriteAddr i j) e.outBlock[j] = .busError :=
        memWrite_busError_iff.2 ⟨hlt, hb⟩
      simp only [cbcEvent, withHost_phase, he, hpos, cbcWriteEvent, hr]
      rfl
  | read i j hpos hlt hb =>
    rw [hpos] at hin
    refine ⟨fun e' h => by cases h; refine ⟨rfl, ?_⟩; dsimp only; split <;> exact hin, hw,
      fun m l r hm ha => ⟨m, ?_, hm, ha⟩⟩
    have hr : (withHost s m l r).memRead ((withHost s m l r).cbcReadAddr i j) =
        .data (Memory.read s.mem (s.cbcReadAddr i j)) :=
      memRead_data_iff.2 ⟨hlt, hb, (ha _ fun hs => hq _ hs (cbcReadAddr_inRange j hin _)).symm⟩
    simp only [cbcEvent, withHost_phase, he, hpos, cbcReadEvent, hr]
    rfl
  | compute i hpos =>
    rw [hpos] at hin
    refine ⟨fun e' h => by cases h; exact ⟨rfl, hin⟩, hw, fun m l r hm ha => ⟨m, ?_, hm, ha⟩⟩
    simp only [cbcEvent, withHost_phase, he, hpos]
    rfl
  | write i j hpos hlt hb =>
    rw [hpos] at hin
    refine ⟨fun e' h => by
      cases h; refine ⟨rfl, ?_⟩; dsimp only; split; exacts [readsInput_cbcLoopHead s _, hin],
      wf_write hw hlt _, fun m l r hm ha => ⟨_, ?_, wf_write hm hlt _, ha.write hw hm _ _⟩⟩
    have hr : (withHost s m l r).memWrite ((withHost s m l r).cbcWriteAddr i j) e.outBlock[j] =
        .wrote (Memory.write m (s.cbcWriteAddr i j) e.outBlock[j]) := memWrite_wrote_iff.2 ⟨hlt, hb, rfl⟩
    simp only [cbcEvent, withHost_phase, he, hpos, cbcWriteEvent, hr]
    rfl

theorem readsInput_cmacCheck {kind : TagKind} {s : State} {p q : Position} (hq : cmacCheckNext kind s p = some q) :
    readsInput s q := by
  unfold cmacCheckNext at hq
  split at hq <;> cases hq
  · trivial
  · unfold opCheck; split <;> trivial
  · unfold State.keyCheck; split <;> trivial
  · unfold opCheck; split <;> trivial

theorem readsInput_tagLoop {kind : TagKind} {s : State} {j : Fin 16} {again : Fin 16 → Position} {after : Position}
    (h : ∀ k, readsInput s (again k)) (h' : readsInput s after) : readsInput s (tagLoop kind j again after) := by
  unfold tagLoop
  split
  exacts [h _, h']

theorem cmacEvent_same {kind : TagKind} {s t : State} {e : Engine} {stored : Nat → Prop} (he : s.phase = .busy e)
    (hin : readsInput s e.pos) (hw : Memory.wf s.mem = true)
    (hq : ∀ a, stored a → ¬s.inCommandRange (cmacInstr kind) a) (h : cmacEvent kind s = .next t) :
    SameEvent stored (cmacInstr kind) s t e := by
  obtain ⟨e', he', hn⟩ := cmacEvent_cases h
  rw [he] at he'
  cases he'
  unfold SameEvent
  simp only [exec_cmac]
  cases hn with
  | check p hp =>
    refine ⟨readsInput_goto (readsInput_cmacCheck hp), hw, fun m l r hm ha => ⟨m, ?_, hm, ha⟩⟩
    unfold cmacCheckNext at hp
    split at hp <;> cases hp <;> next hpos => (simp only [cmacEvent, withHost_phase, he, hpos]; rfl)
  | finish c hp =>
    refine ⟨fun e' h => (by cases h), hw, fun m l r hm ha => ⟨m, ?_, hm, ha⟩⟩
    simp only [cmacEvent, withHost_phase, he, hp]
    rfl
  | load hp =>
    refine ⟨fun e' h => by cases h; exact ⟨rfl, readsInput_cmacLoopHead s 0⟩, hw, fun m l r hm ha => ⟨m, ?_, hm, ha⟩⟩
    simp only [cmacEvent, withHost_phase, he, hp]
    rfl
  | busError a k hp hlt hb =>
    refine ⟨readsInput_goto trivial, hw, fun m l r hm ha => ⟨m, ?_, hm, ha⟩⟩
    unfold cmacAccess at hp
    split at hp <;> cases hp
    · next j hpos =>
      have hr : (withHost s m l r).memWrite ((withHost s m l r).cmacTagAddr j) 0 = .busError :=
        memWrite_busError_iff.2 ⟨hlt, hb⟩
      simp only [cmacEvent, withHost_phase, he, hpos, cmacZeroEvent, hr]
      rfl
    · next j hpos =>
      have hr : (withHost s m l r).memWrite ((withHost s m l r).cmacTagAddr j) e.outBlock[j] = .busError :=
        memWrite_busError_iff.2 ⟨hlt, hb⟩
      simp only [cmacEvent, withHost_phase, he, hpos, cmacWriteEvent, hr]
      rfl
    · next i hpos =>
      have hr : (withHost s m l r).memRead ((withHost s m l r).cmacReadAddr i) = .busError :=
        memRead_busError_iff.2 ⟨hlt, hb⟩
      simp only [cmacEvent, withHost_phase, he, hpos, cmacReadEvent, hr]
      rfl
  | zero j hpos hlt hb =>
    refine ⟨fun e' h => by cases h; exact ⟨rfl, readsInput_tagLoop (fun _ => trivial) trivial⟩,
      wf_write hw hlt _, fun m l r hm ha => ⟨_, ?_, wf_write hm hlt _, ha.write hw hm _ _⟩⟩
    have hr : (withHost s m l r).memWrite ((withHost s m l r).cmacTagAddr j) 0 =
        .wrote (Memory.write m (s.cmacTagAddr j) 0) := memWrite_wrote_iff.2 ⟨hlt, hb, rfl⟩
    simp only [cmacEvent, withHost_phase, he, hpos, cmacZeroEvent, hr]
    rfl
  | read i hpos hlt hb b hblock =>
    rw [hpos] at hin
    refine ⟨fun e' h => by cases h; exact ⟨rfl, readsInput_cmacLoopHead s _⟩, hw,
      fun m l r hm ha => ⟨m, ?_, hm, ha⟩⟩
    have hr : (withHost s m l r).memRead ((withHost s m l r).cmacReadAddr i) =
        .data (Memory.read s.mem (s.cmacReadAddr i)) :=
      memRead_data_iff.2 ⟨hlt, hb, (ha _ fun hs => hq _ hs (cmacReadAddr_inRange hin _)).symm⟩
    simp only [cmacEvent, withHost_phase, he, hpos, cmacReadEvent, hr, hblock]
    rfl
  | tag hpos =>
    refine ⟨fun e' h => by cases h; exact ⟨rfl, trivial⟩, hw, fun m l r hm ha => ⟨m, ?_, hm, ha⟩⟩
    simp only [cmacEvent, withHost_phase, he, hpos]
    rfl
  | write j hpos hlt hb =>
    refine ⟨fun e' h => by cases h; exact ⟨rfl, readsInput_tagLoop (fun _ => trivial) trivial⟩,
      wf_write hw hlt _, fun m l r hm ha => ⟨_, ?_, wf_write hm hlt _, ha.write hw hm _ _⟩⟩
    have hr : (withHost s m l r).memWrite ((withHost s m l r).cmacTagAddr j) e.outBlock[j] =
        .wrote (Memory.write m (s.cmacTagAddr j) e.outBlock[j]) := memWrite_wrote_iff.2 ⟨hlt, hb, rfl⟩
    simp only [cmacEvent, withHost_phase, he, hpos, cmacWriteEvent, hr]
    rfl

/-- An event does the same from every state that differs only in what a quiet host changes. -/
theorem exec_same {i : Instr} {s t : State} {e : Engine} {stored : Nat → Prop} (he : s.phase = .busy e)
    (hin : readsInput s e.pos) (hw : Memory.wf s.mem = true) (hq : ∀ a, stored a → ¬s.inCommandRange i a)
    (h : exec i s = .next t) : SameEvent stored i s t e := by
  obtain ⟨dir, rfl⟩ | ⟨kind, rfl⟩ := instr_cases i
  · rw [exec_cbc] at h
    exact cbcEvent_same he hin hw hq h
  · rw [exec_cmac] at h
    exact cmacEvent_same he hin hw hq h

/-- A command runs only while the core is busy. -/
theorem exec_busy {i : Instr} {s t : State} (h : exec i s = .next t) : ∃ e, s.phase = .busy e := by
  obtain ⟨dir, rfl⟩ | ⟨kind, rfl⟩ := instr_cases i
  · rw [exec_cbc] at h
    obtain ⟨e, he, -⟩ := cbcEvent_cases h
    exact ⟨e, he⟩
  · rw [exec_cmac] at h
    obtain ⟨e, he, -⟩ := cmacEvent_cases h
    exact ⟨e, he⟩

/-- No event of a command changes the registers that give its ranges. -/
theorem exec_inCommandRange {i : Instr} {s t : State} (h : exec i s = .next t) (c : Instr) (a : Nat) :
    t.inCommandRange c a ↔ s.inCommandRange c a := by
  obtain ⟨dir, rfl⟩ | ⟨kind, rfl⟩ := instr_cases i
  · rw [exec_cbc] at h
    obtain ⟨e, -, hn⟩ := cbcEvent_cases h
    cases c <;> cases hn <;> exact Iff.rfl
  · rw [exec_cmac] at h
    obtain ⟨e, -, hn⟩ := cmacEvent_cases h
    cases c <;> cases hn <;> exact Iff.rfl

/-- A turn of the host that is no reset, while the core is busy, changes nothing but memory at the byte it stores
to, the queue and the answers. -/
theorem hostStep_quiet {s : State} {e : Engine} (he : s.phase = .busy e) {turn : Input} (hr : turn ≠ .reset) :
    ∃ m l r, hostStep turn s = withHost s m l r ∧ (Memory.wf s.mem = true → Memory.wf m = true) ∧
      (∀ a, storesTo turn a = false → Memory.read m a = Memory.read s.mem a) ∧
      (l = s.inputs ∨ turn = .poll ∧ l = .core :: .poll :: s.inputs) := by
  have hb : s.busy = true := (busy_iff s).2 ⟨e, he⟩
  unfold hostStep
  split
  · exact ⟨s.mem, s.inputs, s.responses, rfl, id, fun _ _ => rfl, .inl rfl⟩
  · split <;> exact ⟨s.mem, s.inputs, _, rfl, id, fun _ _ => rfl, .inl rfl⟩
  · simp only [hostWrite_of_busy hb]
    split <;> exact ⟨s.mem, s.inputs, _, rfl, id, fun _ _ => rfl, .inl rfl⟩
  · exact ⟨s.mem, s.inputs, _, rfl, id, fun _ _ => rfl, .inl rfl⟩
  · next a b =>
    refine ⟨_, s.inputs, s.responses, rfl, fun hw => wf_write hw a.isLt b, fun c hc => ?_, .inl rfl⟩
    refine read_write_other _ _ fun hca => ?_
    simp [storesTo, hca] at hc
  · exact absurd rfl hr
  · dsimp only
    rw [if_pos hb]
    exact ⟨s.mem, _, _, rfl, id, fun _ _ => rfl, .inr ⟨rfl, rfl⟩⟩

/-! Runs. -/

theorem run_succ {s u : State} (h : step s = .next u) (n : Nat) :
    Host.Core.run Sys2Proof.core (n + 1) s = Host.Core.run Sys2Proof.core n u := by
  have h' : Sys2Proof.core.step s = .next u := h
  simp only [Host.Core.run, h']

theorem run_add {a : Nat} {s u : State} (h : Host.Core.run Sys2Proof.core a s = .next u) (b : Nat) :
    Host.Core.run Sys2Proof.core (a + b) s = Host.Core.run Sys2Proof.core b u := by
  induction a generalizing s with
  | zero =>
    cases h
    rw [Nat.zero_add]
  | succ a ih =>
    rw [Nat.succ_add]
    cases hs : Sys2Proof.core.step s with
    | next v =>
      rw [run_succ hs] at h ⊢
      exact ih h
    | fault r =>
      simp only [Host.Core.run, hs] at h
      cases h
    | refused r =>
      simp only [Host.Core.run, hs] at h
      cases h

/-- The machine is busy for the first `n` states of its run. -/
def BusyBefore (n : Nat) (s : State) : Prop :=
  ∀ m, m < n → ∃ v, Host.Core.run Sys2Proof.core m s = .next v ∧ v.busy = true

theorem BusyBefore.zero (s : State) : BusyBefore 0 s := fun m h => absurd h (Nat.not_lt_zero m)

theorem BusyBefore.add {a b : Nat} {s u : State} (h : BusyBefore a s)
    (hr : Host.Core.run Sys2Proof.core a s = .next u) (hu : BusyBefore b u) : BusyBefore (a + b) s := by
  intro m hm
  by_cases hma : m < a
  · exact h m hma
  · obtain ⟨c, rfl⟩ := Nat.exists_eq_add_of_le (Nat.le_of_not_lt hma)
    rw [run_add hr]
    exact hu c (by omega)

theorem BusyBefore.one {s : State} (h : s.busy = true) : BusyBefore 1 s := by
  intro m hm
  obtain rfl : m = 0 := by omega
  exact ⟨s, rfl, h⟩

/-- Turns that do not reset, and store only where `stored` says. -/
def StoresIn (stored : Nat → Prop) (l : List Input) : Prop :=
  ∀ turn ∈ l, turn ≠ .reset ∧ ∀ a, storesTo turn a = true → stored a

/-- The first event of a busy core after any quiet turns is the event of its command. -/
theorem run_to_event {i : Instr} {s t : State} {e : Engine} {stored : Nat → Prop} (he : s.phase = .busy e)
    (hd : decode e.cmdword = .ok i) (hs : SameEvent stored i s t e) (l : List Input) :
    ∀ m r, Memory.wf m = true → AgreeOff stored s.mem m → StoresIn stored l →
    ∃ n m' l' r', Host.Core.run Sys2Proof.core n (withHost s m l r) = .next (withHost t m' l' r') ∧
      BusyBefore n (withHost s m l r) ∧ Memory.wf m' = true ∧ AgreeOff stored t.mem m' ∧ StoresIn stored l' := by
  have event : ∀ m l r, Memory.wf m = true → AgreeOff stored s.mem m →
      ∃ m', coreStep (withHost s m l r) = .next (withHost t m' l r) ∧ Memory.wf m' = true ∧
        AgreeOff stored t.mem m' := by
    intro m l r hm ha
    obtain ⟨m', h1, h2⟩ := hs.2.2 m l r hm ha
    refine ⟨m', ?_, h2⟩
    simp only [coreStep, withHost_phase, he, hd, h1]
  have busy : ∀ m l r, (withHost s m l r).busy = true := fun m l r => (busy_iff _).2 ⟨e, he⟩
  have core : ∀ m l r, Memory.wf m = true → AgreeOff stored s.mem m →
      ∃ m', step (withHost s m (.core :: l) r) = .next (withHost t m' l r) ∧ Memory.wf m' = true ∧
        AgreeOff stored t.mem m' := fun m l r hm ha => event m l r hm ha
  induction l with
  | nil =>
    intro m r hm ha hl
    obtain ⟨m', h1, h2, h3⟩ := event m [] r hm ha
    exact ⟨1, m', [], r, run_succ (u := withHost t m' [] r) (s := withHost s m [] r) h1 0, .one (busy ..), h2, h3, hl⟩
  | cons turn rest ih =>
    intro m r hm ha hl
    obtain ⟨hne, hst⟩ := hl turn (List.mem_cons_self ..)
    have hrest : StoresIn stored rest := fun x hx => hl x (List.mem_cons_of_mem _ hx)
    by_cases hc : turn = .core
    · subst hc
      obtain ⟨m', h1, h2, h3⟩ := core m rest r hm ha
      exact ⟨1, m', rest, r, run_succ h1 0, .one (busy ..), h2, h3, hrest⟩
    · obtain ⟨m1, l1, r1, h1, h2, h3, h4⟩ := hostStep_quiet (s := withHost s m rest r) he hne
      have hstep : step (withHost s m (turn :: rest) r) = .next (withHost s m1 l1 r1) := by
        have : step (withHost s m (turn :: rest) r) = .next (hostStep turn (withHost s m rest r)) := by
          unfold step
          split
          · next h => cases h
          · next h => cases h; exact absurd rfl hc
          · next h => cases h; rfl
        rw [this, h1]
        rfl
      have ha1 : AgreeOff stored s.mem m1 := by
        intro a hna
        rw [h3 a (by
          cases hsa : storesTo turn a
          · rfl
          · exact absurd (hst a hsa) hna)]
        exact ha a hna
      rcases h4 with rfl | ⟨rfl, rfl⟩
      · obtain ⟨n, m', l', r', g1, g2, g⟩ := ih m1 r1 (h2 hm) ha1 hrest
        refine ⟨1 + n, m', l', r', ?_, ?_, g⟩
        · rw [run_add (run_succ hstep 0)]
          exact g1
        · exact (BusyBefore.one (busy ..)).add (run_succ hstep 0) g2
      · obtain ⟨m', g1, g2, g3⟩ := core m1 (.poll :: rest) r1 (h2 hm) ha1
        refine ⟨1 + 1, m', .poll :: rest, r1, ?_, ?_, g2, g3, hl⟩
        · rw [run_add (run_succ hstep 0)]
          exact run_succ g1 0
        · exact (BusyBefore.one (busy ..)).add (run_succ hstep 0) (.one (busy ..))

/-- Events of a command, with quiet turns anywhere between them. -/
theorem execTimes_same {i : Instr} {stored : Nat → Prop} (k : Nat) :
    ∀ {s t : State} {e : Engine}, s.phase = .busy e → decode e.cmdword = .ok i → readsInput s e.pos →
    Memory.wf s.mem = true → (∀ a, stored a → ¬s.inCommandRange i a) → execTimes i k s = .next t →
    ∀ m l r, Memory.wf m = true → AgreeOff stored s.mem m → StoresIn stored l →
    ∃ n m' l' r', Host.Core.run Sys2Proof.core n (withHost s m l r) = .next (withHost t m' l' r') ∧
      BusyBefore n (withHost s m l r) ∧ AgreeOff stored t.mem m' := by
  induction k with
  | zero =>
    intro s t e _ _ _ _ _ h m l r _ ha _
    cases h
    exact ⟨0, m, l, r, rfl, .zero _, ha⟩
  | succ k ih =>
    intro s t e he hd hin hw hq h m l r hm ha hl
    have hx : ∃ u, exec i s = .next u ∧ execTimes i k u = .next t := by
      unfold execTimes at h
      split at h
      · next u hu => exact ⟨u, hu, h⟩
      · cases h
      · cases h
    obtain ⟨u, hu, hk⟩ := hx
    have hs := exec_same he hin hw hq hu
    obtain ⟨n, m', l', r', g1, g2, g3, g4, g5⟩ := run_to_event he hd hs l m r hm ha hl
    cases k with
    | zero =>
      cases hk
      exact ⟨n, m', l', r', g1, g2, g4⟩
    | succ k =>
      have hb : ∃ e', u.phase = .busy e' := by
        unfold execTimes at hk
        split at hk
        · next hv => exact exec_busy hv
        · cases hk
        · cases hk
      obtain ⟨e', he'⟩ := hb
      obtain ⟨hcmd, hin'⟩ := hs.1 e' he'
      have hq' : ∀ a, stored a → ¬u.inCommandRange i a := fun a hsa hr =>
        hq a hsa ((exec_inCommandRange hu i a).1 hr)
      obtain ⟨n2, m2, l2, r2, f1, f2, f3⟩ := ih he' (hcmd ▸ hd) hin' hs.2.1 hq' hk m' l' r' g3 g4 g5
      refine ⟨n + n2, m2, l2, r2, ?_, g2.add g1 f2, f3⟩
      rw [run_add g1]
      exact f1

theorem decode_encode (i : Instr) : decode (encode i) = .ok i := by cases i <;> decide

/-- Rule R11: a command just accepted leads, under every interleaving with quiet turns, where its events lead. -/
theorem interleaved_of_execTimes {i : Instr} {k : Nat} {s t : State} (ha : s.accepted i)
    (hw : Memory.wf s.mem = true) (h : execTimes i k s = .next t) : s.interleaved i t := by
  intro turns hq
  obtain ⟨n, m', l', r', h1, h2, h3⟩ := execTimes_same (stored := fun a => ∃ turn ∈ turns, storesTo turn a = true)
    k ha (decode_encode i) trivial hw
    (fun a ⟨turn, hmem, hs⟩ => (hq turn hmem).2 a hs) h s.mem turns s.responses hw (fun _ _ => rfl)
    (fun turn hmem => ⟨(hq turn hmem).1, fun a hs => ⟨turn, hmem, hs⟩⟩)
  refine ⟨n, _, h1, h2, rfl, fun a hna => h3 a ?_⟩
  rintro ⟨turn, hmem, hs⟩
  rw [hna turn hmem] at hs
  cases hs

/-- `State.leadsTo` of a command just accepted is what its events alone do. -/
theorem leadsTo_iff {i : Instr} {n : Nat} {s t : State} (ha : s.accepted i) :
    s.leadsTo i n t ↔ execTimes i n s = .next t :=
  ⟨And.left, fun h => ⟨h, fun hw => interleaved_of_execTimes ha hw h⟩⟩

end Sys2Proof.Laws
end

