-- ==== Sys2Proof/Laws/PerInstr.lean ====
section
/-! SUPPORT. The statements made for every instruction, one lemma per constructor. -/

namespace Sys2Proof.Laws

/-- The encoding of a command is a legal command word (rule R46) and stands in its low four bits (rule R47). -/
def EncodesLegalWord.Statement (i : Instr) : Prop :=
  (commandFields (encode i)).wf = true ∧ encode i = (opOf i).setWidth 32

theorem EncodesLegalWord.cbcEnc : EncodesLegalWord.Statement .cbcEnc := by
  unfold EncodesLegalWord.Statement
  decide

theorem EncodesLegalWord.cbcDec : EncodesLegalWord.Statement .cbcDec := by
  unfold EncodesLegalWord.Statement
  decide

theorem EncodesLegalWord.cmac128 : EncodesLegalWord.Statement .cmac128 := by
  unfold EncodesLegalWord.Statement
  decide

theorem EncodesLegalWord.cmac64 : EncodesLegalWord.Statement .cmac64 := by
  unfold EncodesLegalWord.Statement
  decide

end Sys2Proof.Laws
end

