-- ==== Sys2Proof/Tests/Slice0.lean ====
section
/-! SUPPORT. The model's own tests, with the vectors of spec/95_test_vectors.md, and for every statement with
hypotheses a concrete state and operands that meet them. -/

namespace Sys2Proof.Tests

open Sys2Proof.Machine

/-! Well-formedness: for each check an ill-formed term, which it refuses. -/

theorem test_wf_reserved_bits : CommandWord.wf { op := 1, rsvd := 1 } = false := by decide
theorem test_wf_op_zero : CommandWord.wf { op := 0, rsvd := 0 } = false := by decide
theorem test_wf_op_five : CommandWord.wf { op := 5, rsvd := 0 } = false := by decide
theorem test_wf_legal : CommandWord.wf { op := 4, rsvd := 0 } = true := by decide
theorem test_wf_wr_reserved_slot : HostLine.wf (.wr (.reserved 0) 0) = false := by decide
theorem test_wf_rd_reserved_slot : HostLine.wf (.rd (.reserved 2) "x") = false := by decide
theorem test_wf_mem_beyond : HostLine.wf (.mem 0xFFFFFFFF [1, 2]) = false := by decide
theorem test_wf_mem_at_top : HostLine.wf (.mem 0xFFFFFFFF [1]) = true := by decide

/-! Decoding: the words of rule R47, bit by bit, and V-CMD-1 to V-CMD-3. -/

theorem test_decode_cbc_enc : decode 0b0000000000000000000000000000_0001 = .ok .cbcEnc := by decide
theorem test_decode_cbc_dec : decode 0b0000000000000000000000000000_0010 = .ok .cbcDec := by decide
theorem test_decode_cmac128 : decode 0b0000000000000000000000000000_0011 = .ok .cmac128 := by decide
theorem test_decode_cmac64 : decode 0b0000000000000000000000000000_0100 = .ok .cmac64 := by decide
theorem test_decode_reserved_op : decode 0b0000000000000000000000000000_0101 = .error .reservedOp := by decide
theorem test_decode_zero : decode 0 = .error .reservedOp := by decide
theorem test_decode_reserved_bit : decode 0b0000000000000000000000000001_0001 = .error .reservedBits := by decide
theorem test_decodeTableWord : decodeTableWord 32 3 = some .cmac128 ∧ decodeTableWord 32 0x11 = none := by decide

/-- The accepted command is the one the next step runs, as the first after reset. -/
theorem test_withFetchWord (i : Instr) :
    step (State.reset.withFetchWord 32 (encode i).toNat) = exec i (State.reset.withFetchWord 32 (encode i).toNat) := by
  cases i <;> rfl

/-! The datapath: KAT-1, KAT-2, KAT-4, V-DP-1, V-DP-3, the example of rule R66, V-DP-6, V-DP-7, rule R85. -/

theorem test_kat1 : aesEnc (bytes128 0x000102030405060708090a0b0c0d0e0f)
    (bytes128 0x00112233445566778899aabbccddeeff) = bytes128 0x69c4e0d86a7b0430d8cdb78070b4c55a := by decide +kernel
theorem test_kat2 : aesDec (bytes128 0x000102030405060708090a0b0c0d0e0f)
    (bytes128 0x69c4e0d86a7b0430d8cdb78070b4c55a) = bytes128 0x00112233445566778899aabbccddeeff := by decide +kernel
theorem test_kat4 : (keyExpansion (bytes128 0x2b7e151628aed2a6abf7158809cf4f3c))[4] = 0xa0fafe17 ∧
    (keyExpansion (bytes128 0x2b7e151628aed2a6abf7158809cf4f3c))[43] = 0xb6630ca6 := by decide +kernel
theorem test_sbox : sbox 0x53 = 0xED ∧ sbox 0xFF = 0x16 ∧ sboxInv 0xED = 0x53 ∧ sboxInv 0x00 = 0x52 := by
  decide +kernel
theorem test_mixColumn : (List.map (mixColumn 0xdb 0x13 0x53 0x45) [0, 1, 2, 3]) = [0x8e, 0x4d, 0xa1, 0xbc] ∧
    (List.map (invMixColumn 0x8e 0x4d 0xa1 0xbc) [0, 1, 2, 3]) = [0xdb, 0x13, 0x53, 0x45] := by decide +kernel
theorem test_shiftRows : shiftRows (bytes128 0x000102030405060708090a0b0c0d0e0f) =
    bytes128 0x00050a0f04090e03080d02070c01060b := by decide +kernel
theorem test_dbl : dbl (bytes128 1) = bytes128 2 ∧ dbl (bytes128 0x80000000000000000000000000000000) =
    bytes128 0x87 := by decide +kernel
theorem test_trunc64 : (trunc64 (bytes128 0x070a16b46b4d4144f79bdd9dd04a287c)).toList =
    [0x0a, 0xb4, 0x4d, 0x44, 0x9b, 0x9d, 0x4a, 0x7c] := by decide +kernel

/-! Commands: one event each. -/

/-- The key of the vectors, `K0`. -/
def k0 : Vector Word 4 := #v[0x2b7e1516, 0x28aed2a6, 0xabf71588, 0x09cf4f3c]

/-- The first block of `P64`. -/
def p0 : Block := bytes128 0x6bc1bee22e409f96e93d7e117393172a

/-- A command at a position: 16 bytes at 0x1000 to 0x2000, the key written. -/
def running (i : Instr) (pos : Position) : State :=
  { State.reset with
    src := 0x1000, dst := 0x2000, len := 16, key := k0, keyw := 0b1111
    phase := .busy { Engine.start (encode i) with pos := pos } }

/-- The output block of the internal state after a step. -/
def outBlockOf (o : Host.Outcome State Fault Refusal) : Option Block :=
  match o with
  | .next t =>
    match t.phase with
    | .busy e => some e.outBlock
    | .idle => none
  | _ => none

/-- The state after a step. -/
def nextOf (o : Host.Outcome State Fault Refusal) : Option State :=
  match o with
  | .next t => some t
  | _ => none

/-- A command about to compute: key schedule and subkeys taken, the block read. -/
def computing (i : Instr) (pos : Position) (cv b : Block) : State :=
  let w := keyExpansion (blockOfWords k0)
  { running i pos with
    phase := .busy { Engine.start (encode i) with
      pos := pos, w := w, cv := cv, k1 := cmacK1 w, k2 := cmacK2 w, inBlock := b } }

/-- KAT-5, first block. -/
theorem test_cbcEnc_compute :
    outBlockOf (exec .cbcEnc (computing .cbcEnc (.cbcCompute 0) (bytes128 0x000102030405060708090a0b0c0d0e0f) p0)) =
      some (bytes128 0x7649abac8119b246cee98e9b12e9197d) := by decide +kernel

/-- KAT-6, first block. -/
theorem test_cbcDec_compute :
    outBlockOf (exec .cbcDec (computing .cbcDec (.cbcCompute 0) (bytes128 0x000102030405060708090a0b0c0d0e0f)
      (bytes128 0x7649abac8119b246cee98e9b12e9197d))) = some p0 := by decide +kernel

/-- V-CMAC-4. -/
theorem test_cmac128_tag : outBlockOf (exec .cmac128 (computing .cmac128 .cmacTag Block.zero p0)) =
    some (bytes128 0x070a16b46b4d4144f79bdd9dd04a287c) := by decide +kernel

/-- V-CMAC-9, `LEN = 16`. -/
theorem test_cmac64_tag : outBlockOf (exec .cmac64 (computing .cmac64 .cmacTag Block.zero p0)) =
    some (bytes128 0x0ab44d449b9d4a7c0000000000000000) := by decide +kernel

/-- V-CBC-11: the key check comes before the length check. -/
theorem test_cbcEnc_keyErr : (nextOf (exec .cbcEnc { running .cbcEnc .cbcKeyCheck with keyw := 0, len := 5 })).map
    (·.phase) = some (running .cbcEnc (.finish .keyErr)).phase := by decide

/-- V-CBC-14: the source range wraps. -/
theorem test_cbcDec_range : (nextOf (exec .cbcDec { running .cbcDec .cbcRangeCheck with src := 0xFFFFFFF1 })).map
    (·.phase) = some (running .cbcDec (.finish .opErr)).phase := by decide

/-- V-CMAC-17: the tag range may end at the top of memory. -/
theorem test_cmac64_top : (nextOf (exec .cmac64 { running .cmac64 .cmacTagRangeCheck with dst := 0xFFFFFFF8 })).map
    (·.phase) = some (running .cmac64 (.cmacZero 0)).phase := by decide

/-- V-CMAC-15: the tag range wraps. -/
theorem test_cmac128_wraps : (nextOf (exec .cmac128 { running .cmac128 .cmacTagRangeCheck with dst := 0xFFFFFFFC })).map
    (·.phase) = some (running .cmac128 (.finish .opErr)).phase := by decide

/-! The register window: the `STATUS` values of spec/95_test_vectors.md, V-CMD-5 to V-CMD-8. -/

theorem test_status_running : (running .cbcEnc .dispatch).status = 0x00000F01 := by decide
theorem test_status_keyErr : (State.reset.finish .keyErr).status = 0x00000012 := by decide
theorem test_status_key0 : (State.reset.hostWrite (.key 0) 0x2B7E1516).status = 0x00000100 := by decide
theorem test_reserved_slot : State.reset.hostWrite (.reserved 0) 0xFFFFFFFF = State.reset := by decide
theorem test_byte_access : hostStep (.regWrite 0x10 8 5) State.reset = State.reset.respond .busError := by decide
theorem test_key_bytes : (State.keyBytes { State.reset with key := k0 }) =
    bytes128 0x2b7e151628aed2a6abf7158809cf4f3c := by decide +kernel
theorem test_key_line : lineInputs (.key 0x2b7e151628aed2a6abf7158809cf4f3c) =
    [.regWrite 0x20 32 0x2B7E1516, .regWrite 0x24 32 0x28AED2A6, .regWrite 0x28 32 0xABF71588,
     .regWrite 0x2C 32 0x09CF4F3C] := by decide
theorem test_run_line : lineInputs (.run .cmac64) = [.regWrite 0x00 32 4, .poll] := by decide

/-! Witnesses: the hypotheses of each statement, met. -/

theorem witness_EachCommandHasExactlyOneWord : ∀ i, (0 : Word) ≠ encode i := by
  intro i
  cases i <;> decide

theorem witness_StepRunsTheDecodedCommand :
    (running .cmac64 .dispatch).inputs = [] ∧ { running .cmac64 .dispatch with inputs := [.core] }.inputs = [.core] ∧
    ∃ e, (running .cmac64 .dispatch).phase = .busy e ∧ decode e.cmdword = .ok .cmac64 :=
  ⟨rfl, rfl, _, rfl, by decide⟩

theorem witness_IdleCoreTakesNoStep : State.reset.phase = .idle ∧ State.reset.inputs = [] ∧
    { State.reset with inputs := [.core] }.phase = .idle ∧
    { State.reset with inputs := [.core] }.inputs = .core :: [] := ⟨rfl, rfl, rfl, rfl⟩

theorem witness_HostLoadSeesTheLastStore :
    Memory.wf { State.reset with inputs := [.memStore 0xFFFFFFFF 7, .memLoad 0xFFFFFFFF] }.mem = true := rfl

theorem witness_RegisterWindowIsAsTabled : State.reset.busy = false ∧ accessedSlot 0x2C 32 = some (.key 3) ∧
    { State.reset with inputs := [.regWrite 0x2C 32 7] }.busy = false ∧
    { State.reset with inputs := [.regRead 0x2C 32] }.busy = false := by decide

theorem witness_WritesWhileBusyAreIgnored :
    { running .cbcEnc (.cbcRead 0 3) with inputs := [.regWrite 0x10 32 16] }.busy = true ∧
    accessedSlot 0x10 32 = some .len ∧
    { running .cbcEnc (.cbcRead 0 3) with inputs := [.regRead 0x10 32] }.busy = true := by decide

theorem witness_MalformedAccessIsABusError :
    ((8 : Nat) ≠ 32 ∨ (0x10 : BitVec 6).toNat % 4 ≠ 0) ∧ ((32 : Nat) ≠ 32 ∨ (0x3F : BitVec 6).toNat % 4 ≠ 0) ∧
    { State.reset with inputs := [.regWrite 0x10 8 1] }.inputs = [.regWrite 0x10 8 1] ∧
    { State.reset with inputs := [.regRead 0x3F 32] }.inputs = [.regRead 0x3F 32] := by decide

theorem witness_WritingCmdAcceptsACommand :
    { State.reset with inputs := [.regWrite 0x00 32 1] }.busy = false ∧
    { running .cbcEnc .dispatch with inputs := [.regWrite 0x00 32 1] }.busy = true := by decide

theorem witness_BusyIsWrittenByAcceptanceFinishReset :
    (nextOf (step { State.reset with inputs := [.regWrite 0x00 32 1] })).map (·.busy) = some true ∧
    (nextOf (step { running .cbcEnc .dispatch with inputs := [.reset] })).map (·.busy) = some false ∧
    (nextOf (step (running .cbcEnc (.finish .ok)))).map (·.busy) = some false := by decide

theorem witness_KeywIsWrittenByKeyWritesFinishReset :
    (nextOf (step { State.reset with inputs := [.regWrite 0x2C 32 0] })).map (·.keyw) = some 0b1000 ∧
    (nextOf (step { running .cbcEnc .dispatch with inputs := [.reset] })).map (·.keyw) = some 0 ∧
    (nextOf (step (running .cbcEnc (.finish .ok)))).map (·.keyw) = some 0 := by decide

theorem witness_DoneAndResultAreWrittenByAcceptanceFinishReset :
    (nextOf (step { State.reset.finish .opErr with inputs := [.regWrite 0x00 32 1] })).map (·.result) = some 0 ∧
    (nextOf (step { State.reset.finish .opErr with inputs := [.reset] })).map (·.result) = some 0 ∧
    (nextOf (step (running .cbcEnc (.finish .opErr)))).map (·.result) = some 2 := by decide

theorem witness_BusOkNeverChanges : step State.reset = .next State.reset ∧ (0xFFFFFFFF : Nat) < 2 ^ 32 ∧
    State.reset.busOk 0xFFFFFFFF .read = true ∧ State.reset.cryptoBase ≤ 0x5000003F ∧
    0x5000003F < State.reset.cryptoBase + 64 ∧ State.reset.busOk 0x50000040 .write = true :=
  ⟨rfl, by decide, by decide, by decide, by decide, by decide⟩

/-- Rule R31: a command whose source is the core's own window ends with `OP_ERR`. -/
theorem test_own_window : (nextOf (exec .cbcEnc { running .cbcEnc (.cbcRead 0 0) with src := 0x50000000 })).map
    (·.phase) = some (running .cbcEnc (.finish .opErr)).phase := by decide

theorem witness_ResetClearsEverySlotAndNoMemory :
    { running .cbcEnc (.cbcWrite 0 3) with inputs := [.reset] }.inputs = .reset :: [] := rfl

theorem witness_KeyAndIvLinesWriteTheDigits : State.reset.phase = .idle := rfl

theorem witness_DispatchStartsTheSequence : ∃ e, (running .cmac64 .dispatch).phase = .busy e ∧ e.pos = .dispatch :=
  ⟨_, rfl, rfl⟩

theorem witness_DispatchStartsTheSequence_reserved : ∃ e r, (State.reset.accept 5).phase = .busy e ∧
    e.pos = .dispatch ∧ decode e.cmdword = .error r := ⟨_, .reservedOp, rfl, rfl, by decide⟩

theorem witness_KeyCheckNeedsAllFourKeySlots :
    (∃ e, (running .cbcEnc .cbcKeyCheck).phase = .busy e ∧ e.pos = .cbcKeyCheck) ∧
    ∃ e, (running .cmac128 .cmacKeyCheck).phase = .busy e ∧ e.pos = .cmacKeyCheck := ⟨⟨_, rfl, rfl⟩, _, rfl, rfl⟩

theorem witness_FinishRecordsAndZeroizes :
    (∃ e, (running .cbcEnc (.finish .ok)).phase = .busy e ∧ e.pos = .finish .ok) ∧
    ∃ e r, (State.goto State.reset (Engine.start 0) (.finish .badCmd)).phase = .busy e ∧ e.pos = .finish .badCmd ∧
      decode e.cmdword = .error r := ⟨⟨_, rfl, rfl⟩, _, .reservedOp, rfl, rfl, by decide⟩

theorem witness_FinishRecordsAndZeroizes_step :
    (running .cbcEnc (.finish .ok)).busy = true ∧
    (nextOf (step (running .cbcEnc (.finish .ok)))).map (·.busy) = some false := by decide

theorem witness_ReservedWordEndsWithBadCmd :
    { State.reset with inputs := [.regWrite 0x00 32 5] }.busy = false ∧
    ¬((5 : Word).toNat / 16 = 0 ∧ ((5 : Word).toNat % 16 = 1 ∨ (5 : Word).toNat % 16 = 2 ∨
      (5 : Word).toNat % 16 = 3 ∨ (5 : Word).toNat % 16 = 4)) ∧
    ¬((0x11 : Word).toNat / 16 = 0 ∧ ((0x11 : Word).toNat % 16 = 1 ∨ (0x11 : Word).toNat % 16 = 2 ∨
      (0x11 : Word).toNat % 16 = 3 ∨ (0x11 : Word).toNat % 16 = 4)) := by decide

/-- A command at a position on a platform whose port completes no access at 0x1000 (reads) and 0x2000 (writes). -/
def failing (i : Instr) (pos : Position) : State :=
  { running i pos with portFaults := [⟨0x1000, 1, .read⟩, ⟨0x2000, 1, .write⟩] }

theorem witness_BusErrorEndsTheCommand :
    (failing .cbcEnc (.cbcRead 0 0)).cbcReadAddr 0 0 < 2 ^ 32 ∧
    (failing .cbcEnc (.cbcRead 0 0)).busOk ((failing .cbcEnc (.cbcRead 0 0)).cbcReadAddr 0 0) .read = false ∧
    (failing .cbcEnc (.cbcWrite 0 0)).cbcWriteAddr 0 0 < 2 ^ 32 ∧
    (failing .cbcEnc (.cbcWrite 0 0)).busOk ((failing .cbcEnc (.cbcWrite 0 0)).cbcWriteAddr 0 0) .write = false ∧
    (failing .cmac64 (.cmacZero 0)).cmacTagAddr 0 < 2 ^ 32 ∧
    (failing .cmac64 (.cmacZero 0)).busOk ((failing .cmac64 (.cmacZero 0)).cmacTagAddr 0) .write = false ∧
    (failing .cmac64 (.cmacRead 0)).cmacReadAddr 0 < 2 ^ 32 ∧
    (failing .cmac64 (.cmacRead 0)).busOk ((failing .cmac64 (.cmacRead 0)).cmacReadAddr 0) .read = false := by decide

theorem witness_BusErrorEndsTheCommand_positions :
    (∃ e, (failing .cbcEnc (.cbcRead 0 0)).phase = .busy e ∧ e.pos = .cbcRead 0 0) ∧
    (∃ e, (failing .cbcEnc (.cbcWrite 0 0)).phase = .busy e ∧ e.pos = .cbcWrite 0 0) ∧
    (∃ e, (failing .cmac64 (.cmacZero 0)).phase = .busy e ∧ e.pos = .cmacZero 0) ∧
    (∃ e, (failing .cmac64 (.cmacRead 0)).phase = .busy e ∧ e.pos = .cmacRead 0) ∧
    (∃ e, (failing .cmac64 (.cmacWrite 0)).phase = .busy e ∧ e.pos = .cmacWrite 0) ∧
    (failing .cmac64 (.cmacWrite 0)).busOk ((failing .cmac64 (.cmacWrite 0)).cmacTagAddr 0) .write = false :=
  ⟨⟨_, rfl, rfl⟩, ⟨_, rfl, rfl⟩, ⟨_, rfl, rfl⟩, ⟨_, rfl, rfl⟩, ⟨_, rfl, rfl⟩, by decide⟩

/-- A command just accepted, with its length and addresses. -/
def accepted (i : Instr) (src dst len : Word) (keyw : BitVec 4) : State :=
  { running i .dispatch with src := src, dst := dst, len := len, keyw := keyw }

theorem accepted_accepted (i : Instr) (src dst len : Word) (keyw : BitVec 4) :
    (accepted i src dst len keyw).accepted i := rfl

theorem witness_CbcReportsTheFirstFailedCheck :
    (accepted .cbcEnc 0 0 5 0b0111).keyw ≠ 0b1111 ∧
    (accepted .cbcEnc 0 0 0 0b1111).length = 0 ∧ (accepted .cbcDec 0 0 17 0b1111).length % 16 ≠ 0 ∧
    (accepted .cbcEnc 0xFFFFFFF1 0 16 0b1111).length ≠ 0 ∧
    (accepted .cbcEnc 0xFFFFFFF1 0 16 0b1111).length % 16 = 0 ∧
    2 ^ 32 < (accepted .cbcEnc 0xFFFFFFF1 0 16 0b1111).srcAddr + (accepted .cbcEnc 0xFFFFFFF1 0 16 0b1111).length ∧
    2 ^ 32 < (accepted .cbcDec 0 0xFFFFFFF1 16 0b1111).dstAddr + (accepted .cbcDec 0 0xFFFFFFF1 16 0b1111).length := by
  decide

theorem accepted_tagReady : CmacTagReady .full (accepted .cmac128 0xFFFFFFFF 0x2000 2 0b1111) :=
  ⟨rfl, by decide, by decide⟩

theorem witness_CmacReportsTheFirstFailedCheck :
    (accepted .cmac128 0 0xFFFFFFF1 0 0b1111).accepted (cmacInstr .full) ∧
    2 ^ 32 < (accepted .cmac128 0 0xFFFFFFF1 0 0b1111).dstAddr + tagLength .full ∧
    Memory.wf (accepted .cmac128 0xFFFFFFFF 0x2000 2 0b1111).mem = true ∧
    CmacTagReady .full (accepted .cmac128 0xFFFFFFFF 0x2000 2 0b1111) ∧
    2 ^ 32 < (accepted .cmac128 0xFFFFFFFF 0x2000 2 0b1111).srcAddr +
      (accepted .cmac128 0xFFFFFFFF 0x2000 2 0b1111).length :=
  ⟨rfl, by decide, rfl, accepted_tagReady, by decide⟩

theorem witness_CmacReportsTheFirstFailedCheck_key :
    CmacTagReady .selected (accepted .cmac64 0 0xFFFFFFF8 0 0) ∧ (accepted .cmac64 0 0xFFFFFFF8 0 0).keyw ≠ 0b1111 :=
  ⟨⟨rfl, by decide, by decide⟩, by decide⟩

theorem witness_KeyMustBeWrittenBeforeEveryCommand : Memory.wf (running .cmac64 .dispatch).mem = true ∧
    (running .cmac64 .dispatch).dstAddr + tagLength .full ≤ 2 ^ 32 ∧
    ∀ k, k < tagLength .full →
      (running .cmac64 .dispatch).busOk ((running .cmac64 .dispatch).dstAddr + k) .write = true :=
  ⟨rfl, by decide, by decide⟩

/-- Quiet turns for the clauses on interleaving: polls, reads, writes that are ignored, loads of the ranges, and
stores that touch them on neither side. -/
theorem witness_interleaved : ∀ turn ∈
    ([.poll, .regRead 0x04 32, .regWrite 0x00 32 2, .memLoad 0x1000, .memStore 0x0FFF 1, .memStore 0x1010 1,
      .memStore 0x1FFF 1, .memStore 0x2010 1] : List Input),
    (running .cbcEnc .dispatch).quiet .cbcEnc turn := by
  intro turn h
  have hsrc : (running .cbcEnc .dispatch).srcAddr = 0x1000 := rfl
  have hdst : (running .cbcEnc .dispatch).dstAddr = 0x2000 := rfl
  have hlen : (running .cbcEnc .dispatch).length = 16 := rfl
  have hout : (running .cbcEnc .dispatch).outputLength .cbcEnc = 16 := rfl
  simp only [List.mem_cons, List.not_mem_nil, or_false] at h
  unfold State.quiet State.inCommandRange
  rw [hsrc, hdst, hlen, hout]
  rcases h with rfl | rfl | rfl | rfl | rfl | rfl | rfl | rfl <;>
    refine ⟨by decide, fun a ha => ?_⟩ <;> simp [storesTo] at ha <;> omega

theorem witness_CbcBlockEvents :
    (∃ e, (running .cbcDec (.cbcRead 0 15)).phase = .busy e ∧ e.pos = .cbcRead 0 15) ∧
    (running .cbcDec (.cbcRead 0 15)).cbcReadAddr 0 15 < 2 ^ 32 ∧
    (running .cbcDec (.cbcRead 0 15)).busOk ((running .cbcDec (.cbcRead 0 15)).cbcReadAddr 0 15) .read = true ∧
    (∃ e, (running .cbcEnc (.cbcCompute 0)).phase = .busy e ∧ e.pos = .cbcCompute 0) ∧
    (∃ e, (running .cbcEnc (.cbcWrite 0 0)).phase = .busy e ∧ e.pos = .cbcWrite 0 0) ∧
    (running .cbcEnc (.cbcWrite 0 0)).cbcWriteAddr 0 0 < 2 ^ 32 ∧
    (running .cbcEnc (.cbcWrite 0 0)).busOk ((running .cbcEnc (.cbcWrite 0 0)).cbcWriteAddr 0 0) .write = true :=
  ⟨⟨_, rfl, rfl⟩, by decide, by decide, ⟨_, rfl, rfl⟩, ⟨_, rfl, rfl⟩, by decide, by decide⟩

theorem witness_CmacEvents :
    (∃ e, (running .cmac64 (.cmacZero 7)).phase = .busy e ∧ e.pos = .cmacZero 7) ∧
    (running .cmac64 (.cmacZero 7)).cmacTagAddr 7 < 2 ^ 32 ∧
    (running .cmac64 (.cmacZero 7)).busOk ((running .cmac64 (.cmacZero 7)).cmacTagAddr 7) .write = true ∧
    (∃ e, (running .cmac128 (.cmacRead 15)).phase = .busy e ∧ e.pos = .cmacRead 15) ∧
    (running .cmac128 (.cmacRead 15)).cmacReadAddr 15 < 2 ^ 32 ∧
    (running .cmac128 (.cmacRead 15)).busOk ((running .cmac128 (.cmacRead 15)).cmacReadAddr 15) .read = true ∧
    (∃ e, (running .cmac128 (.cmacWrite 15)).phase = .busy e ∧ e.pos = .cmacWrite 15) ∧
    (∃ e, (running .cmac64 .cmacLoad).phase = .busy e ∧ e.pos = .cmacLoad) ∧
    (∃ e, (running .cmac64 .cmacTag).phase = .busy e ∧ e.pos = .cmacTag) ∧
    (∃ e, (running .cmac64 .cmacTagRangeCheck).phase = .busy e ∧ e.pos = .cmacTagRangeCheck) ∧
    (∃ e, (running .cmac64 .cmacMessageRangeCheck).phase = .busy e ∧ e.pos = .cmacMessageRangeCheck) ∧
    (∃ e, (running .cmac64 .cmacKeyCheck).phase = .busy e ∧ e.pos = .cmacKeyCheck) ∧
    (running .cmac128 (.cmacWrite 15)).cmacTagAddr 15 < 2 ^ 32 ∧
    (running .cmac128 (.cmacWrite 15)).busOk ((running .cmac128 (.cmacWrite 15)).cmacTagAddr 15) .write = true :=
  ⟨⟨_, rfl, rfl⟩, by decide, by decide, ⟨_, rfl, rfl⟩, by decide, by decide, ⟨_, rfl, rfl⟩,
    ⟨_, rfl, rfl⟩, ⟨_, rfl, rfl⟩, ⟨_, rfl, rfl⟩, ⟨_, rfl, rfl⟩, ⟨_, rfl, rfl⟩, by decide, by decide⟩

theorem witness_CbcEventFrame : ∃ t, exec (cbcInstr .enc) (running .cbcEnc (.cbcWrite 0 0)) = .next t := ⟨_, rfl⟩
theorem witness_CbcEventFrame_notAtFinish : (running .cbcEnc (.cbcWrite 0 0)).atFinish = false := rfl
theorem witness_CmacEventFrame : ∃ t, exec (cmacInstr .full) (running .cmac128 (.cmacZero 0)) = .next t := ⟨_, rfl⟩
theorem witness_CmacEventFrame_notAtFinish : (running .cmac128 (.cmacZero 0)).atFinish = false := rfl
theorem witness_CmacIgnoresTheIv : ∃ t, exec (cmacInstr .selected) (running .cmac64 .cmacLoad) = .next t := ⟨_, rfl⟩

theorem cbcReady_in_place (dir : Direction) : CbcReady dir (accepted (cbcInstr dir) 0x1000 0x1000 16 0b1111) := by
  cases dir <;>
    exact ⟨⟨rfl, by decide, by decide, by decide, by decide, by decide⟩, by decide, by decide⟩

theorem witness_CbcEncWritesTheCiphertext :
    Memory.wf (accepted .cbcEnc 0x1000 0x1000 16 0b1111).mem = true ∧
    CbcReady .enc (accepted .cbcEnc 0x1000 0x1000 16 0b1111) ∧
    (accepted .cbcEnc 0x1000 0x1000 16 0b1111).cbcSafeOverlap := ⟨rfl, cbcReady_in_place .enc, .inl (by decide)⟩

theorem witness_CbcDecWritesThePlaintext :
    Memory.wf (accepted .cbcDec 0x1000 0x1000 16 0b1111).mem = true ∧
    CbcReady .dec (accepted .cbcDec 0x1000 0x1000 16 0b1111) ∧
    (accepted .cbcDec 0x1000 0x1000 16 0b1111).cbcSafeOverlap := ⟨rfl, cbcReady_in_place .dec, .inl (by decide)⟩

theorem witness_CbcOverlapFollowsTheEventOrder :
    Memory.wf (accepted .cbcEnc 0x1000 0x1008 32 0b1111).mem = true ∧
    CbcReady .enc (accepted .cbcEnc 0x1000 0x1008 32 0b1111) :=
  ⟨rfl, ⟨rfl, by decide, by decide, by decide, by decide, by decide⟩, by decide, by decide⟩

/-- A CBC command of two blocks, on a platform with the given port. -/
def twoBlocks (faults : List PortFault) : State :=
  { accepted .cbcEnc 0x1000 0x2000 32 0b1111 with portFaults := faults }

theorem twoBlocks_checked (faults : List PortFault) : CbcChecked .enc (twoBlocks faults) :=
  ⟨rfl, rfl, (by decide : 0 < (twoBlocks []).length), (by decide : (twoBlocks []).length % 16 = 0),
    (by decide : (twoBlocks []).srcAddr + (twoBlocks []).length ≤ 2 ^ 32),
    (by decide : (twoBlocks []).dstAddr + (twoBlocks []).length ≤ 2 ^ 32)⟩

theorem witness_CbcReadErrorLeavesEarlierBlocks :
    Memory.wf (twoBlocks [⟨0x101F, 1, .read⟩]).mem = true ∧ CbcChecked .enc (twoBlocks [⟨0x101F, 1, .read⟩]) ∧
    (twoBlocks [⟨0x101F, 1, .read⟩]).cbcSafeOverlap ∧ 1 < (twoBlocks [⟨0x101F, 1, .read⟩]).cbcBlocks ∧
    (∀ k, k < 16 * 1 →
      (twoBlocks [⟨0x101F, 1, .read⟩]).busOk ((twoBlocks [⟨0x101F, 1, .read⟩]).srcAddr + k) .read = true ∧
      (twoBlocks [⟨0x101F, 1, .read⟩]).busOk ((twoBlocks [⟨0x101F, 1, .read⟩]).dstAddr + k) .write = true) ∧
    ∃ j, j < 16 ∧ (twoBlocks [⟨0x101F, 1, .read⟩]).busOk
      ((twoBlocks [⟨0x101F, 1, .read⟩]).srcAddr + 16 * 1 + j) .read = false :=
  ⟨rfl, twoBlocks_checked _, .inr (by decide), by decide, by decide, 15, by decide, by decide⟩

theorem witness_CbcWriteErrorLeavesEarlierBytes :
    Memory.wf (twoBlocks [⟨0x2010, 16, .write⟩]).mem = true ∧ CbcChecked .enc (twoBlocks [⟨0x2010, 16, .write⟩]) ∧
    (twoBlocks [⟨0x2010, 16, .write⟩]).cbcSafeOverlap ∧ 1 < (twoBlocks [⟨0x2010, 16, .write⟩]).cbcBlocks ∧
    (∀ k, k < 16 * 1 + 16 →
      (twoBlocks [⟨0x2010, 16, .write⟩]).busOk ((twoBlocks [⟨0x2010, 16, .write⟩]).srcAddr + k) .read = true) ∧
    (∀ k, k < 16 * 1 + (0 : Fin 16).val →
      (twoBlocks [⟨0x2010, 16, .write⟩]).busOk ((twoBlocks [⟨0x2010, 16, .write⟩]).dstAddr + k) .write = true) ∧
    (twoBlocks [⟨0x2010, 16, .write⟩]).busOk
      ((twoBlocks [⟨0x2010, 16, .write⟩]).dstAddr + 16 * 1 + (0 : Fin 16).val) .write = false :=
  ⟨rfl, twoBlocks_checked _, .inr (by decide), by decide, by decide, by decide, by decide⟩

theorem cmacReady_empty (kind : TagKind) : CmacReady kind (accepted (cmacInstr kind) 0x1000 0x2000 0 0b1111) := by
  cases kind <;> exact ⟨⟨rfl, by decide, by decide⟩, rfl, by decide, by decide⟩

theorem witness_Cmac128WritesTheTag : Memory.wf (accepted .cmac128 0x1000 0x2000 0 0b1111).mem = true ∧
    CmacReady .full (accepted .cmac128 0x1000 0x2000 0 0b1111) := ⟨rfl, cmacReady_empty .full⟩

theorem witness_Cmac64WritesTheSelectedBytes : Memory.wf (accepted .cmac64 0x1000 0x2000 0 0b1111).mem = true ∧
    CmacReady .selected (accepted .cmac64 0x1000 0x2000 0 0b1111) := ⟨rfl, cmacReady_empty .selected⟩

theorem witness_CmacTagIsNeverPartlyWritten :
    Memory.wf (accepted .cmac128 0x1000 0x2000 0 0b1111).mem = true ∧
    (accepted .cmac128 0x1000 0x2000 0 0b1111).accepted (cmacInstr .full) ∧
    (accepted .cmac128 0x1000 0x2000 0 0b1111).dstAddr + tagLength .full ≤ 2 ^ 32 ∧
    ∀ k, k < tagLength .full → (accepted .cmac128 0x1000 0x2000 0 0b1111).busOk
      ((accepted .cmac128 0x1000 0x2000 0 0b1111).dstAddr + k) .write = true :=
  ⟨rfl, rfl, by decide, by decide⟩

theorem witness_CmacTagIsNeverPartlyWritten_zeroing :
    (failing .cmac128 .dispatch).accepted (cmacInstr .full) ∧
    (failing .cmac128 .dispatch).dstAddr + tagLength .full ≤ 2 ^ 32 ∧ 0 < tagLength .full ∧
    (∀ k, k < 0 → (failing .cmac128 .dispatch).busOk ((failing .cmac128 .dispatch).dstAddr + k) .write = true) ∧
    (failing .cmac128 .dispatch).busOk ((failing .cmac128 .dispatch).dstAddr + 0) .write = false :=
  ⟨rfl, by decide, by decide, by decide, by decide⟩

theorem witness_CmacIsDeterministic :
    CmacReady .full (accepted .cmac128 0x1000 0x2000 0 0b1111) ∧
    CmacReady .full (accepted .cmac128 0x5000 0x6000 0 0b1111) ∧
    (accepted .cmac128 0x1000 0x2000 0 0b1111).keyBytes = (accepted .cmac128 0x5000 0x6000 0 0b1111).keyBytes ∧
    (accepted .cmac128 0x1000 0x2000 0 0b1111).message .full =
      (accepted .cmac128 0x5000 0x6000 0 0b1111).message .full :=
  ⟨cmacReady_empty .full, ⟨⟨rfl, by decide, by decide⟩, rfl, by decide, by decide⟩, rfl, by decide⟩

theorem witness_EffectsDependOnTheOperandsAlone :
    (State.reset.finish .opErr).phase = State.reset.phase ∧
    ∃ t, Host.Core.run core (0 + 1) { State.reset with inputs := [.regWrite 0x00 32 1] } = .next t ∧
      { State.reset.finish .opErr with inputs := [.regWrite 0x00 32 1] }.keyw = State.reset.keyw ∧
      { State.reset.finish .opErr with inputs := [.regWrite 0x00 32 1] }.result ≠ State.reset.result :=
  ⟨rfl, _, rfl, by decide, by decide⟩

theorem inv_accepted : Inv (accepted .cbcEnc 0x1000 0x2000 16 0b1111) :=
  ⟨rfl, by decide, fun _ => rfl, by decide, by decide⟩

theorem witness_EveryStepKeepsTheInvariant : Inv (accepted .cbcEnc 0x1000 0x2000 16 0b1111) ∧
    ∃ t, step (accepted .cbcEnc 0x1000 0x2000 16 0b1111) = .next t := ⟨inv_accepted, _, rfl⟩

theorem witness_TheMachineNeverStops : Inv (accepted .cbcEnc 0x1000 0x2000 16 0b1111) := inv_accepted

theorem witness_EveryCommandFinishes : Inv (accepted .cbcEnc 0x1000 0x2000 16 0b1111) ∧
    (accepted .cbcEnc 0x1000 0x2000 16 0b1111).inputs = [] ∧
    (accepted .cbcEnc 0x1000 0x2000 16 0b1111).busy = true := ⟨inv_accepted, rfl, rfl⟩

theorem witness_PollEndsWithTheCommand :
    Inv { accepted .cbcEnc 0x1000 0x2000 16 0b1111 with inputs := [.poll] } :=
  ⟨rfl, by decide, fun _ => rfl, by decide, by decide⟩

theorem witness_CbcSplitCarriesTheLastCiphertextBlock :
    (∃ last, (cbcEncrypt Block.zero Block.zero [p0]).getLast? = some last) ∧ [p0].getLast? = some p0 :=
  ⟨⟨_, rfl⟩, rfl⟩

theorem witness_PaddingAppendsOneBit : ([] : List Byte).length < 16 ∧ (List.replicate 15 (7 : Byte)).length < 16 := by
  decide

theorem witness_OneBitChangesTheTag : 0 < [(0x6b : Byte)].length := by decide

end Sys2Proof.Tests
end

section
/-! The register window (rules R14 to R29): which slot an access reaches, the step that a register access is, the
fields of `STATUS`, and the bytes of the key and IV registers. -/

namespace Sys2Proof.Proofs

open Sys2Proof Sys2Proof.Machine Sys2Proof.Laws

/-! ## Accesses -/

/-- The table of slots inverts the offsets of rule R14. -/
theorem slotOffset_slotTable : ∀ off : BitVec 6, off.toNat % 4 = 0 →
    slotOffset slotTable[(off.extractLsb' 2 4).toFin] = off := by decide

/-- Only a 32-bit access at the offset of a slot reaches that slot (rules R15, R93). -/
theorem accessedSlot_eq_some_iff {off : BitVec 6} {bits : Nat} {slot : Slot} :
    accessedSlot off bits = some slot ↔ bits = 32 ∧ off = slotOffset slot := by
  constructor
  · intro h
    unfold accessedSlot at h
    split at h
    · next hc =>
      cases h
      exact ⟨hc.1, (slotOffset_slotTable off hc.2).symm⟩
    · cases h
  · rintro ⟨rfl, rfl⟩
    exact accessedSlot_slotOffset slot

/-- A step whose turn is not the core's is that turn, taken off the queue. -/
theorem step_host {s : State} {turn : Input} {rest : List Input} (hne : turn ≠ .core)
    (h : s.inputs = turn :: rest) : step s = .next (hostStep turn { s with inputs := rest }) := by
  unfold step
  split
  · next hi => cases h.symm.trans hi
  · next hi => exact absurd (List.cons.inj (h.symm.trans hi)).1 hne
  · next hi =>
    cases h.symm.trans hi
    rfl

/-- A host write neither reads nor writes the queue. -/
theorem hostWrite_inputs (s : State) (rest : List Input) (slot : Slot) (v : Word) :
    State.hostWrite { s with inputs := rest } slot v = { s.hostWrite slot v with inputs := rest } := by
  cases hb : s.busy with
  | true => rw [hostWrite_of_busy hb, hostWrite_of_busy (by exact hb)]
  | false =>
    rw [hostWrite_of_idle hb, hostWrite_of_idle (by exact hb)]
    cases slot <;> rfl

@[simp] theorem hostWrite_responses (s : State) (slot : Slot) (v : Word) :
    (s.hostWrite slot v).responses = s.responses := by
  cases hb : s.busy with
  | true => rw [hostWrite_of_busy hb]
  | false =>
    rw [hostWrite_of_idle hb]
    cases slot <;> rfl

/-- What a host reads does not depend on the queue. -/
theorem hostRead_inputs (s : State) (rest : List Input) (slot : Slot) :
    State.hostRead { s with inputs := rest } slot = s.hostRead slot := by
  cases slot <;> rfl

/-- A turn that writes a slot is `HostWrite` of that slot, answered as done (rules R15, R16). -/
theorem step_regWrite {s : State} {off : BitVec 6} {slot : Slot} {v : Word} {rest : List Input}
    (hslot : accessedSlot off 32 = some slot) (h : s.inputs = .regWrite off 32 v :: rest) :
    step s = .next { s.hostWrite slot v with inputs := rest, responses := .writeDone :: s.responses } := by
  rw [step_host (by simp) h]
  simp only [hostStep, hslot, hostWrite_inputs, State.respond, hostWrite_responses]

/-- A turn that reads a slot answers `HostRead` of that slot (rules R15, R16). -/
theorem step_regRead {s : State} {off : BitVec 6} {slot : Slot} {rest : List Input}
    (hslot : accessedSlot off 32 = some slot) (h : s.inputs = .regRead off 32 :: rest) :
    step s = .next { s with inputs := rest, responses := .data (s.hostRead slot) :: s.responses } := by
  rw [step_host (by simp) h]
  simp only [hostStep, hslot, hostRead_inputs, State.respond]

@[simp] theorem hostWrite_status (s : State) (v : Word) : s.hostWrite .status v = s := by
  unfold State.hostWrite
  split <;> rfl

@[simp] theorem hostWrite_reserved (s : State) (k : Fin 3) (v : Word) : s.hostWrite (.reserved k) v = s := by
  unfold State.hostWrite
  split <;> rfl

/-! ## The bits of `STATUS` and `KEYW`, the bytes of the key and the IV -/

/-- Bit `j` of `KEYW` after a write of `KEYk` (rule R22). -/
theorem keywWithBit_getLsbD (keyw : BitVec 4) (k j : Fin 4) :
    (keywWithBit keyw k).getLsbD j = (decide (j = k) || keyw.getLsbD j) := by
  revert keyw k j
  decide

/-! The fields of `STATUS` from the top: each `rw` drops the fields that stand below the one read (rule R18). -/

theorem status_bit_busy (s : State) : s.status.getLsbD 0 = s.busy := by
  unfold State.status
  rw [BitVec.getLsbD_append]
  simp

theorem status_bit_done (s : State) : s.status.getLsbD 1 = s.doneBit := by
  unfold State.status
  rw [BitVec.getLsbD_append, BitVec.getLsbD_append]
  simp

theorem status_bits_3_2 (s : State) : s.status.extractLsb' 2 2 = 0 := by
  unfold State.status
  repeat rw [BitVec.extractLsb'_append_eq_of_le (by decide)]
  rw [BitVec.extractLsb'_append_eq_of_add_le (by decide), BitVec.extractLsb'_eq_self]

theorem status_bits_result (s : State) : s.status.extractLsb' 4 4 = s.result := by
  unfold State.status
  repeat rw [BitVec.extractLsb'_append_eq_of_le (by decide)]
  rw [BitVec.extractLsb'_append_eq_of_add_le (by decide), BitVec.extractLsb'_eq_self]

theorem status_bits_keyw (s : State) : s.status.extractLsb' 8 4 = s.keyw := by
  unfold State.status
  repeat rw [BitVec.extractLsb'_append_eq_of_le (by decide)]
  rw [BitVec.extractLsb'_append_eq_of_add_le (by decide), BitVec.extractLsb'_eq_self]

theorem status_bits_31_12 (s : State) : s.status.extractLsb' 12 20 = 0 := by
  unfold State.status
  repeat rw [BitVec.extractLsb'_append_eq_of_le (by decide)]
  exact BitVec.extractLsb'_eq_self

/-- Byte `4k + j` of a key or an IV is byte `j` of its word `k` (rules R25, R26). -/
theorem blockOfWords_getElem (words : Vector Word 4) (k j : Nat) (hk : k < 4) (hj : j < 4) :
    (blockOfWords words)[4 * k + j] = wordByte words[k] ⟨j, hj⟩ := by
  have hdiv : (4 * k + j) / 4 = k := by omega
  have hmod : Fin.ofNat 4 (4 * k + j) = ⟨j, hj⟩ := Fin.ext (by simp; omega)
  simp only [blockOfWords, Vector.getElem_ofFn, hdiv, hmod]

/-! ## The statements about the register window -/

/-- Settles O8. -/
theorem statusHasTheFieldsOfRule18 : Obligations.StatusHasTheFieldsOfRule18 := fun s =>
  ⟨status_bit_busy s, status_bit_done s, status_bits_3_2 s, status_bits_result s, status_bits_keyw s,
    status_bits_31_12 s, rfl, hostWrite_status s⟩

/-- Settles O9: both registers are laid out by `blockOfWords`. -/
theorem keyAndIvWordsPutLowerBytesHigher : Obligations.KeyAndIvWordsPutLowerBytesHigher := fun s k j hk hj =>
  ⟨blockOfWords_getElem s.key k j hk hj, blockOfWords_getElem s.iv k j hk hj, rfl⟩

/-- Settles O10: by the slot; the key slots read as 0, and no other slot shows a key register or the engine. -/
theorem hostReadsRevealNoSecret : Obligations.HostReadsRevealNoSecret := by
  intro s key e e' slot
  cases slot <;> exact ⟨rfl, rfl⟩

/-- Settles O11: the step of an access, with `HostWrite` ignored while busy (rule R16). -/
theorem writesWhileBusyAreIgnored : Obligations.WritesWhileBusyAreIgnored := by
  intro s off slot v rest hbusy hslot
  refine ⟨fun h => ?_, step_regRead hslot⟩
  rw [step_regWrite hslot h, hostWrite_of_busy hbusy]

/-- While idle, `HostWrite` changes the register of the slot and, for a key slot, its bit of `KEYW`, and nothing
else (rules R14, R22 to R26). -/
theorem hostWrite_idle_effects (s : State) (v : Word) (h : s.busy = false) :
    s.hostWrite .src v = { s with src := v } ∧ s.hostWrite .dst v = { s with dst := v } ∧
    s.hostWrite .len v = { s with len := v } ∧ (∀ k, s.hostWrite (.iv k) v = { s with iv := s.iv.set k v }) ∧
    ∀ k, s.hostWrite (.key k) v = { s with key := s.key.set k v, keyw := keywWithBit s.keyw k } := by
  simp only [hostWrite_of_idle h]
  exact ⟨rfl, rfl, rfl, fun _ => rfl, fun _ => rfl⟩

/-- Settles O7, from the effect of each idle write and the step of an access. -/
theorem registerWindowIsAsTabled : Obligations.RegisterWindowIsAsTabled := by
  refine ⟨by decide, fun s => ⟨rfl, rfl, fun _ => rfl, fun _ => rfl⟩,
    fun s v => ⟨hostWrite_status s v, fun k => hostWrite_reserved s k v⟩, fun s v h => ?_, fun s v h => ?_,
    fun s off slot v rest _ hslot => ⟨step_regWrite hslot, step_regRead hslot⟩, fun slot => ?_, fun k => ?_⟩
  · obtain ⟨hsrc, hdst, hlen, hiv, hkey⟩ := hostWrite_idle_effects s v h
    rw [hsrc, hdst, hlen]
    refine ⟨rfl, rfl, rfl, fun k => ⟨?_, by rw [hkey]⟩⟩
    rw [hiv]
    exact Vector.getElem_set_self k.isLt
  · obtain ⟨hsrc, hdst, hlen, hiv, hkey⟩ := hostWrite_idle_effects s v h
    exact ⟨hsrc, hdst, hlen, hiv, fun k => ⟨_, keywWithBit_getLsbD s.keyw k, hkey k⟩⟩
  · cases slot with
    | iv k => exact Vector.getElem_replicate k.isLt
    | _ => rfl
  · exact Vector.getElem_replicate k.isLt

/-- Settles O43. -/
theorem resetSatisfiesTheInvariant : Obligations.ResetSatisfiesTheInvariant where
  memory := wf_reset
  resultCode := by decide
  resultMeaning _ := rfl
  keyTracked := by decide
  phase := rfl

end Sys2Proof.Proofs
end

section
/-! Who writes `STATUS` (rules R19 to R22): one lemma says how every step treats its fields, and the statements
about `BUSY`, `KEYW`, `DONE` and `RESULT` are read off it. -/

namespace Sys2Proof.Proofs

open Sys2Proof Sys2Proof.Machine Sys2Proof.Laws

/-- `t` has the fields of `STATUS` that `s` has (rule R18). -/
structure SameStatus (s t : State) : Prop where
  busy : t.busy = s.busy
  doneBit : t.doneBit = s.doneBit
  result : t.result = s.result
  keyw : t.keyw = s.keyw

theorem SameStatus.refl (s : State) : SameStatus s s := ⟨rfl, rfl, rfl, rfl⟩

/-- The next event of the running command is a finish (rule R56). -/
def FinishDue (s : State) : Prop := ∃ e c, s.phase = .busy e ∧ e.pos = .finish c

/-- The next turn is the core's. -/
def CoreTurn (s : State) : Prop := s.inputs = [] ∨ ∃ rest, s.inputs = .core :: rest

/-- How a step from `s` to `t` treats the fields of `STATUS`: it keeps them, or it is of one of the four kinds that
rules R19 to R22 name. -/
inductive StatusStep (s t : State) : Prop
  | same (h : SameStatus s t)
  | accept (v : Word) (rest : List Input) (hi : s.inputs = .regWrite 0x00 32 v :: rest) (hidle : s.busy = false)
    (hkeyw : t.keyw = s.keyw)
  | keyWrite (k : Fin 4) (v : Word) (rest : List Input)
    (hi : s.inputs = .regWrite (slotOffset (.key k)) 32 v :: rest) (hidle : s.busy = false)
    (hbusy : t.busy = s.busy) (hdone : t.doneBit = s.doneBit) (hresult : t.result = s.result)
  | reset (rest : List Input) (hi : s.inputs = .reset :: rest) (hbusy : t.busy = false)
  | finish (hturn : CoreTurn s) (hdue : FinishDue s)

/-! ## Events -/

theorem FinishDue.busy {s : State} (h : FinishDue s) : s.busy = true := by
  obtain ⟨e, -, he, -⟩ := h
  exact (busy_iff s).2 ⟨e, he⟩

theorem atFinish_iff (s : State) : s.atFinish = true ↔ FinishDue s := by
  unfold State.atFinish FinishDue
  split
  · next hp => simp [hp]
  · next e he =>
    split
    · next c hc => simp [he, hc]
    · next hc => simpa [he] using hc

/-- The state a running command goes on in keeps `STATUS`, whatever it does to the engine and to memory. -/
theorem sameStatus_running {s : State} {e : Engine} (he : s.phase = .busy e) (f : Engine) (m : Memory) :
    SameStatus s { s.withEngine f with mem := m } :=
  ⟨((busy_iff s).2 ⟨e, he⟩).symm, rfl, rfl, rfl⟩

theorem cbcNext_status {dir : Direction} {s t : State} {e : Engine} (he : s.phase = .busy e)
    (h : CbcNext dir s e t) : SameStatus s t ∨ FinishDue s := by
  cases h with
  | finish c hp => exact .inr ⟨e, c, he, hp⟩
  | _ => exact .inl (sameStatus_running he _ _)

theorem cmacNext_status {kind : TagKind} {s t : State} {e : Engine} (he : s.phase = .busy e)
    (h : CmacNext kind s e t) : SameStatus s t ∨ FinishDue s := by
  cases h with
  | finish c hp => exact .inr ⟨e, c, he, hp⟩
  | _ => exact .inl (sameStatus_running he _ _)

theorem rejectEvent_status {s t : State} {e : Engine} (he : s.phase = .busy e) (h : rejectEvent s e = .next t) :
    SameStatus s t ∨ FinishDue s := by
  obtain ⟨-, rfl⟩ | ⟨c, hp, -⟩ := rejectEvent_cases h
  · exact .inl (sameStatus_running he _ _)
  · exact .inr ⟨e, c, he, hp⟩

theorem exec_status {i : Instr} {s t : State} (h : exec i s = .next t) : SameStatus s t ∨ FinishDue s := by
  obtain ⟨dir, rfl⟩ | ⟨kind, rfl⟩ := instr_cases i
  · rw [exec_cbc] at h
    obtain ⟨e, he, hn⟩ := cbcEvent_cases h
    exact cbcNext_status he hn
  · rw [exec_cmac] at h
    obtain ⟨e, he, hn⟩ := cmacEvent_cases h
    exact cmacNext_status he hn

theorem coreStep_status {s t : State} (h : coreStep s = .next t) : SameStatus s t ∨ FinishDue s := by
  obtain ⟨-, rfl⟩ | ⟨e, he, ⟨i, -, hexec⟩ | ⟨r, -, hreject⟩⟩ := coreStep_cases h
  · exact .inl (.refl t)
  · exact exec_status hexec
  · exact rejectEvent_status he hreject

/-! ## Turns and steps -/

theorem sameStatus_respond (s : State) (r : Response) : SameStatus s (s.respond r) := ⟨rfl, rfl, rfl, rfl⟩

/-- A turn of the host keeps `STATUS`, unless it is a reset or a 32-bit write of a slot. -/
theorem hostStep_status (turn : Input) (s : State) :
    SameStatus s (hostStep turn s) ∨ turn = .reset ∨ ∃ slot v, turn = .regWrite (slotOffset slot) 32 v := by
  cases turn with
  | reset => exact .inr (.inl rfl)
  | regWrite off bits v =>
    cases hslot : accessedSlot off bits with
    | some slot =>
      obtain ⟨rfl, rfl⟩ := accessedSlot_eq_some_iff.1 hslot
      exact .inr (.inr ⟨slot, v, rfl⟩)
    | none =>
      simp only [hostStep, hslot]
      exact .inl (sameStatus_respond s _)
  | regRead off bits =>
    simp only [hostStep]
    split <;> exact .inl (sameStatus_respond s _)
  | poll =>
    simp only [hostStep]
    split
    · exact .inl ⟨rfl, rfl, rfl, rfl⟩
    · exact .inl (sameStatus_respond s _)
  | core | memLoad | memStore => exact .inl ⟨rfl, rfl, rfl, rfl⟩

/-- A write of a slot touches `STATUS` only while idle, and only as an acceptance or a key write. -/
theorem step_regWrite_status {s t : State} {slot : Slot} {v : Word} {rest : List Input}
    (hi : s.inputs = .regWrite (slotOffset slot) 32 v :: rest) (h : step s = .next t) : StatusStep s t := by
  rw [step_regWrite (accessedSlot_slotOffset slot) hi] at h
  cases h
  cases hb : s.busy with
  | true =>
    rw [hostWrite_of_busy hb]
    exact .same ⟨rfl, rfl, rfl, rfl⟩
  | false =>
    rw [hostWrite_of_idle hb]
    cases slot with
    | cmd => exact .accept v rest hi hb rfl
    | key k => exact .keyWrite k v rest hi hb rfl rfl rfl
    | _ => exact .same ⟨rfl, rfl, rfl, rfl⟩

/-- The queue is no part of `STATUS`. -/
theorem SameStatus.of_inputs {s t : State} {rest : List Input} (h : SameStatus { s with inputs := rest } t) :
    SameStatus s t := ⟨h.busy, h.doneBit, h.result, h.keyw⟩

/-- How every step treats `STATUS` (rules R19 to R22). -/
theorem step_status {s t : State} (h : step s = .next t) : StatusStep s t := by
  obtain ⟨hi, hcore⟩ | ⟨rest, hi, hcore⟩ | ⟨turn, rest, -, hi, ht⟩ := step_cases h
  · obtain hsame | hdue := coreStep_status hcore
    · exact .same hsame
    · exact .finish (.inl hi) hdue
  · obtain hsame | hdue := coreStep_status hcore
    · exact .same hsame.of_inputs
    · exact .finish (.inr ⟨rest, hi⟩) hdue
  · obtain hsame | rfl | ⟨slot, v, rfl⟩ := hostStep_status turn { s with inputs := rest }
    · exact .same (ht ▸ hsame).of_inputs
    · exact .reset rest hi (ht ▸ rfl)
    · exact step_regWrite_status hi h

/-! ## The statements about `STATUS` -/

/-- Settles O14: of the kinds of step, only an acceptance starts idle and can end busy, and only a reset and a
finish can start busy and end idle. -/
theorem busyIsWrittenByAcceptanceFinishReset : Obligations.BusyIsWrittenByAcceptanceFinishReset := by
  refine ⟨accept_busy, finish_busy, takeReset_busy, fun s t h => ⟨fun hs ht => ?_, fun hs ht => ?_⟩⟩
  · cases step_status h with
    | same hsame => simp [← hsame.busy, ht] at hs
    | accept v rest hi => exact ⟨v, rest, hi⟩
    | keyWrite k v rest hi hidle hbusy => simp [← hbusy, ht] at hs
    | reset rest hi hbusy => simp [hbusy] at ht
    | finish hturn hdue => simp [hdue.busy] at hs
  · cases step_status h with
    | same hsame => simp [← hsame.busy, ht] at hs
    | accept v rest hi hidle => simp [hidle] at hs
    | keyWrite k v rest hi hidle => simp [hidle] at hs
    | reset rest hi => exact .inl ⟨rest, hi⟩
    | finish hturn hdue => exact .inr ⟨hturn, hdue⟩

/-- Settles O15: the steps that are neither a key write while idle, a reset nor a finish keep `KEYW`. -/
theorem keywIsWrittenByKeyWritesFinishReset : Obligations.KeywIsWrittenByKeyWritesFinishReset := by
  refine ⟨fun s k j v hidle => ?_, finish_keyw, takeReset_keyw, fun s t h hne => ?_⟩
  · obtain ⟨-, -, -, -, hkey⟩ := hostWrite_idle_effects s v hidle
    rw [hkey]
    exact keywWithBit_getLsbD s.keyw k j
  · cases step_status h with
    | same hsame => exact absurd hsame.keyw hne
    | accept v rest hi hidle hkeyw => exact absurd hkeyw hne
    | keyWrite k v rest hi hidle => exact .inl ⟨hidle, k, v, rest, hi⟩
    | reset rest hi => exact .inr (.inl ⟨rest, hi⟩)
    | finish hturn hdue => exact .inr (.inr ⟨hturn, hdue⟩)

/-- Settles O16: the steps that are neither an acceptance, a reset nor a finish keep `DONE` and `RESULT`. -/
theorem doneAndResultAreWrittenByAcceptanceFinishReset :
    Obligations.DoneAndResultAreWrittenByAcceptanceFinishReset := by
  refine ⟨fun s v => ⟨accept_doneBit s v, accept_result s v⟩,
    fun s c => ⟨finish_doneBit s c, finish_result s c⟩,
    fun s => ⟨takeReset_doneBit s, takeReset_result s⟩, fun s t h hne => ?_⟩
  cases step_status h with
  | same hsame => simp [hsame.doneBit, hsame.result] at hne
  | accept v rest hi hidle => exact .inl ⟨hidle, v, rest, hi⟩
  | keyWrite k v rest hi hidle hbusy hdone hresult => simp [hdone, hresult] at hne
  | reset rest hi => exact .inr (.inl ⟨rest, hi⟩)
  | finish hturn hdue => exact .inr (.inr ⟨hturn, hdue⟩)

end Sys2Proof.Proofs
end

section
/-! The CMAC commands and the IV (rules R26, R88). -/

namespace Sys2Proof.Proofs

open Sys2Proof Sys2Proof.Machine Sys2Proof.Laws

/-- `s` with another IV. -/
def withIv (s : State) (iv : Vector Word 4) : State := { s with iv := iv }

/-- The converse of `cmacEvent_cases`: the event of a position leads where `CmacNext` says. -/
theorem cmacEvent_of_next {kind : TagKind} {s t : State} {e : Engine} (he : s.phase = .busy e)
    (h : CmacNext kind s e t) : cmacEvent kind s = .next t := by
  cases h with
  | check p hp =>
    unfold cmacCheckNext at hp
    split at hp <;> cases hp <;> next hpos => simp only [cmacEvent, he, hpos]
  | finish c hpos => simp only [cmacEvent, he, hpos]
  | busError a k hp hlt hb =>
    unfold cmacAccess at hp
    split at hp <;> cases hp
    · next hpos => simp only [cmacEvent, he, hpos, cmacZeroEvent, memWrite_busError_iff.2 ⟨hlt, hb⟩]
    · next hpos => simp only [cmacEvent, he, hpos, cmacWriteEvent, memWrite_busError_iff.2 ⟨hlt, hb⟩]
    · next hpos => simp only [cmacEvent, he, hpos, cmacReadEvent, memRead_busError_iff.2 ⟨hlt, hb⟩]
  | zero j hpos hlt hb =>
    simp only [cmacEvent, he, hpos, cmacZeroEvent, memWrite_wrote_iff.2 ⟨hlt, hb, rfl⟩]
  | load hpos => simp only [cmacEvent, he, hpos, cmacLoadEvent]
  | read m hpos hlt hb b hblock =>
    simp only [cmacEvent, he, hpos, cmacReadEvent, memRead_data_iff.2 ⟨hlt, hb, rfl⟩, hblock]
  | tag hpos => simp only [cmacEvent, he, hpos, cmacTagEvent]
  | write j hpos hlt hb =>
    simp only [cmacEvent, he, hpos, cmacWriteEvent, memWrite_wrote_iff.2 ⟨hlt, hb, rfl⟩]

/-- No event of a CMAC command but the finish reads or writes the IV. -/
theorem cmacNext_withIv {kind : TagKind} {s t : State} {e : Engine} (hpos : ∀ c, e.pos ≠ .finish c)
    (h : CmacNext kind s e t) (iv : Vector Word 4) : CmacNext kind (withIv s iv) e (withIv t iv) := by
  cases h with
  | check p hp => exact .check p hp
  | finish c hp => exact absurd hp (hpos c)
  | busError a k hp hlt hb => exact .busError a k hp hlt hb
  | zero j hp hlt hb => exact .zero j hp hlt hb
  | load hp => exact .load hp
  | read m hp hlt hb b hblock => exact CmacNext.read (kind := kind) (s := withIv s iv) m hp hlt hb b hblock
  | tag hp => exact .tag hp
  | write j hp hlt hb => exact .write j hp hlt hb

/-- Settles O32: the finish leaves the zero IV whatever the IV was, and every other event carries the IV along. -/
theorem cmacIgnoresTheIv : Obligations.CmacIgnoresTheIv := by
  intro kind s t iv h
  rw [exec_cmac] at h ⊢
  cases hfin : s.atFinish with
  | true =>
    obtain ⟨e, c, he, hc⟩ := (atFinish_iff s).1 hfin
    have ht : t = s.finish c := by
      rw [cmacEvent_of_next he (.finish c hc)] at h
      cases h
      rfl
    subst ht
    exact cmacEvent_of_next (s := withIv s iv) he (.finish c hc)
  | false =>
    obtain ⟨e, he, hn⟩ := cmacEvent_cases h
    have hpos : ∀ c, e.pos ≠ .finish c := fun c hc => by simp [(atFinish_iff s).2 ⟨e, c, he, hc⟩] at hfin
    exact cmacEvent_of_next (s := withIv s iv) he (cmacNext_withIv hpos hn iv)

end Sys2Proof.Proofs
end

section
/-! Memory and the memory port (rules R30, R31, R36, R39): no step writes what `BUS_OK` depends on, a load of the
host sees the store before it, and an access that the bus does not complete leads to the finish. -/

namespace Sys2Proof.Proofs

open Sys2Proof Sys2Proof.Machine Sys2Proof.Laws

/-! ## The platform -/

/-- `t` stands on the platform that `s` stands on: `CRYPTO_BASE` and the regions that stop accesses (rule R5). -/
structure SamePlatform (s t : State) : Prop where
  cryptoWindow : t.cryptoWindow = s.cryptoWindow
  portFaults : t.portFaults = s.portFaults

theorem SamePlatform.refl (s : State) : SamePlatform s s := ⟨rfl, rfl⟩

theorem SamePlatform.trans {s t u : State} (h : SamePlatform s t) (h' : SamePlatform t u) : SamePlatform s u :=
  ⟨h'.cryptoWindow.trans h.cryptoWindow, h'.portFaults.trans h.portFaults⟩

theorem SamePlatform.cryptoBase {s t : State} (h : SamePlatform s t) : t.cryptoBase = s.cryptoBase := by
  unfold State.cryptoBase
  rw [h.cryptoWindow]

/-- `BUS_OK` is a function of the address, the kind and the platform alone (rule R31). -/
theorem SamePlatform.busOk {s t : State} (h : SamePlatform s t) (a : Nat) (kind : AccessKind) :
    t.busOk a kind = s.busOk a kind := by
  rw [Bool.eq_iff_iff, busOk_iff, busOk_iff, h.cryptoBase, h.portFaults]

/-- The queue is no part of the platform. -/
theorem samePlatform_inputs (s : State) (rest : List Input) : SamePlatform s { s with inputs := rest } := ⟨rfl, rfl⟩

theorem exec_platform {i : Instr} {s t : State} (h : exec i s = .next t) : SamePlatform s t := by
  obtain ⟨dir, rfl⟩ | ⟨kind, rfl⟩ := instr_cases i
  · rw [exec_cbc] at h
    obtain ⟨e, -, hn⟩ := cbcEvent_cases h
    cases hn <;> exact ⟨rfl, rfl⟩
  · rw [exec_cmac] at h
    obtain ⟨e, -, hn⟩ := cmacEvent_cases h
    cases hn <;> exact ⟨rfl, rfl⟩

theorem coreStep_platform {s t : State} (h : coreStep s = .next t) : SamePlatform s t := by
  obtain ⟨-, rfl⟩ | ⟨e, -, ⟨i, -, hexec⟩ | ⟨r, -, hreject⟩⟩ := coreStep_cases h
  · exact .refl t
  · exact exec_platform hexec
  · obtain ⟨-, rfl⟩ | ⟨c, -, rfl⟩ := rejectEvent_cases hreject <;> exact ⟨rfl, rfl⟩

theorem hostWrite_platform (s : State) (slot : Slot) (v : Word) : SamePlatform s (s.hostWrite slot v) := by
  cases hb : s.busy with
  | true =>
    rw [hostWrite_of_busy hb]
    exact .refl s
  | false =>
    rw [hostWrite_of_idle hb]
    cases slot <;> exact ⟨rfl, rfl⟩

theorem hostStep_platform (turn : Input) (s : State) : SamePlatform s (hostStep turn s) := by
  cases turn with
  | regWrite off bits v =>
    simp only [hostStep]
    split
    · next slot _ => exact (hostWrite_platform s slot v).trans ⟨rfl, rfl⟩
    · exact ⟨rfl, rfl⟩
  | regRead off bits =>
    simp only [hostStep]
    split <;> exact ⟨rfl, rfl⟩
  | poll =>
    simp only [hostStep]
    split <;> exact ⟨rfl, rfl⟩
  | core | memLoad | memStore | reset => exact ⟨rfl, rfl⟩

/-- No step changes the platform (rule R31). -/
theorem step_platform {s t : State} (h : step s = .next t) : SamePlatform s t := by
  obtain ⟨-, hcore⟩ | ⟨rest, -, hcore⟩ | ⟨turn, rest, -, -, rfl⟩ := step_cases h
  · exact coreStep_platform hcore
  · exact (samePlatform_inputs s rest).trans (coreStep_platform hcore)
  · exact (samePlatform_inputs s rest).trans (hostStep_platform turn _)

/-! ## The memory port -/

theorem memRead_eq_ite {s : State} {a : Nat} (ha : a < 2 ^ 32) :
    s.memRead a = if s.busOk a .read = true then .data (Memory.read s.mem a) else .busError := by
  split
  · next hb => exact memRead_data_iff.2 ⟨ha, hb, rfl⟩
  · next hb => exact memRead_busError_iff.2 ⟨ha, Bool.eq_false_of_not_eq_true hb⟩

theorem memWrite_eq_ite {s : State} {a : Nat} (v : Byte) (ha : a < 2 ^ 32) :
    s.memWrite a v = if s.busOk a .write = true then .wrote (Memory.write s.mem a v) else .busError := by
  split
  · next hb => exact memWrite_wrote_iff.2 ⟨ha, hb, rfl⟩
  · next hb => exact memWrite_busError_iff.2 ⟨ha, Bool.eq_false_of_not_eq_true hb⟩

theorem inOwnWindow_iff {s : State} {a : Nat} :
    s.inOwnWindow a = true ↔ s.cryptoBase ≤ a ∧ a < s.cryptoBase + 64 := decide_eq_true_iff

/-! ## Events that meet a bus error -/

/-- The converse of `cbcEvent_cases`: the event of a position leads where `CbcNext` says. -/
theorem cbcEvent_of_next {dir : Direction} {s t : State} {e : Engine} (he : s.phase = .busy e)
    (h : CbcNext dir s e t) : cbcEvent dir s = .next t := by
  cases h with
  | check p hp =>
    unfold cbcCheckNext at hp
    split at hp <;> cases hp <;> next hpos => simp only [cbcEvent, he, hpos]
  | finish c hpos => simp only [cbcEvent, he, hpos]
  | load hpos => simp only [cbcEvent, he, hpos, cbcLoadEvent]
  | busError a k hp hlt hb =>
    unfold cbcAccess at hp
    split at hp <;> cases hp
    · next hpos => simp only [cbcEvent, he, hpos, cbcReadEvent, memRead_busError_iff.2 ⟨hlt, hb⟩]
    · next hpos => simp only [cbcEvent, he, hpos, cbcWriteEvent, memWrite_busError_iff.2 ⟨hlt, hb⟩]
  | read i j hpos hlt hb => simp only [cbcEvent, he, hpos, cbcReadEvent, memRead_data_iff.2 ⟨hlt, hb, rfl⟩]
  | compute i hpos => simp only [cbcEvent, he, hpos, cbcComputeEvent]
  | write i j hpos hlt hb => simp only [cbcEvent, he, hpos, cbcWriteEvent, memWrite_wrote_iff.2 ⟨hlt, hb, rfl⟩]

/-- The finish is the same event for every command (rule R56). -/
theorem exec_finish (i : Instr) {s : State} {e : Engine} {c : ResultCode} (he : s.phase = .busy e)
    (hpos : e.pos = .finish c) : exec i s = .next (s.finish c) := by
  obtain ⟨dir, rfl⟩ | ⟨kind, rfl⟩ := instr_cases i
  · rw [exec_cbc]
    exact cbcEvent_of_next he (.finish c hpos)
  · rw [exec_cmac]
    exact cmacEvent_of_next he (.finish c hpos)

theorem execTimes_succ {i : Instr} {s t : State} (h : exec i s = .next t) (k : Nat) :
    execTimes i (k + 1) s = execTimes i k t := by
  simp only [execTimes, h]

/-- An event that leads to the finish position ends the command with the event after it: the position is internal
state, which the finish clears (rules R27, R56). -/
theorem execTimes_two_of_goto_finish {i : Instr} {s : State} {e : Engine} {c : ResultCode}
    (h : exec i s = .next (s.goto e (.finish c))) : execTimes i 2 s = .next (s.finish c) := by
  rw [execTimes_succ h, execTimes_succ (exec_finish i (goto_phase s e _) rfl)]
  rfl

/-- An access of a CBC command that the bus does not complete ends it with `OP_ERR` (rules R36, R76). -/
theorem cbc_ends_on_busError (dir : Direction) {s : State} {e : Engine} {a : Nat} {k : AccessKind}
    (he : s.phase = .busy e) (hacc : cbcAccess s e.pos = some (a, k)) (hlt : a < 2 ^ 32)
    (hb : s.busOk a k = false) : execTimes (cbcInstr dir) 2 s = .next (s.finish .opErr) := by
  refine execTimes_two_of_goto_finish (e := e) ?_
  rw [exec_cbc]
  exact cbcEvent_of_next he (.busError a k hacc hlt hb)

/-- An access of a CMAC command that the bus does not complete ends it with `OP_ERR` (rules R36, R86). -/
theorem cmac_ends_on_busError (kind : TagKind) {s : State} {e : Engine} {a : Nat} {k : AccessKind}
    (he : s.phase = .busy e) (hacc : cmacAccess s e.pos = some (a, k)) (hlt : a < 2 ^ 32)
    (hb : s.busOk a k = false) : execTimes (cmacInstr kind) 2 s = .next (s.finish .opErr) := by
  refine execTimes_two_of_goto_finish (e := e) ?_
  rw [exec_cmac]
  exact cmacEvent_of_next he (.busError a k hacc hlt hb)

/-! ## The host's memory accesses -/

theorem step_memStore {s : State} {a : Word} {v : Byte} {rest : List Input}
    (h : s.inputs = .memStore a v :: rest) :
    step s = .next { s with mem := Memory.write s.mem a.toNat v, inputs := rest } :=
  step_host (by simp) h

theorem step_memLoad {s : State} {a : Word} {rest : List Input} (h : s.inputs = .memLoad a :: rest) :
    step s = .next { s with
      inputs := rest, responses := .loaded (Memory.read s.mem a.toNat) :: s.responses } :=
  step_host (by simp) h

/-! ## The statements about memory and its port -/

/-- Settles O17: a step keeps the platform, the port answers by `BUS_OK` alone, and `BUS_OK` excludes the core's own
window. -/
theorem busOkNeverChanges : Obligations.BusOkNeverChanges :=
  ⟨fun _ _ h => ⟨(step_platform h).cryptoBase, (step_platform h).busOk⟩,
    fun _ _ v ha => ⟨memRead_eq_ite ha, memWrite_eq_ite v ha⟩,
    fun _ _ kind hlo hhi => busOk_window kind (inOwnWindow_iff.2 ⟨hlo, hhi⟩)⟩

/-- Settles O6: the run is the step of the store and the step of the load, and the load answers what a read after
the write gives. -/
theorem hostLoadSeesTheLastStore : Obligations.HostLoadSeesTheLastStore := by
  intro s a b v hwf hi
  have hanswer : Memory.read (Memory.write s.mem a.toNat v) b.toNat =
      if b = a then v else Memory.read s.mem b.toNat := by
    simp only [read_write hwf, BitVec.toNat_inj]
  rw [run_succ (step_memStore hi), run_succ (step_memLoad rfl)]
  exact ⟨_, rfl, by rw [hanswer], rfl⟩

/-- Settles O24: each of the five positions is an access of its command. -/
theorem busErrorEndsTheCommand : Obligations.BusErrorEndsTheCommand := fun _ _ he =>
  ⟨fun dir _ _ hpos => cbc_ends_on_busError dir he (by rw [hpos]; rfl),
    fun dir _ _ hpos => cbc_ends_on_busError dir he (by rw [hpos]; rfl),
    fun kind _ hpos => cmac_ends_on_busError kind he (by rw [hpos]; rfl),
    fun kind _ hpos => cmac_ends_on_busError kind he (by rw [hpos]; rfl),
    fun kind _ hpos => cmac_ends_on_busError kind he (by rw [hpos]; rfl)⟩

end Sys2Proof.Proofs
end

section
/-! Command words (rules R45 to R49): the two fields determine the word, so the decoder inverts the encoder, and a
word that it rejects ends with `BAD_CMD`. -/

namespace Sys2Proof.Proofs

open Sys2Proof Sys2Proof.Machine Sys2Proof.Laws

/-! ## The fields of a command word -/

/-- `OP = v[3:0]` (rule R46). -/
theorem commandFields_op_toNat (v : Word) : (commandFields v).op.toNat = v.toNat % 16 :=
  BitVec.extractLsb'_toNat 0 4 v

/-- `RSVD = v[31:4]` (rule R46). -/
theorem commandFields_rsvd_toNat (v : Word) : (commandFields v).rsvd.toNat = v.toNat / 16 := by
  simp only [commandFields, BitVec.extractLsb'_toNat, Nat.shiftRight_eq_div_pow]
  omega

theorem toWord_commandFields (v : Word) : (commandFields v).toWord = v :=
  BitVec.extractLsb'_append_extractLsb' (w := 28) (len := 4)

theorem commandFields_toWord (c : CommandWord) : commandFields c.toWord = c := by
  unfold commandFields CommandWord.toWord
  rw [BitVec.extractLsb'_append_eq_of_add_le (by decide), BitVec.extractLsb'_append_eq_of_le (by decide),
    BitVec.extractLsb'_eq_self, BitVec.extractLsb'_eq_self]

/-! ## The decoder -/

/-- The opcode map is one to one on the four commands (rule R47). -/
theorem decodeOp_eq_ok_iff : ∀ (op : BitVec 4) (i : Instr), decodeOp op = .ok i ↔ op = opOf i := by
  intro op i
  revert op
  cases i <;> decide

theorem decode_eq_ok_iff_fields (v : Word) (i : Instr) :
    decode v = .ok i ↔ (commandFields v).rsvd = 0 ∧ (commandFields v).op = opOf i := by
  rw [← decodeOp_eq_ok_iff]
  unfold decode
  split
  · next hclear => exact (and_iff_right hclear).symm
  · next hset => exact ⟨nofun, fun h => absurd h.1 hset⟩

/-- A word decodes to a command exactly when it is the command's word (rules R46, R47). -/
theorem decode_eq_ok_iff (v : Word) (i : Instr) : decode v = .ok i ↔ v = encode i := by
  constructor
  · intro h
    obtain ⟨hrsvd, hop⟩ := (decode_eq_ok_iff_fields v i).1 h
    rw [← toWord_commandFields v, encode, ← hrsvd, ← hop]
  · rintro rfl
    exact decode_encode i

theorem decode_eq_error_of_not_ok {v : Word} (h : ¬∃ i, decode v = .ok i) : ∃ r, decode v = .error r := by
  cases hd : decode v with
  | ok i => exact absurd ⟨i, hd⟩ h
  | error r => exact ⟨r, rfl⟩

/-- `OP` is that of some command exactly when it is 1, 2, 3 or 4 (rule R47). -/
theorem exists_opOf_iff (op : BitVec 4) :
    (∃ i, op = opOf i) ↔ op.toNat = 1 ∨ op.toNat = 2 ∨ op.toNat = 3 ∨ op.toNat = 4 := by
  constructor
  · rintro ⟨i, rfl⟩
    cases i <;> decide
  · rintro (h | h | h | h)
    · exact ⟨.cbcEnc, BitVec.eq_of_toNat_eq h⟩
    · exact ⟨.cbcDec, BitVec.eq_of_toNat_eq h⟩
    · exact ⟨.cmac128, BitVec.eq_of_toNat_eq h⟩
    · exact ⟨.cmac64, BitVec.eq_of_toNat_eq h⟩

/-- `legal(v)` of rule R46, as a condition on the number `v`. -/
theorem exists_decode_iff (v : Word) : (∃ i, decode v = .ok i) ↔
    v.toNat / 16 = 0 ∧ (v.toNat % 16 = 1 ∨ v.toNat % 16 = 2 ∨ v.toNat % 16 = 3 ∨ v.toNat % 16 = 4) := by
  have hclear : (commandFields v).rsvd = 0 ↔ v.toNat / 16 = 0 := by
    rw [← commandFields_rsvd_toNat]
    exact BitVec.toNat_inj.symm
  simp only [decode_eq_ok_iff_fields, exists_and_left, exists_opOf_iff, commandFields_op_toNat, hclear]

/-! ## The statements about command words -/

/-- Settles O1. -/
theorem commandWordsDecodeAsTabled : Obligations.CommandWordsDecodeAsTabled :=
  ⟨decode_encode .cbcEnc, decode_encode .cbcDec, decode_encode .cmac128, decode_encode .cmac64,
    by decide, by decide, by decide⟩

/-- Settles O2: the decoder inverts the encoder, and rejects every other word. -/
theorem eachCommandHasExactlyOneWord : Obligations.EachCommandHasExactlyOneWord := by
  refine ⟨rfl, rfl, rfl, rfl, decode_eq_ok_iff, fun v hv => decode_eq_error_of_not_ok ?_⟩
  rintro ⟨i, hi⟩
  exact hv i ((decode_eq_ok_iff v i).1 hi)

/-- Settles O3. -/
theorem legalWordsAreThoseOfTheFields : Obligations.LegalWordsAreThoseOfTheFields := fun v =>
  ⟨commandFields_op_toNat v, commandFields_rsvd_toNat v, exists_decode_iff v⟩

/-! ## A reserved word -/

theorem coreStep_of_error {s : State} {e : Engine} {r : DecodeError} (he : s.phase = .busy e)
    (hr : decode e.cmdword = .error r) : coreStep s = rejectEvent s e := by
  simp only [coreStep, he, hr]

/-- Two turns of the core end a reserved word that was just accepted with `BAD_CMD` (rules R49, R54). -/
theorem run_reserved {s : State} {v : Word} {r : DecodeError} (hi : s.inputs = [])
    (hp : s.phase = .busy (Engine.start v)) (hr : decode v = .error r) :
    Host.Core.run core 2 s = .next (s.finish .badCmd) := by
  have hdispatch : step s = .next (s.goto (Engine.start v) (.finish .badCmd)) := by
    rw [step_core hi, coreStep_of_error hp hr]
    rfl
  have hfinish : step (s.goto (Engine.start v) (.finish .badCmd)) = .next (s.finish .badCmd) := by
    rw [step_core (by exact hi), coreStep_of_error (goto_phase s _ _) hr]
    rfl
  rw [run_succ hdispatch, run_succ hfinish]
  rfl

/-- Settles O23: the write is the acceptance, and the two turns of the core after it reject the word. -/
theorem reservedWordEndsWithBadCmd : Obligations.ReservedWordEndsWithBadCmd := by
  intro s v hidle hi hillegal
  obtain ⟨r, hr⟩ := decode_eq_error_of_not_ok fun hok => hillegal ((exists_decode_iff v).1 hok)
  rw [run_succ (step_regWrite (slot := .cmd) (by decide) hi), hostWrite_of_idle hidle]
  exact run_reserved rfl rfl hr

end Sys2Proof.Proofs
end

section
/-! The `KEY` and `IV` lines of a host program (rule R51): the run of a list of register writes, and the
words of a number of 32 hex digits. -/

namespace Sys2Proof.Proofs

open Sys2Proof Sys2Proof.Machine Sys2Proof.Laws

/-- `HostWrite` of each slot of a list, in its order. -/
def hostWrites (s : State) (writes : List (Slot × Word)) : State :=
  writes.foldl (fun u w => u.hostWrite w.1 w.2) s

/-- A host write neither reads nor writes the queue and the answers. -/
theorem hostWrite_queue (s : State) (l : List Input) (r : List Response) (slot : Slot) (v : Word) :
    State.hostWrite { s with inputs := l, responses := r } slot v =
      { s.hostWrite slot v with inputs := l, responses := r } := by
  cases hb : s.busy with
  | true => rw [hostWrite_of_busy hb, hostWrite_of_busy (by exact hb)]
  | false =>
    rw [hostWrite_of_idle hb, hostWrite_of_idle (by exact hb)]
    cases slot <;> rfl

theorem hostWrites_queue (writes : List (Slot × Word)) : ∀ (s : State) (l : List Input) (r : List Response),
    hostWrites { s with inputs := l, responses := r } writes =
      { hostWrites s writes with inputs := l, responses := r } := by
  induction writes with
  | nil => exact fun _ _ _ => rfl
  | cons w rest ih =>
    intro s l r
    simp only [hostWrites, List.foldl_cons, hostWrite_queue]
    exact ih (s.hostWrite w.1 w.2) l r

/-- A run of `WR` lines is `HostWrite` of each slot in turn; only the queue and the answers differ (rules R15,
R51). -/
theorem run_wrLines (writes : List (Slot × Word)) : ∀ s : State,
    s.inputs = writes.map (fun w => wrLine w.1 w.2) →
    ∃ answers, Host.Core.run core writes.length s =
      .next { hostWrites s writes with inputs := [], responses := answers } := by
  induction writes with
  | nil =>
    intro s hi
    refine ⟨s.responses, congrArg _ ?_⟩
    change s = { s with inputs := [] }
    rw [← show s.inputs = [] from hi]
  | cons w rest ih =>
    intro s hi
    obtain ⟨answers, hrun⟩ := ih { s.hostWrite w.1 w.2 with
      inputs := rest.map fun w => wrLine w.1 w.2, responses := .writeDone :: s.responses } rfl
    refine ⟨answers, ?_⟩
    rw [List.length_cons, run_succ (step_regWrite (accessedSlot_slotOffset w.1) hi), hrun, hostWrites_queue]
    rfl

/-! ## The words of 32 hex digits -/

/-- The writes of a line of 32 hex digits to the four slots of a register (rule R51). -/
def digitWrites (slot : Fin 4 → Slot) (digits : BitVec 128) : List (Slot × Word) :=
  [0, 1, 2, 3].map fun k => (slot k, digitsWord digits k)

/-- A field of a field is the field at the sum of the offsets. -/
theorem extractLsb'_extractLsb' {w : Nat} (x : BitVec w) {a b m n : Nat} (h : b + n ≤ m) :
    (x.extractLsb' a m).extractLsb' b n = x.extractLsb' (a + b) n := by
  ext j hj
  simp only [BitVec.getElem_extractLsb', BitVec.getLsbD_extractLsb', Nat.add_assoc]
  rw [decide_eq_true (by omega), Bool.true_and]

/-- The bytes of the four words are the bytes of the digits, in their order (rules R8, R25, R26, R51). -/
theorem blockOfWords_digitsWord (digits : BitVec 128) :
    blockOfWords (Vector.ofFn (digitsWord digits)) = bytes128 digits := by
  ext1 k hk
  simp only [blockOfWords, bytes128, Vector.getElem_ofFn, wordByte, digitsWord, Fin.val_ofNat]
  rw [extractLsb'_extractLsb' _ (by omega)]
  congr 1
  omega

/-- Nothing is left of a vector of four elements once each of them is set. -/
theorem set_four {α : Type} (v : Vector α 4) (f : Fin 4 → α) :
    (((v.set 0 (f 0)).set 1 (f 1)).set 2 (f 2)).set 3 (f 3) = Vector.ofFn f := by
  ext k hk
  interval_cases k <;> simp

/-- Whatever `KEYW` was, it is 0b1111 once the four key slots are written (rules R22, R55). -/
theorem keywWithBit_four : ∀ keyw : BitVec 4,
    keywWithBit (keywWithBit (keywWithBit (keywWithBit keyw 0) 1) 2) 3 = 0b1111 := by decide

theorem hostWrites_key {s : State} (h : s.phase = .idle) (digits : BitVec 128) :
    hostWrites s (digitWrites .key digits) =
      { s with key := Vector.ofFn (digitsWord digits), keyw := 0b1111 } := by
  rw [← set_four s.key, ← keywWithBit_four s.keyw]
  cases s
  cases h
  rfl

theorem hostWrites_iv {s : State} (h : s.phase = .idle) (digits : BitVec 128) :
    hostWrites s (digitWrites .iv digits) = { s with iv := Vector.ofFn (digitsWord digits) } := by
  rw [← set_four s.iv]
  cases s
  cases h
  rfl

/-- Settles O19: the run of each line is its four writes, and they set all four words of the register. -/
theorem keyAndIvLinesWriteTheDigits : Obligations.KeyAndIvLinesWriteTheDigits := by
  intro s digits hidle
  obtain ⟨_, hkey⟩ := run_wrLines (digitWrites .key digits) { s with inputs := lineInputs (.key digits) } rfl
  obtain ⟨_, hiv⟩ := run_wrLines (digitWrites .iv digits) { s with inputs := lineInputs (.iv digits) } rfl
  rw [hostWrites_key (by exact hidle)] at hkey
  rw [hostWrites_iv (by exact hidle)] at hiv
  exact ⟨⟨_, hkey, blockOfWords_digitsWord digits, rfl, hidle, rfl⟩,
    ⟨_, hiv, blockOfWords_digitsWord digits, rfl, hidle, rfl⟩⟩

end Sys2Proof.Proofs
end

section
/-! A running command goes on to its finish (rules R53, R58): from every position that the invariant allows there is
a next event, which leads to a position that it allows and that fewer events separate from the finish. -/

namespace Sys2Proof.Proofs

open Sys2Proof Sys2Proof.Machine Sys2Proof.Laws

/-! ## How many events separate a position from the finish -/

/-- The events of `cbc_run` from a position to its finish, where every check and access succeeds (rule R76). -/
def cbcToFinish (s : State) : Position → Nat
  | .dispatch => 33 * s.cbcBlocks + 5
  | .cbcKeyCheck => 33 * s.cbcBlocks + 4
  | .cbcLengthCheck => 33 * s.cbcBlocks + 3
  | .cbcRangeCheck => 33 * s.cbcBlocks + 2
  | .cbcLoad => 33 * s.cbcBlocks + 1
  | .cbcRead i j => 33 * (s.cbcBlocks - i) - j
  | .cbcCompute i => 33 * (s.cbcBlocks - i) - 16
  | .cbcWrite i j => 33 * (s.cbcBlocks - i) - 17 - j
  | _ => 0

/-- The events of `cmac_run` from a position to its finish, where every check and access succeeds (rule R86). -/
def cmacToFinish (kind : TagKind) (s : State) : Position → Nat
  | .dispatch => 2 * tagLength kind + s.length + 6
  | .cmacTagRangeCheck => 2 * tagLength kind + s.length + 5
  | .cmacZero j => 2 * tagLength kind + s.length + 4 - j
  | .cmacKeyCheck => tagLength kind + s.length + 4
  | .cmacMessageRangeCheck => tagLength kind + s.length + 3
  | .cmacLoad => tagLength kind + s.length + 2
  | .cmacRead m => tagLength kind + (s.length - m) + 1
  | .cmacTag => tagLength kind + 1
  | .cmacWrite j => tagLength kind - j
  | _ => 0

/-- The events of a reserved word from a position to its finish (rules R49, R54). -/
def rejectToFinish : Position → Nat
  | .dispatch => 1
  | _ => 0

/-- The events of the latched word from its position to its finish. -/
def eventsToFinish (s : State) (e : Engine) : Nat :=
  match decode e.cmdword with
  | .ok .cbcEnc => cbcToFinish s e.pos
  | .ok .cbcDec => cbcToFinish s e.pos
  | .ok .cmac128 => cmacToFinish .full s e.pos
  | .ok .cmac64 => cmacToFinish .selected s e.pos
  | .error _ => rejectToFinish e.pos

/-- The core is idle, or runs at a position its command can have with fewer than `n` events before the finish. -/
def FinishesWithin (n : Nat) (s : State) : Prop :=
  ∀ e, s.phase = .busy e → positionOk s e = true ∧ eventsToFinish s e < n

theorem finishesWithin_of_idle {s : State} (h : s.phase = .idle) (n : Nat) : FinishesWithin n s :=
  fun _ he => nomatch h.symm.trans he

theorem finishesWithin_of_busy {n : Nat} {s : State} {e : Engine} (he : s.phase = .busy e)
    (hok : positionOk s e = true) (hlt : eventsToFinish s e < n) : FinishesWithin n s := by
  intro f hf
  cases he.symm.trans hf
  exact ⟨hok, hlt⟩

section
variable {e : Engine}

theorem positionOk_cbc {dir : Direction} (s : State) (hd : decode e.cmdword = .ok (cbcInstr dir)) :
    positionOk s e = cbcPositionOk s e.pos := by
  unfold positionOk
  rw [hd]
  cases dir <;> rfl

theorem eventsToFinish_cbc {dir : Direction} (s : State) (hd : decode e.cmdword = .ok (cbcInstr dir)) :
    eventsToFinish s e = cbcToFinish s e.pos := by
  unfold eventsToFinish
  rw [hd]
  cases dir <;> rfl

theorem positionOk_cmac {kind : TagKind} (s : State) (hd : decode e.cmdword = .ok (cmacInstr kind)) :
    positionOk s e = cmacPositionOk kind s e.pos := by
  unfold positionOk
  rw [hd]
  cases kind <;> rfl

theorem eventsToFinish_cmac {kind : TagKind} (s : State) (hd : decode e.cmdword = .ok (cmacInstr kind)) :
    eventsToFinish s e = cmacToFinish kind s e.pos := by
  unfold eventsToFinish
  rw [hd]
  cases kind <;> rfl

theorem positionOk_reserved {r : DecodeError} (s : State) (hd : decode e.cmdword = .error r) :
    positionOk s e = rejectPositionOk e.pos := by
  unfold positionOk
  rw [hd]

theorem eventsToFinish_reserved {r : DecodeError} (s : State) (hd : decode e.cmdword = .error r) :
    eventsToFinish s e = rejectToFinish e.pos := by
  unfold eventsToFinish
  rw [hd]

end

/-! ## The checks that a command has passed -/

theorem inRange_iff {a n : Nat} : inRange a n = true ↔ a + n ≤ 2 ^ 32 := decide_eq_true_iff

theorem cbcChecked_iff {s : State} : s.cbcChecked = true ↔
    s.keySupplied = true ∧ cbcLengthOk s.length = true ∧
      s.srcAddr + s.length ≤ 2 ^ 32 ∧ s.dstAddr + s.length ≤ 2 ^ 32 := by
  simp only [State.cbcChecked, Bool.and_eq_true, inRange_iff, and_assoc]

theorem cmacChecked_iff {s : State} {kind : TagKind} : s.cmacChecked kind = true ↔
    s.dstAddr + tagLength kind ≤ 2 ^ 32 ∧ s.keySupplied = true ∧ s.srcAddr + s.length ≤ 2 ^ 32 := by
  simp only [State.cmacChecked, Bool.and_eq_true, inRange_iff, and_assoc]

theorem tagLength_pos (kind : TagKind) : 0 < tagLength kind := by cases kind <;> decide

theorem tagLength_le (kind : TagKind) : tagLength kind ≤ 16 := by cases kind <;> decide

/-- The address of byte `j` of block `i` stands in a range of whole blocks that starts at `a`. -/
theorem block_addr_lt {s : State} {i a : Nat} {j : Fin 16} (hi : i < s.cbcBlocks) (ha : a + s.length ≤ 2 ^ 32) :
    a + 16 * i + j < 2 ^ 32 := by
  have hj := j.isLt
  unfold State.cbcBlocks at hi
  omega

theorem val_add_one_of_ne_last {j : Fin 16} (h : j ≠ 15) : (j + 1).val = j.val + 1 :=
  Fin.val_add_one_of_lt (Fin.lt_last_iff_ne_last.2 h)

theorem val_add_one_of_lt_tagLength {kind : TagKind} {j : Fin 16} (h : j.val + 1 < tagLength kind) :
    (j + 1).val = j.val + 1 := by
  have hlen := tagLength_le kind
  exact Fin.val_add_one_of_lt (Fin.lt_def.2 (by simp only [Fin.val_last]; omega))

/-! ## CBC -/

/-- An event that leads on to a position closer to the finish. -/
theorem cbc_finishesWithin {dir : Direction} {n : Nat} {s : State} {f : Engine}
    (hd : decode f.cmdword = .ok (cbcInstr dir)) (m : Memory) (hok : cbcPositionOk s f.pos = true)
    (hlt : cbcToFinish s f.pos < n) : FinishesWithin n { s.withEngine f with mem := m } :=
  finishesWithin_of_busy rfl ((positionOk_cbc _ hd).trans hok) ((eventsToFinish_cbc _ hd).trans_lt hlt)

theorem cbcCheck_closer {s : State} {p q : Position} (hq : cbcCheckNext s p = some q)
    (hok : cbcPositionOk s p = true) : cbcPositionOk s q = true ∧ cbcToFinish s q < cbcToFinish s p := by
  unfold cbcCheckNext at hq
  split at hq <;> cases hq
  · exact ⟨rfl, Nat.lt_succ_self _⟩
  · unfold State.keyCheck
    split
    · next hkey => exact ⟨hkey, Nat.lt_succ_self _⟩
    · next hkey => exact ⟨by simpa [cbcPositionOk] using hkey, Nat.succ_pos _⟩
  · unfold opCheck
    split
    · next hlen => exact ⟨by simpa [cbcPositionOk, hlen] using hok, Nat.lt_succ_self _⟩
    · exact ⟨hok, Nat.succ_pos _⟩
  · obtain ⟨hkey, hlen⟩ : s.keySupplied = true ∧ cbcLengthOk s.length = true := by
      simpa [cbcPositionOk] using hok
    unfold opCheck
    split
    · next hrange =>
      exact ⟨by simpa [cbcPositionOk, State.cbcChecked, hkey, hlen] using hrange, Nat.lt_succ_self _⟩
    · exact ⟨hkey, Nat.succ_pos _⟩

/-- The positions of block `i`: a read, the computation and a write (rule R76). -/
theorem cbcPositionOk_block_iff {s : State} {i : Nat} :
    (s.cbcChecked && decide (i < s.cbcBlocks)) = true ↔ s.cbcChecked = true ∧ i < s.cbcBlocks := by
  rw [Bool.and_eq_true, decide_eq_true_iff]

theorem cbcLoopHead_closer {s : State} (h : s.cbcChecked = true) (i : Nat) :
    cbcPositionOk s (s.cbcLoopHead i) = true ∧
      cbcToFinish s (s.cbcLoopHead i) ≤ 33 * (s.cbcBlocks - i) := by
  unfold State.cbcLoopHead
  split
  · next hi => exact ⟨cbcPositionOk_block_iff.2 ⟨h, hi⟩, Nat.sub_le _ _⟩
  · exact ⟨h, Nat.zero_le _⟩

/-- Every access of a CBC command comes before the finish, and after the key check. -/
theorem cbcAccess_ok {s : State} {p : Position} {access : Nat × AccessKind} (h : cbcAccess s p = some access)
    (hok : cbcPositionOk s p = true) : s.keySupplied = true ∧ 0 < cbcToFinish s p := by
  unfold cbcAccess at h
  split at h <;> cases h
  all_goals
    next i j =>
    obtain ⟨hchecked, hi⟩ := cbcPositionOk_block_iff.1 hok
    have hj := j.isLt
    exact ⟨(cbcChecked_iff.1 hchecked).1, by simp only [cbcToFinish]; omega⟩

/-- Every event of a CBC command but the finish leads closer to the finish. -/
theorem cbcNext_closer {dir : Direction} {n : Nat} {s t : State} {e : Engine}
    (hd : decode e.cmdword = .ok (cbcInstr dir)) (hok : cbcPositionOk s e.pos = true)
    (hlt : cbcToFinish s e.pos < n + 1) (h : CbcNext dir s e t) : FinishesWithin n t := by
  have leadsOn : ∀ f m, f.cmdword = e.cmdword → cbcPositionOk s f.pos = true ∧
      cbcToFinish s f.pos < cbcToFinish s e.pos → FinishesWithin n { s.withEngine f with mem := m } :=
    fun f m hcmd hf => cbc_finishesWithin (hcmd ▸ hd) m hf.1 (by omega)
  cases h with
  | check p hp => exact leadsOn { e with pos := p } s.mem rfl (cbcCheck_closer hp hok)
  | finish c hp => exact finishesWithin_of_idle rfl n
  | load hp =>
    rw [hp] at hok leadsOn
    obtain ⟨hheadOk, hhead⟩ := cbcLoopHead_closer hok 0
    exact leadsOn _ s.mem rfl ⟨hheadOk, Nat.lt_succ_of_le hhead⟩
  | busError a k hp => exact leadsOn { e with pos := .finish .opErr } s.mem rfl (cbcAccess_ok hp hok)
  | read i j hp =>
    rw [hp] at hok leadsOn
    obtain ⟨hchecked, hi⟩ := cbcPositionOk_block_iff.1 hok
    refine leadsOn _ s.mem rfl ?_
    dsimp only
    split
    · next hlast => exact ⟨hok, by simp only [cbcToFinish, hlast]; omega⟩
    · next hlast =>
      have hj := j.isLt
      exact ⟨hok, by simp only [cbcToFinish, val_add_one_of_ne_last hlast]; omega⟩
  | compute i hp =>
    rw [hp] at hok leadsOn
    obtain ⟨hchecked, hi⟩ := cbcPositionOk_block_iff.1 hok
    exact leadsOn _ s.mem rfl ⟨hok, by simp only [cbcToFinish]; omega⟩
  | write i j hp =>
    rw [hp] at hok leadsOn
    obtain ⟨hchecked, hi⟩ := cbcPositionOk_block_iff.1 hok
    refine leadsOn { e with pos := _ } _ rfl ?_
    have hj := j.isLt
    dsimp only
    split
    · obtain ⟨hheadOk, hhead⟩ := cbcLoopHead_closer hchecked (i + 1)
      exact ⟨hheadOk, hhead.trans_lt (by simp only [cbcToFinish]; omega)⟩
    · next hlast => exact ⟨hok, by simp only [cbcToFinish, val_add_one_of_ne_last hlast]; omega⟩

/-- The checks that a CBC command has passed keep its accesses in the memory space (rule R35). -/
theorem cbcAccess_lt {s : State} {p : Position} {a : Nat} {k : AccessKind} (h : cbcAccess s p = some (a, k))
    (hok : cbcPositionOk s p = true) : a < 2 ^ 32 := by
  unfold cbcAccess at h
  split at h <;> cases h
  all_goals
    obtain ⟨hchecked, hi⟩ := cbcPositionOk_block_iff.1 hok
    obtain ⟨-, -, hsrc, hdst⟩ := cbcChecked_iff.1 hchecked
  · exact block_addr_lt hi hsrc
  · exact block_addr_lt hi hdst

/-- A CBC command has a next event. -/
theorem exists_cbcNext (dir : Direction) {s : State} {e : Engine} (hok : cbcPositionOk s e.pos = true) :
    ∃ t, CbcNext dir s e t := by
  by_cases hstopped : ∃ a k, cbcAccess s e.pos = some (a, k) ∧ s.busOk a k = false
  · obtain ⟨a, k, hacc, hb⟩ := hstopped
    exact ⟨_, .busError a k hacc (cbcAccess_lt hacc hok) hb⟩
  have completes : ∀ {a k}, cbcAccess s e.pos = some (a, k) → a < 2 ^ 32 ∧ s.busOk a k = true :=
    fun hacc => ⟨cbcAccess_lt hacc hok, Bool.eq_true_of_not_eq_false fun hb => hstopped ⟨_, _, hacc, hb⟩⟩
  cases hp : e.pos with
  | dispatch | cbcKeyCheck | cbcLengthCheck | cbcRangeCheck => exact ⟨_, .check _ (by rw [hp]; rfl)⟩
  | finish c => exact ⟨_, .finish c hp⟩
  | cbcLoad => exact ⟨_, .load hp⟩
  | cbcRead i j =>
    obtain ⟨hlt, hb⟩ := completes (a := s.cbcReadAddr i j) (k := .read) (by rw [hp]; rfl)
    exact ⟨_, .read i j hp hlt hb⟩
  | cbcCompute i => exact ⟨_, .compute i hp⟩
  | cbcWrite i j =>
    obtain ⟨hlt, hb⟩ := completes (a := s.cbcWriteAddr i j) (k := .write) (by rw [hp]; rfl)
    exact ⟨_, .write i j hp hlt hb⟩
  | _ =>
    rw [hp] at hok
    cases hok

/-! ## CMAC -/

/-- An event that leads on to a position closer to the finish. -/
theorem cmac_finishesWithin {kind : TagKind} {n : Nat} {s : State} {f : Engine}
    (hd : decode f.cmdword = .ok (cmacInstr kind)) (m : Memory) (hok : cmacPositionOk kind s f.pos = true)
    (hlt : cmacToFinish kind s f.pos < n) : FinishesWithin n { s.withEngine f with mem := m } :=
  finishesWithin_of_busy rfl ((positionOk_cmac _ hd).trans hok) ((eventsToFinish_cmac _ hd).trans_lt hlt)

theorem cmacPositionOk_zero_iff {kind : TagKind} {s : State} {j : Fin 16} :
    cmacPositionOk kind s (.cmacZero j) = true ↔
      inRange s.dstAddr (tagLength kind) = true ∧ j.val < tagLength kind := by
  simp [cmacPositionOk]

theorem cmacPositionOk_read_iff {kind : TagKind} {s : State} {m : Nat} :
    cmacPositionOk kind s (.cmacRead m) = true ↔ s.cmacChecked kind = true ∧ m < s.length := by
  simp [cmacPositionOk]

theorem cmacPositionOk_write_iff {kind : TagKind} {s : State} {j : Fin 16} :
    cmacPositionOk kind s (.cmacWrite j) = true ↔ s.cmacChecked kind = true ∧ j.val < tagLength kind := by
  simp [cmacPositionOk]

theorem cmacCheck_closer {kind : TagKind} {s : State} {p q : Position} (hq : cmacCheckNext kind s p = some q)
    (hok : cmacPositionOk kind s p = true) :
    cmacPositionOk kind s q = true ∧ cmacToFinish kind s q < cmacToFinish kind s p := by
  unfold cmacCheckNext at hq
  split at hq <;> cases hq
  · exact ⟨rfl, Nat.lt_succ_self _⟩
  · unfold opCheck
    split
    · next hrange => exact ⟨cmacPositionOk_zero_iff.2 ⟨hrange, tagLength_pos kind⟩, Nat.lt_succ_self _⟩
    · exact ⟨rfl, Nat.succ_pos _⟩
  · have hrange : inRange s.dstAddr (tagLength kind) = true := hok
    unfold State.keyCheck
    split
    · next hkey => exact ⟨by simp [cmacPositionOk, hrange, hkey], Nat.lt_succ_self _⟩
    · next hkey => exact ⟨by simpa [cmacPositionOk, hrange] using hkey, Nat.succ_pos _⟩
  · unfold opCheck
    split
    · next hrange => exact ⟨Bool.and_eq_true_iff.2 ⟨hok, hrange⟩, Nat.lt_succ_self _⟩
    · exact ⟨rfl, Nat.succ_pos _⟩

theorem cmacLoopHead_closer {kind : TagKind} {s : State} (h : s.cmacChecked kind = true) (m : Nat) :
    cmacPositionOk kind s (s.cmacLoopHead m) = true ∧
      cmacToFinish kind s (s.cmacLoopHead m) ≤ tagLength kind + (s.length - m) + 1 := by
  unfold State.cmacLoopHead
  split
  · next hm => exact ⟨cmacPositionOk_read_iff.2 ⟨h, hm⟩, le_rfl⟩
  · exact ⟨h, by simp only [cmacToFinish]; omega⟩

/-- Every access of a CMAC command comes before the finish. -/
theorem cmacAccess_pos {kind : TagKind} {s : State} {p : Position} {access : Nat × AccessKind}
    (h : cmacAccess s p = some access) (hok : cmacPositionOk kind s p = true) : 0 < cmacToFinish kind s p := by
  unfold cmacAccess at h
  split at h <;> cases h
  · obtain ⟨-, hj⟩ := cmacPositionOk_zero_iff.1 hok
    simp only [cmacToFinish]
    omega
  · obtain ⟨-, hj⟩ := cmacPositionOk_write_iff.1 hok
    exact Nat.sub_pos_of_lt hj
  · exact Nat.succ_pos _

/-- Every event of a CMAC command but the finish leads closer to the finish. -/
theorem cmacNext_closer {kind : TagKind} {n : Nat} {s t : State} {e : Engine}
    (hd : decode e.cmdword = .ok (cmacInstr kind)) (hok : cmacPositionOk kind s e.pos = true)
    (hlt : cmacToFinish kind s e.pos < n + 1) (h : CmacNext kind s e t) : FinishesWithin n t := by
  have leadsOn : ∀ f m, f.cmdword = e.cmdword → cmacPositionOk kind s f.pos = true ∧
      cmacToFinish kind s f.pos < cmacToFinish kind s e.pos → FinishesWithin n { s.withEngine f with mem := m } :=
    fun f m hcmd hf => cmac_finishesWithin (hcmd ▸ hd) m hf.1 (by omega)
  cases h with
  | check p hp => exact leadsOn { e with pos := p } s.mem rfl (cmacCheck_closer hp hok)
  | finish c hp => exact finishesWithin_of_idle rfl n
  | busError a k hp => exact leadsOn { e with pos := .finish .opErr } s.mem rfl ⟨rfl, cmacAccess_pos hp hok⟩
  | zero j hp =>
    rw [hp] at hok leadsOn
    obtain ⟨hrange, hj⟩ := cmacPositionOk_zero_iff.1 hok
    refine leadsOn { e with pos := _ } _ rfl ?_
    dsimp only [tagLoop]
    split
    · next hmore =>
      have hnext := val_add_one_of_lt_tagLength hmore
      exact ⟨cmacPositionOk_zero_iff.2 ⟨hrange, by omega⟩, by simp only [cmacToFinish, hnext]; omega⟩
    · exact ⟨hrange, by simp only [cmacToFinish]; omega⟩
  | load hp =>
    rw [hp] at hok leadsOn
    obtain ⟨hheadOk, hhead⟩ := cmacLoopHead_closer hok 0
    exact leadsOn _ s.mem rfl ⟨hheadOk, Nat.lt_succ_of_le hhead⟩
  | read m hp hread hb b =>
    rw [hp] at hok leadsOn
    obtain ⟨hchecked, hm⟩ := cmacPositionOk_read_iff.1 hok
    obtain ⟨hheadOk, hhead⟩ := cmacLoopHead_closer hchecked (m + 1)
    exact leadsOn _ s.mem rfl ⟨hheadOk, hhead.trans_lt (by simp only [cmacToFinish]; omega)⟩
  | tag hp =>
    rw [hp] at hok leadsOn
    exact leadsOn _ s.mem rfl ⟨cmacPositionOk_write_iff.2 ⟨hok, tagLength_pos kind⟩, Nat.lt_succ_self _⟩
  | write j hp =>
    rw [hp] at hok leadsOn
    obtain ⟨hchecked, hj⟩ := cmacPositionOk_write_iff.1 hok
    refine leadsOn { e with pos := _ } _ rfl ?_
    dsimp only [tagLoop]
    split
    · next hmore =>
      have hnext := val_add_one_of_lt_tagLength hmore
      exact ⟨cmacPositionOk_write_iff.2 ⟨hchecked, by omega⟩, by simp only [cmacToFinish, hnext]; omega⟩
    · exact ⟨hchecked, Nat.sub_pos_of_lt hj⟩

/-- The checks that a CMAC command has passed keep its accesses in the memory space (rule R35). -/
theorem cmacAccess_lt {kind : TagKind} {s : State} {p : Position} {a : Nat} {k : AccessKind}
    (h : cmacAccess s p = some (a, k)) (hok : cmacPositionOk kind s p = true) : a < 2 ^ 32 := by
  unfold cmacAccess at h
  split at h <;> cases h
  · obtain ⟨hrange, hj⟩ := cmacPositionOk_zero_iff.1 hok
    have hdst := inRange_iff.1 hrange
    unfold State.cmacTagAddr
    omega
  · obtain ⟨hchecked, hj⟩ := cmacPositionOk_write_iff.1 hok
    obtain ⟨hdst, -, -⟩ := cmacChecked_iff.1 hchecked
    unfold State.cmacTagAddr
    omega
  · obtain ⟨hchecked, hm⟩ := cmacPositionOk_read_iff.1 hok
    obtain ⟨-, -, hsrc⟩ := cmacChecked_iff.1 hchecked
    unfold State.cmacReadAddr
    omega

/-- A CMAC command has a next event. -/
theorem exists_cmacNext {kind : TagKind} {s : State} {e : Engine} (hok : cmacPositionOk kind s e.pos = true) :
    ∃ t, CmacNext kind s e t := by
  by_cases hstopped : ∃ a k, cmacAccess s e.pos = some (a, k) ∧ s.busOk a k = false
  · obtain ⟨a, k, hacc, hb⟩ := hstopped
    exact ⟨_, .busError a k hacc (cmacAccess_lt hacc hok) hb⟩
  have completes : ∀ {a k}, cmacAccess s e.pos = some (a, k) → a < 2 ^ 32 ∧ s.busOk a k = true :=
    fun hacc => ⟨cmacAccess_lt hacc hok, Bool.eq_true_of_not_eq_false fun hb => hstopped ⟨_, _, hacc, hb⟩⟩
  cases hp : e.pos with
  | dispatch | cmacTagRangeCheck | cmacKeyCheck | cmacMessageRangeCheck => exact ⟨_, .check _ (by rw [hp]; rfl)⟩
  | finish c => exact ⟨_, .finish c hp⟩
  | cmacZero j =>
    obtain ⟨hlt, hb⟩ := completes (a := s.cmacTagAddr j) (k := .write) (by rw [hp]; rfl)
    exact ⟨_, .zero j hp hlt hb⟩
  | cmacLoad => exact ⟨_, .load hp⟩
  | cmacRead m =>
    obtain ⟨hlt, hb⟩ := completes (a := s.cmacReadAddr m) (k := .read) (by rw [hp]; rfl)
    exact ⟨_, .read m hp hlt hb _ rfl⟩
  | cmacTag => exact ⟨_, .tag hp⟩
  | cmacWrite j =>
    obtain ⟨hlt, hb⟩ := completes (a := s.cmacTagAddr j) (k := .write) (by rw [hp]; rfl)
    exact ⟨_, .write j hp hlt hb⟩
  | _ =>
    rw [hp] at hok
    cases hok

/-! ## A turn of the core -/

/-- A reserved word has a next event, and goes from the dispatch to the finish (rules R49, R54). -/
theorem rejectEvent_closer {n : Nat} {s : State} {e : Engine} {r : DecodeError} (hd : decode e.cmdword = .error r)
    (hok : rejectPositionOk e.pos = true) (hlt : rejectToFinish e.pos < n + 1) :
    ∃ t, rejectEvent s e = .next t ∧ FinishesWithin n t := by
  obtain hp | hp : e.pos = .dispatch ∨ e.pos = .finish .badCmd := by simpa [rejectPositionOk] using hok
  · rw [hp] at hlt
    refine ⟨s.goto e (.finish .badCmd), by simp only [rejectEvent, hp], ?_⟩
    refine finishesWithin_of_busy (goto_phase s e _) ?_ ?_
    · rw [positionOk_reserved _ (by exact hd)]
      rfl
    · rw [eventsToFinish_reserved _ (by exact hd)]
      exact Nat.lt_of_succ_lt_succ hlt
  · exact ⟨s.finish .badCmd, by simp only [rejectEvent, hp], finishesWithin_of_idle rfl n⟩

/-- A command that is legal has a next event, which leads closer to its finish. -/
theorem exec_closer {n : Nat} {s : State} {e : Engine} {i : Instr} (he : s.phase = .busy e)
    (hd : decode e.cmdword = .ok i) (hok : positionOk s e = true) (hlt : eventsToFinish s e < n + 1) :
    ∃ t, exec i s = .next t ∧ FinishesWithin n t := by
  obtain ⟨dir, rfl⟩ | ⟨kind, rfl⟩ := instr_cases i
  · rw [positionOk_cbc s hd] at hok
    rw [eventsToFinish_cbc s hd] at hlt
    obtain ⟨t, ht⟩ := exists_cbcNext dir hok
    exact ⟨t, (exec_cbc dir s).trans (cbcEvent_of_next he ht), cbcNext_closer hd hok hlt ht⟩
  · rw [positionOk_cmac s hd] at hok
    rw [eventsToFinish_cmac s hd] at hlt
    obtain ⟨t, ht⟩ := exists_cmacNext hok
    exact ⟨t, (exec_cmac kind s).trans (cmacEvent_of_next he ht), cmacNext_closer hd hok hlt ht⟩

/-- Every turn of the core brings it closer to the finish (rule R58). -/
theorem coreStep_closer {n : Nat} {s : State} (h : FinishesWithin (n + 1) s) :
    ∃ t, coreStep s = .next t ∧ FinishesWithin n t := by
  cases hp : s.phase with
  | idle => exact ⟨s, by simp only [coreStep, hp], finishesWithin_of_idle hp n⟩
  | busy e =>
    obtain ⟨hok, hlt⟩ := h e hp
    cases hd : decode e.cmdword with
    | ok i =>
      simp only [coreStep, hp, hd]
      exact exec_closer hp hd hok hlt
    | error r =>
      rw [coreStep_of_error hp hd]
      exact rejectEvent_closer hd (positionOk_reserved s hd ▸ hok) (eventsToFinish_reserved s hd ▸ hlt)

/-- A turn of the core leaves the queue to the host. -/
theorem coreStep_inputs {s t : State} (h : coreStep s = .next t) : t.inputs = s.inputs := by
  obtain ⟨-, rfl⟩ | ⟨e, -, ⟨i, -, hexec⟩ | ⟨r, -, hreject⟩⟩ := coreStep_cases h
  · rfl
  · obtain ⟨dir, rfl⟩ | ⟨kind, rfl⟩ := instr_cases i
    · rw [exec_cbc] at hexec
      obtain ⟨f, -, hn⟩ := cbcEvent_cases hexec
      cases hn <;> rfl
    · rw [exec_cmac] at hexec
      obtain ⟨f, -, hn⟩ := cmacEvent_cases hexec
      cases hn <;> rfl
  · obtain ⟨-, rfl⟩ | ⟨c, -, rfl⟩ := rejectEvent_cases hreject <;> rfl

/-! ## `POLL` -/

theorem step_coreTurn {s : State} {rest : List Input} (h : s.inputs = .core :: rest) :
    step s = coreStep { s with inputs := rest } := by
  unfold step
  rw [h]

/-- A read of `STATUS` by `POLL` that shows `BUSY = 1` is followed by a turn of the core and the next read
(notes/assumptions/12.md). -/
theorem step_poll_busy {s : State} {rest : List Input} (hbusy : s.busy = true) (h : s.inputs = .poll :: rest) :
    step s = .next { s with inputs := .core :: .poll :: rest, responses := .data s.status :: s.responses } := by
  rw [step_host (by simp) h]
  exact congrArg _ (if_pos hbusy)

/-- A read of `STATUS` by `POLL` that shows `BUSY = 0` is its last. -/
theorem step_poll_idle {s : State} {rest : List Input} (hidle : s.busy = false) (h : s.inputs = .poll :: rest) :
    step s = .next { s with inputs := rest, responses := .data s.status :: s.responses } := by
  rw [step_host (by simp) h]
  exact congrArg _ (if_neg (Bool.eq_false_iff.1 hidle))

theorem phase_idle_of_not_busy {s : State} (h : s.busy = false) : s.phase = .idle := by
  cases hp : s.phase with
  | idle => rfl
  | busy e => exact absurd ((busy_iff s).2 ⟨e, hp⟩) (by simp [h])

/-- The queue and the answers have no part in how far the finish is. -/
theorem FinishesWithin.of_queue {n : Nat} {s : State} (h : FinishesWithin n s) (l : List Input)
    (r : List Response) : FinishesWithin n { s with inputs := l, responses := r } := h

theorem FinishesWithin.idle {s : State} (h : FinishesWithin 0 s) : s.busy = false := by
  cases hb : s.busy with
  | false => rfl
  | true =>
    obtain ⟨e, he⟩ := (busy_iff s).1 hb
    exact absurd (h e he).2 (Nat.not_lt_zero _)

/-- The run of a `POLL` to its last read, which shows `BUSY = 0` (rules R51, R94). -/
def PollEnds (s : State) : Prop :=
  ∃ n t v, Host.Core.run core n s = .next t ∧ t.inputs = [] ∧ t.phase = .idle ∧
    t.responses.head? = some (.data v) ∧ v.getLsbD 0 = false

theorem pollEnds_of_idle {s : State} (hidle : s.busy = false) (hi : s.inputs = [.poll]) : PollEnds s :=
  ⟨1, _, s.status, run_succ (step_poll_idle hidle hi) 0, rfl, phase_idle_of_not_busy hidle, rfl,
    (status_bit_busy s).trans hidle⟩

/-- A `POLL` ends where it ends after one read that shows `BUSY = 1` and one event. -/
theorem pollEnds_of_event {s t : State} (hbusy : s.busy = true) (hi : s.inputs = [.poll])
    (h : coreStep { s with inputs := [.poll], responses := .data s.status :: s.responses } = .next t)
    (ht : PollEnds t) : PollEnds s := by
  obtain ⟨n, u, v, hrun, hend⟩ := ht
  refine ⟨n + 2, u, v, ?_, hend⟩
  rw [run_succ (step_poll_busy hbusy hi), run_succ ((step_coreTurn rfl).trans h), hrun]

theorem pollEnds_of_finishesWithin (n : Nat) :
    ∀ s : State, FinishesWithin n s → s.inputs = [.poll] → PollEnds s := by
  induction n with
  | zero => exact fun s h hi => pollEnds_of_idle h.idle hi
  | succ n ih =>
    intro s h hi
    cases hb : s.busy with
    | false => exact pollEnds_of_idle hb hi
    | true =>
      obtain ⟨t, hstep, ht⟩ := coreStep_closer (h.of_queue [.poll] (.data s.status :: s.responses))
      exact pollEnds_of_event hb hi hstep (ih t ht (coreStep_inputs hstep))

theorem finishesWithin_of_inv {s : State} (h : Inv s) : ∃ n, FinishesWithin n s := by
  cases hp : s.phase with
  | idle => exact ⟨0, finishesWithin_of_idle hp 0⟩
  | busy e =>
    have hphase := h.phase
    simp only [State.phaseOk, hp, Bool.and_eq_true] at hphase
    obtain ⟨⟨-, hok⟩, -⟩ := hphase
    exact ⟨_, finishesWithin_of_busy hp hok (Nat.lt_succ_self _)⟩

/-- Settles O47: by induction on how many events separate the core from its finish, each round of the `POLL` being a
read and an event. -/
theorem pollEndsWithTheCommand : Obligations.PollEndsWithTheCommand := by
  intro s hinv hi
  obtain ⟨n, hn⟩ := finishesWithin_of_inv hinv
  exact pollEnds_of_finishesWithin n s hn hi

end Sys2Proof.Proofs
end

section
/-! The lifecycle of a command (rules R52 to R58): acceptance, dispatch, key check and finish, the progress of the
machine to the finish, and that a command sees only its operands. -/

namespace Sys2Proof.Proofs

open Sys2Proof Sys2Proof.Machine Sys2Proof.Laws

/-! ## Turns of the core -/

theorem coreStep_of_ok {s : State} {e : Engine} {i : Instr} (he : s.phase = .busy e)
    (hi : decode e.cmdword = .ok i) : coreStep s = exec i s := by
  simp only [coreStep, he, hi]

/-- Settles O4: a step in which the turn is the core's is `coreStep`, which runs the decoded command. -/
theorem stepRunsTheDecodedCommand : Obligations.StepRunsTheDecodedCommand := by
  intro s e i he hi
  refine ⟨fun hinputs => ?_, fun rest hinputs => ?_⟩
  · rw [step_core hinputs, coreStep_of_ok he hi]
  · rw [step_coreTurn hinputs, coreStep_of_ok (by exact he) hi]

/-- Settles O13: the step of a write of `CMD`, which `HostWrite` turns into the acceptance while idle (rule R52) and
ignores while busy (rule R16). -/
theorem writingCmdAcceptsACommand : Obligations.WritingCmdAcceptsACommand := by
  intro s v rest hinputs
  have hstep := step_regWrite (slot := .cmd) (by decide) hinputs
  refine ⟨fun hidle => ⟨Engine.start v, rfl, rfl, ?_⟩, fun hbusy => ?_⟩
  · rw [hstep, hostWrite_of_idle hidle]
    rfl
  · rw [hstep, hostWrite_of_busy hbusy]

/-! ## The checks and the finish -/

theorem exec_cbcCheck (dir : Direction) {s : State} {e : Engine} {p : Position} (he : s.phase = .busy e)
    (hp : cbcCheckNext s e.pos = some p) : exec (cbcInstr dir) s = .next (s.goto e p) :=
  (exec_cbc dir s).trans (cbcEvent_of_next he (.check p hp))

theorem exec_cmacCheck (kind : TagKind) {s : State} {e : Engine} {p : Position} (he : s.phase = .busy e)
    (hp : cmacCheckNext kind s e.pos = some p) : exec (cmacInstr kind) s = .next (s.goto e p) :=
  (exec_cmac kind s).trans (cmacEvent_of_next he (.check p hp))

/-- Settles O20: the dispatch is a check of either family, and the first event of a reserved word. -/
theorem dispatchStartsTheSequence : Obligations.DispatchStartsTheSequence := by
  intro s e he hpos
  have cbc : ∀ dir, exec (cbcInstr dir) s = .next (s.goto e .cbcKeyCheck) :=
    fun dir => exec_cbcCheck dir he (by rw [hpos]; rfl)
  have cmac : ∀ kind, exec (cmacInstr kind) s = .next (s.goto e .cmacTagRangeCheck) :=
    fun kind => exec_cmacCheck kind he (by rw [hpos]; rfl)
  refine ⟨cbc .enc, cbc .dec, cmac .full, cmac .selected, fun r hr => ?_⟩
  rw [coreStep_of_error he hr]
  simp only [rejectEvent, hpos]

theorem keySupplied_iff {s : State} : s.keySupplied = true ↔ s.keyw = 0b1111 := beq_iff_eq

/-- `keycheck()` of rule R55, on the four bits of `KEYW`. -/
theorem keyCheck_eq_ite (s : State) (next : Position) :
    s.keyCheck next = if s.keyw = 0b1111 then next else .finish .keyErr := by
  simp only [State.keyCheck, keySupplied_iff]

/-- Settles O21: the key check of either family is `keycheck()`. -/
theorem keyCheckNeedsAllFourKeySlots : Obligations.KeyCheckNeedsAllFourKeySlots := by
  intro s e he
  simp only [← keyCheck_eq_ite]
  exact ⟨fun dir hpos => exec_cbcCheck dir he (by rw [hpos]; rfl),
    fun kind hpos => exec_cmacCheck kind he (by rw [hpos]; rfl)⟩

/-- Settles O22: the finish is the same event for every command and for a reserved word, and a busy core goes idle by
it or by a reset. -/
theorem finishRecordsAndZeroizes : Obligations.FinishRecordsAndZeroizes := by
  refine ⟨⟨rfl, rfl, rfl, rfl⟩, fun s e c he hpos => ⟨fun i => exec_finish i he hpos, fun r hr => ?_⟩,
    fun s t hstep hbusy hidle => ?_⟩
  · rw [coreStep_of_error he hr]
    simp only [rejectEvent, hpos]
    rfl
  · obtain ⟨-, -, -, byStep⟩ := busyIsWrittenByAcceptanceFinishReset
    obtain hreset | ⟨-, hfinish⟩ := (byStep s t hstep).2 hbusy hidle
    · exact .inl hreset
    · exact .inr hfinish

/-! ## Progress -/

/-- Settles O45: a turn of the host always answers a state, and a turn of the core does at every position that the
invariant allows. -/
theorem theMachineNeverStops : Obligations.TheMachineNeverStops := by
  intro s hinv
  obtain ⟨n, hn⟩ := finishesWithin_of_inv hinv
  have hsucc : FinishesWithin (n + 1) s := fun e he => ⟨(hn e he).1, Nat.lt_succ_of_lt (hn e he).2⟩
  cases hi : s.inputs with
  | nil =>
    obtain ⟨t, ht, -⟩ := coreStep_closer hsucc
    exact ⟨t, (step_core hi).trans ht⟩
  | cons turn rest =>
    by_cases hturn : turn = .core
    · subst hturn
      obtain ⟨t, ht, -⟩ := coreStep_closer (hsucc.of_queue rest s.responses)
      exact ⟨t, (step_coreTurn hi).trans ht⟩
    · exact ⟨_, step_host hturn hi⟩

theorem cbcToFinish_le (s : State) (p : Position) : cbcToFinish s p ≤ 3 * s.length + 5 := by
  have hblocks : 33 * s.cbcBlocks ≤ 3 * s.length := by
    unfold State.cbcBlocks
    omega
  cases p <;> simp only [cbcToFinish] <;> omega

theorem cmacToFinish_le (kind : TagKind) (s : State) (p : Position) :
    cmacToFinish kind s p ≤ s.length + 38 := by
  have hlen := tagLength_le kind
  cases p <;> simp only [cmacToFinish] <;> omega

theorem rejectToFinish_le (p : Position) : rejectToFinish p ≤ 1 := by
  cases p <;> simp only [rejectToFinish] <;> omega

/-- The bound of rule R58 in the model's events (notes/assumptions/1.md). -/
theorem eventsToFinish_lt (s : State) (e : Engine) : eventsToFinish s e < 3 * s.length + 40 := by
  cases hd : decode e.cmdword with
  | error r =>
    rw [eventsToFinish_reserved s hd]
    have := rejectToFinish_le e.pos
    omega
  | ok i =>
    obtain ⟨dir, rfl⟩ | ⟨kind, rfl⟩ := instr_cases i
    · rw [eventsToFinish_cbc s hd]
      have := cbcToFinish_le s e.pos
      omega
    · rw [eventsToFinish_cmac s hd]
      have := cmacToFinish_le kind s e.pos
      omega

theorem not_busy_of_idle {s : State} (h : s.phase = .idle) : s.busy = false := by
  simp only [State.busy, h]

/-- The core goes idle by the finish alone, which sets `DONE` (rule R56). -/
theorem coreStep_idle_done {s t : State} (hbusy : s.busy = true) (h : coreStep s = .next t)
    (hidle : t.phase = .idle) : t.doneBit = true := by
  obtain ⟨hphase, -⟩ | ⟨e, he, ⟨i, -, hexec⟩ | ⟨r, -, hreject⟩⟩ := coreStep_cases h
  · simp [not_busy_of_idle hphase] at hbusy
  · obtain ⟨dir, rfl⟩ | ⟨kind, rfl⟩ := instr_cases i
    · rw [exec_cbc] at hexec
      obtain ⟨f, -, hn⟩ := cbcEvent_cases hexec
      cases hn with
      | finish => rfl
      | _ => cases hidle
    · rw [exec_cmac] at hexec
      obtain ⟨f, -, hn⟩ := cmacEvent_cases hexec
      cases hn with
      | finish => rfl
      | _ => cases hidle
  · obtain ⟨-, rfl⟩ | ⟨c, -, rfl⟩ := rejectEvent_cases hreject
    · cases hidle
    · rfl

/-- The run of the events that are left, to the idle state after the finish. -/
theorem run_to_finish (n : Nat) : ∀ s : State, FinishesWithin n s → s.inputs = [] → s.busy = true →
    ∃ k t, k ≤ n ∧ Host.Core.run core k s = .next t ∧ t.phase = .idle ∧ t.doneBit = true := by
  induction n with
  | zero => exact fun s h _ hbusy => by simp [h.idle] at hbusy
  | succ n ih =>
    intro s h hi hbusy
    obtain ⟨t, hcore, ht⟩ := coreStep_closer h
    have hstep : step s = .next t := (step_core hi).trans hcore
    cases hp : t.phase with
    | idle => exact ⟨1, t, by omega, run_succ hstep 0, hp, coreStep_idle_done hbusy hcore hp⟩
    | busy e =>
      obtain ⟨k, u, hk, hrun, hend⟩ := ih t ht ((coreStep_inputs hcore).trans hi) ((busy_iff t).2 ⟨e, hp⟩)
      exact ⟨k + 1, u, by omega, (run_succ hstep k).trans hrun, hend⟩

/-- Settles O46: every event leads closer to the finish, and the bound holds at every position. -/
theorem everyCommandFinishes : Obligations.EveryCommandFinishes := by
  intro s hinv hi hbusy
  refine run_to_finish _ s (fun e he => ⟨?_, eventsToFinish_lt s e⟩) hi hbusy
  obtain ⟨n, hn⟩ := finishesWithin_of_inv hinv
  exact (hn e he).1

/-! ## What a command depends on -/

/-- `s` with another record of answers. -/
def withResponses (s : State) (r : List Response) : State := { s with responses := r }

theorem cbcNext_withResponses {dir : Direction} {s t : State} {e : Engine} (h : CbcNext dir s e t)
    (r : List Response) : CbcNext dir (withResponses s r) e (withResponses t r) := by
  cases h with
  | check p hp => exact .check p hp
  | finish c hp => exact .finish c hp
  | load hp => exact .load hp
  | busError a k hp hlt hb => exact .busError a k hp hlt hb
  | read i j hp hlt hb => exact .read i j hp hlt hb
  | compute i hp => exact .compute i hp
  | write i j hp hlt hb => exact .write i j hp hlt hb

theorem cmacNext_withResponses {kind : TagKind} {s t : State} {e : Engine} (h : CmacNext kind s e t)
    (r : List Response) : CmacNext kind (withResponses s r) e (withResponses t r) := by
  cases h with
  | check p hp => exact .check p hp
  | finish c hp => exact .finish c hp
  | busError a k hp hlt hb => exact .busError a k hp hlt hb
  | zero j hp hlt hb => exact .zero j hp hlt hb
  | load hp => exact .load hp
  | read m hp hlt hb b hblock =>
    exact CmacNext.read (kind := kind) (s := withResponses s r) m hp hlt hb b hblock
  | tag hp => exact .tag hp
  | write j hp hlt hb => exact .write j hp hlt hb

/-- A turn of the core neither reads nor writes the answers (notes/assumptions/9.md). -/
theorem coreStep_withResponses {s t : State} (h : coreStep s = .next t) (r : List Response) :
    coreStep (withResponses s r) = .next (withResponses t r) := by
  obtain ⟨hp, rfl⟩ | ⟨e, he, ⟨i, hi, hexec⟩ | ⟨err, herr, hreject⟩⟩ := coreStep_cases h
  · have hidle : (withResponses t r).phase = .idle := hp
    simp only [coreStep, hidle]
  · rw [coreStep_of_ok (s := withResponses s r) he hi]
    obtain ⟨dir, rfl⟩ | ⟨kind, rfl⟩ := instr_cases i
    · rw [exec_cbc] at hexec ⊢
      obtain ⟨f, hf, hn⟩ := cbcEvent_cases hexec
      exact cbcEvent_of_next (s := withResponses s r) hf (cbcNext_withResponses hn r)
    · rw [exec_cmac] at hexec ⊢
      obtain ⟨f, hf, hn⟩ := cmacEvent_cases hexec
      exact cmacEvent_of_next (s := withResponses s r) hf (cmacNext_withResponses hn r)
  · rw [coreStep_of_error (s := withResponses s r) he herr]
    obtain ⟨hp, rfl⟩ | ⟨c, hp, rfl⟩ := rejectEvent_cases hreject <;> simp only [rejectEvent, hp] <;> rfl

theorem run_withResponses {n : Nat} : ∀ {s t : State}, s.inputs = [] → Host.Core.run core n s = .next t →
    ∀ r, Host.Core.run core n (withResponses s r) = .next (withResponses t r) := by
  induction n with
  | zero =>
    intro s t _ h r
    cases h
    rfl
  | succ n ih =>
    intro s t hi h r
    cases hs : step s with
    | next u =>
      have hcore : coreStep s = .next u := (step_core hi).symm.trans hs
      have hstep : step (withResponses s r) = .next (withResponses u r) :=
        (step_core (by exact hi)).trans (coreStep_withResponses hcore r)
      rw [run_succ hs] at h
      rw [run_succ hstep]
      exact ih ((coreStep_inputs hcore).trans hi) h r
    | fault _ | refused _ =>
      have hs' : core.step s = _ := hs
      simp only [Host.Core.run, hs'] at h
      cases h

/-- Settles O42: the acceptance leaves two states that differ in nothing but the answers, and the turns of the core
after it do not see those. -/
theorem effectsDependOnTheOperandsAlone : Obligations.EffectsDependOnTheOperandsAlone := by
  intro s₁ s₂ v n t₁ hp₁ hp₂ hsrc hdst hlen hkey hiv hkeyw hmem hwindow hfaults hi₁ hi₂ hrun
  have hcmd : accessedSlot 0x00 32 = some .cmd := by decide
  rw [run_succ (step_regWrite hcmd hi₁), hostWrite_of_idle (not_busy_of_idle hp₁)] at hrun
  rw [run_succ (step_regWrite hcmd hi₂), hostWrite_of_idle (not_busy_of_idle hp₂)]
  have hsame : ({ s₂.hostWriteIdle .cmd v with inputs := [], responses := .writeDone :: s₂.responses } : State) =
      withResponses { s₁.hostWriteIdle .cmd v with inputs := [], responses := .writeDone :: s₁.responses }
        (.writeDone :: s₂.responses) := by
    simp only [State.hostWriteIdle, State.accept, withResponses, hsrc, hdst, hlen, hkey, hiv, hkeyw, hmem, hwindow,
      hfaults]
  rw [hsame]
  exact ⟨_, run_withResponses rfl hrun _, rfl, rfl, rfl, rfl⟩

end Sys2Proof.Proofs
end

section
/-! The run of a CBC command that passes its checks (rules R36, R60, R76 to R79), on any platform: what the engine and
memory hold at every position, and how the command ends. -/

namespace Sys2Proof.Proofs

open Sys2Proof Sys2Proof.Machine Sys2Proof.Laws

/-! ## Blocks as the command reads and writes them -/

/-- Both directions of `State.overlapOutput` are the block function of rule R76. -/
theorem overlapOutput_eq (dir : Direction) (s : State) (mem m : Memory) (i : Nat) :
    s.overlapOutput dir mem m i =
      cbcOutput dir (keyExpansion s.keyBytes) (s.overlapCv dir mem m i) (s.overlapBlock mem m i) := by
  cases dir <;> rfl

@[simp] theorem overlapBlock_getElem (s : State) (mem m : Memory) (i l : Nat) (hl : l < 16) :
    (s.overlapBlock mem m i)[l] = s.overlapByte mem m (16 * i + l) := by
  simp only [State.overlapBlock, Vector.getElem_ofFn]

/-- The two memories hold the same output bytes before block `i`. -/
def SameOutputBefore (s : State) (i : Nat) (m m' : Memory) : Prop :=
  ∀ x, x < 16 * i → Memory.read m' (s.dstAddr + x) = Memory.read m (s.dstAddr + x)

theorem SameOutputBefore.mono {s : State} {i k : Nat} {m m' : Memory} (h : SameOutputBefore s i m m')
    (hk : k ≤ i) : SameOutputBefore s k m m' := fun x hx => h x (by omega)

/-- Block `i` is read from the original memory and from the output blocks before it (rule R79). -/
theorem overlapBlock_congr {s : State} {i : Nat} {m m' : Memory} (h : SameOutputBefore s i m m') (mem : Memory) :
    s.overlapBlock mem m' i = s.overlapBlock mem m i := by
  ext l hl : 1
  simp only [overlapBlock_getElem, State.overlapByte]
  split
  · exact h _ (by omega)
  · rfl

theorem overlapCv_congr {s : State} {i : Nat} {m m' : Memory} (h : SameOutputBefore s i m m') (dir : Direction)
    (mem : Memory) : s.overlapCv dir mem m' i = s.overlapCv dir mem m i := by
  cases i with
  | zero => rfl
  | succ i =>
    cases dir with
    | enc =>
      ext l hl : 1
      simp only [State.overlapCv, block_getElem, Nat.add_assoc]
      exact h _ (by omega)
    | dec => exact overlapBlock_congr (h.mono (Nat.le_succ i)) mem

theorem overlapOutput_congr {s : State} {i : Nat} {m m' : Memory} (h : SameOutputBefore s i m m')
    (dir : Direction) (mem : Memory) : s.overlapOutput dir mem m' i = s.overlapOutput dir mem m i := by
  rw [overlapOutput_eq, overlapOutput_eq, overlapCv_congr h, overlapBlock_congr h]

/-! ## Memory during the command -/

/-- The first `reads` input bytes have been read and the first `writes` output bytes written, and memory `m` has come
of the memory of `s` by that alone. -/
structure CbcProgress (dir : Direction) (s : State) (reads writes : Nat) (m : Memory) : Prop where
  readsOk : ∀ k, k < reads → s.busOk (s.srcAddr + k) .read = true
  writesOk : ∀ k, k < writes → s.busOk (s.dstAddr + k) .write = true
  canonical : Memory.wf m = true
  written : ∀ k (l : Fin 16), 16 * k + l.val < writes →
    Memory.read m (s.dstAddr + 16 * k + l) = (s.overlapOutput dir s.mem m k)[l]
  frame : ∀ a, (a < s.dstAddr ∨ s.dstAddr + writes ≤ a) → Memory.read m a = Memory.read s.mem a

section
variable {dir : Direction} {s : State} {reads writes : Nat} {m : Memory}

theorem CbcProgress.start (hwf : Memory.wf s.mem = true) : CbcProgress dir s 0 0 s.mem where
  readsOk _ hk := absurd hk (Nat.not_lt_zero _)
  writesOk _ hk := absurd hk (Nat.not_lt_zero _)
  canonical := hwf
  written _ _ hk := absurd hk (Nat.not_lt_zero _)
  frame _ _ := rfl

/-- The byte that the command reads once the blocks before it are written is that of `State.overlapByte`. -/
theorem CbcProgress.read_input {i : Nat} (h : CbcProgress dir s reads (16 * i) m) (j : Fin 16) :
    Memory.read m (s.cbcReadAddr i j) = s.overlapByte s.mem m (16 * i + j) := by
  have hj := j.isLt
  unfold State.cbcReadAddr State.overlapByte
  dsimp only
  split
  · congr 1
    omega
  · rw [h.frame _ (by omega), Nat.add_assoc]

theorem CbcProgress.read {i : Nat} {j : Fin 16} (h : CbcProgress dir s (16 * i + j) writes m)
    (hb : s.busOk (s.cbcReadAddr i j) .read = true) : CbcProgress dir s (16 * i + j + 1) writes m where
  readsOk k hk := by
    obtain hlt | rfl := Nat.lt_succ_iff_lt_or_eq.1 hk
    · exact h.readsOk k hlt
    · rwa [← Nat.add_assoc]
  writesOk := h.writesOk
  canonical := h.canonical
  written := h.written
  frame := h.frame

/-- The write of byte `j` of block `i` leaves the output bytes before the block. -/
theorem sameOutputBefore_write (m : Memory) (i : Nat) (j : Fin 16) (v : Byte) :
    SameOutputBefore s i m (Memory.write m (s.cbcWriteAddr i j) v) := by
  intro x hx
  exact read_write_other m v (by unfold State.cbcWriteAddr; omega)

theorem CbcProgress.write {i : Nat} {j : Fin 16} (h : CbcProgress dir s reads (16 * i + j) m)
    (hlt : s.cbcWriteAddr i j < 2 ^ 32) (hb : s.busOk (s.cbcWriteAddr i j) .write = true) :
    CbcProgress dir s reads (16 * i + j + 1)
      (Memory.write m (s.cbcWriteAddr i j) (s.overlapOutput dir s.mem m i)[j]) where
  readsOk := h.readsOk
  writesOk k hk := by
    obtain hlt | rfl := Nat.lt_succ_iff_lt_or_eq.1 hk
    · exact h.writesOk k hlt
    · rwa [← Nat.add_assoc]
  canonical := wf_write h.canonical hlt _
  written k l hk := by
    have hl := l.isLt
    have hj := j.isLt
    rw [overlapOutput_congr ((sameOutputBefore_write m i j _).mono (by omega : k ≤ i)), read_write h.canonical]
    split
    · next heq =>
      unfold State.cbcWriteAddr at heq
      obtain rfl : k = i := by omega
      obtain rfl : l = j := Fin.ext (by omega)
      rfl
    · next hne =>
      unfold State.cbcWriteAddr at hne
      exact h.written k l (by omega)
  frame a ha := by
    rw [read_write_other _ _ (by unfold State.cbcWriteAddr; omega)]
    exact h.frame a (by omega)

/-- Once block `i` is written, the next chaining value is that of rule R76. -/
theorem CbcProgress.overlapCv_succ {i : Nat} (h : CbcProgress dir s reads writes m) (hi : 16 * i + 16 ≤ writes) :
    s.overlapCv dir s.mem m (i + 1) =
      cbcNextCv dir (s.overlapBlock s.mem m i) (s.overlapOutput dir s.mem m i) := by
  cases dir with
  | enc =>
    ext l hl : 1
    simp only [State.overlapCv, block_getElem]
    exact h.written i ⟨l, hl⟩ (by dsimp only; omega)
  | dec => rfl

end

/-! ## The positions -/

/-- The state of a CBC command that started in `s`: no event before the finish changes anything but the engine and
memory. -/
def cbcState (s : State) (e : Engine) (m : Memory) : State := { s.withEngine e with mem := m }

/-- Before the read of byte `j` of block `i`. -/
structure CbcReading (dir : Direction) (s : State) (n : Nat) (m : Memory) (e : Engine) (i : Nat) (j : Fin 16) :
    Prop where
  events : n = 5 + 33 * i + j
  block : i < s.cbcBlocks
  progress : CbcProgress dir s (16 * i + j) (16 * i) m
  schedule : e.w = keyExpansion s.keyBytes
  chaining : e.cv = s.overlapCv dir s.mem m i
  input : ∀ l (hl : l < 16), l < j.val → e.inBlock[l] = s.overlapByte s.mem m (16 * i + l)

/-- Before the computation of output block `i`. -/
structure CbcComputing (dir : Direction) (s : State) (n : Nat) (m : Memory) (e : Engine) (i : Nat) : Prop where
  events : n = 21 + 33 * i
  block : i < s.cbcBlocks
  progress : CbcProgress dir s (16 * i + 16) (16 * i) m
  schedule : e.w = keyExpansion s.keyBytes
  chaining : e.cv = s.overlapCv dir s.mem m i
  input : e.inBlock = s.overlapBlock s.mem m i

/-- Before the write of byte `j` of block `i`. -/
structure CbcWriting (dir : Direction) (s : State) (n : Nat) (m : Memory) (e : Engine) (i : Nat) (j : Fin 16) :
    Prop where
  events : n = 22 + 33 * i + j
  block : i < s.cbcBlocks
  progress : CbcProgress dir s (16 * i + 16) (16 * i + j) m
  schedule : e.w = keyExpansion s.keyBytes
  output : e.outBlock = s.overlapOutput dir s.mem m i
  chaining : e.cv = cbcNextCv dir (s.overlapBlock s.mem m i) (s.overlapOutput dir s.mem m i)

/-- How a CBC command that passed its checks ends after `n` events (rules R36, R56, R76): with all its blocks written,
or with the first access that the bus did not complete. -/
inductive CbcOutcome (dir : Direction) (s : State) (n : Nat) (m : Memory) : ResultCode → Prop
  | ok (hn : n = s.cbcEvents) (hm : CbcProgress dir s s.length s.length m) : CbcOutcome dir s n m .ok
  | readError (i : Nat) (j : Fin 16) (hi : i < s.cbcBlocks) (hb : s.busOk (s.cbcReadAddr i j) .read = false)
    (hm : CbcProgress dir s (16 * i + j) (16 * i) m) : CbcOutcome dir s n m .opErr
  | writeError (i : Nat) (j : Fin 16) (hi : i < s.cbcBlocks) (hb : s.busOk (s.cbcWriteAddr i j) .write = false)
    (hm : CbcProgress dir s (16 * i + 16) (16 * i + j) m) : CbcOutcome dir s n m .opErr

/-- What engine and memory hold at a position, after `n` events of a CBC command that started in `s`. -/
def CbcAt (dir : Direction) (s : State) (n : Nat) (m : Memory) (e : Engine) : Position → Prop
  | .dispatch => n = 0 ∧ m = s.mem
  | .cbcKeyCheck => n = 1 ∧ m = s.mem
  | .cbcLengthCheck => n = 2 ∧ m = s.mem
  | .cbcRangeCheck => n = 3 ∧ m = s.mem
  | .cbcLoad => n = 4 ∧ m = s.mem
  | .cbcRead i j => CbcReading dir s n m e i j
  | .cbcCompute i => CbcComputing dir s n m e i
  | .cbcWrite i j => CbcWriting dir s n m e i j
  | .finish c => CbcOutcome dir s (n + 1) m c
  | _ => False

/-! ## The events -/

section
variable {dir : Direction} {s : State} {n : Nat} {m : Memory} {e : Engine}

theorem length_eq_blocks (hc : CbcChecked dir s) : s.length = 16 * s.cbcBlocks := by
  have := hc.lengthBlocks
  unfold State.cbcBlocks
  omega

/-- A command that passes its checks goes from one to the next and to the load (rule R76). -/
theorem cbcAt_check (hc : CbcChecked dir s) {p q : Position} (h : CbcAt dir s n m e p)
    (hq : cbcCheckNext s p = some q) (f : Engine) : CbcAt dir s (n + 1) m f q := by
  have hlen : cbcLengthOk s.length = true := decide_eq_true ⟨hc.lengthPositive, hc.lengthBlocks⟩
  have hrange : (inRange s.srcAddr s.length && inRange s.dstAddr s.length) = true :=
    Bool.and_eq_true_iff.2 ⟨inRange_iff.2 hc.source, inRange_iff.2 hc.destination⟩
  unfold cbcCheckNext at hq
  split at hq <;> cases hq <;> obtain ⟨rfl, rfl⟩ := h
  · exact ⟨rfl, rfl⟩
  · rw [keyCheck_eq_ite, if_pos hc.key]
    exact ⟨rfl, rfl⟩
  · rw [hlen]
    exact ⟨rfl, rfl⟩
  · rw [hrange]
    exact ⟨rfl, rfl⟩

/-- The head of the block loop, with the blocks before `i` written (rule R76). -/
theorem cbcAt_loopHead (hc : CbcChecked dir s) {i : Nat} (hi : i ≤ s.cbcBlocks) (hn : n = 5 + 33 * i)
    (hm : CbcProgress dir s (16 * i) (16 * i) m) (hw : e.w = keyExpansion s.keyBytes)
    (hcv : e.cv = s.overlapCv dir s.mem m i) : CbcAt dir s n m e (s.cbcLoopHead i) := by
  unfold State.cbcLoopHead
  split
  · next hlt => exact ⟨hn, hlt, hm, hw, hcv, fun l _ hl => absurd hl (Nat.not_lt_zero l)⟩
  · next hge =>
    obtain rfl : i = s.cbcBlocks := by omega
    rw [← length_eq_blocks hc] at hm
    exact .ok (by unfold State.cbcEvents; omega) hm

theorem CbcReading.next {i : Nat} {j : Fin 16} (h : CbcReading dir s n m e i j)
    (hb : s.busOk (s.cbcReadAddr i j) .read = true) {f : Engine} (hw : f.w = e.w) (hcv : f.cv = e.cv)
    (hin : f.inBlock = e.inBlock.set j (Memory.read m (s.cbcReadAddr i j))) :
    CbcAt dir s (n + 1) m f (if j = 15 then .cbcCompute i else .cbcRead i (j + 1)) := by
  have hevents := h.events
  have hprogress := h.progress.read hb
  have hinput : ∀ l (hl : l < 16), l < j.val + 1 → f.inBlock[l] = s.overlapByte s.mem m (16 * i + l) := by
    intro l hl hlt
    simp only [hin, Vector.getElem_set]
    split
    · next heq => rw [← heq, h.progress.read_input j]
    · exact h.input l hl (by omega)
  split
  · next hlast =>
    subst hlast
    have hlastRead : n = 5 + 33 * i + 15 := hevents
    refine ⟨by omega, h.block, hprogress, hw.trans h.schedule, hcv.trans h.chaining, ?_⟩
    ext l hl : 1
    rw [overlapBlock_getElem]
    exact hinput l hl hl
  · next hlast =>
    have hval := val_add_one_of_ne_last hlast
    refine ⟨by omega, h.block, ?_, hw.trans h.schedule, hcv.trans h.chaining, ?_⟩
    · rw [hval]
      exact hprogress
    · rw [hval]
      exact hinput

theorem CbcComputing.next {i : Nat} (h : CbcComputing dir s n m e i) {f : Engine} (hw : f.w = e.w)
    (hout : f.outBlock = cbcOutput dir e.w e.cv e.inBlock)
    (hcv : f.cv = cbcNextCv dir e.inBlock (cbcOutput dir e.w e.cv e.inBlock)) :
    CbcAt dir s (n + 1) m f (.cbcWrite i 0) := by
  have hoverlap : cbcOutput dir e.w e.cv e.inBlock = s.overlapOutput dir s.mem m i := by
    rw [overlapOutput_eq, h.schedule, h.chaining, h.input]
  rw [hoverlap] at hout hcv
  have hevents : n + 1 = 22 + 33 * i + 0 := by
    rw [h.events]
    omega
  exact ⟨hevents, h.block, h.progress, hw.trans h.schedule, hout, h.input ▸ hcv⟩

theorem CbcWriting.next (hc : CbcChecked dir s) {i : Nat} {j : Fin 16} (h : CbcWriting dir s n m e i j)
    (hlt : s.cbcWriteAddr i j < 2 ^ 32) (hb : s.busOk (s.cbcWriteAddr i j) .write = true) {f : Engine}
    (hw : f.w = e.w) (hout : f.outBlock = e.outBlock) (hcv : f.cv = e.cv) :
    CbcAt dir s (n + 1) (Memory.write m (s.cbcWriteAddr i j) e.outBlock[j]) f
      (if j = 15 then s.cbcLoopHead (i + 1) else .cbcWrite i (j + 1)) := by
  have hevents := h.events
  have hblock := h.block
  have hprogress := h.progress.write hlt hb
  have hsame := sameOutputBefore_write (s := s) m i j e.outBlock[j]
  rw [← h.output] at hprogress
  have houtput := h.output
  have hchaining := h.chaining
  rw [← overlapOutput_congr hsame] at houtput
  rw [← overlapOutput_congr hsame, ← overlapBlock_congr hsame] at hchaining
  split
  · next hlast =>
    subst hlast
    have hlastWrite : n = 22 + 33 * i + 15 := hevents
    refine cbcAt_loopHead hc hblock (by omega) hprogress (hw.trans h.schedule) ?_
    rw [hcv, hchaining, hprogress.overlapCv_succ le_rfl]
  · next hlast =>
    have hval := val_add_one_of_ne_last hlast
    refine ⟨by omega, hblock, ?_, hw.trans h.schedule, hout.trans houtput, hcv.trans hchaining⟩
    rw [hval]
    exact hprogress

/-- An access that the bus does not complete ends the command with what was written before it (rules R36, R60). -/
theorem cbcAt_busError {p : Position} {a : Nat} {k : AccessKind} (h : CbcAt dir s n m e p)
    (hacc : cbcAccess s p = some (a, k)) (hb : s.busOk a k = false) (f : Engine) :
    CbcAt dir s (n + 1) m f (.finish .opErr) := by
  unfold cbcAccess at hacc
  split at hacc <;> cases hacc
  · next i j => exact .readError i j (CbcReading.block h) hb (CbcReading.progress h)
  · next i j => exact .writeError i j (CbcWriting.block h) hb (CbcWriting.progress h)

/-- Every event but the finish keeps what `CbcAt` says. -/
theorem cbcAt_next (hwf : Memory.wf s.mem = true) (hc : CbcChecked dir s) (h : CbcAt dir s n m e e.pos) {t : State}
    (ht : CbcNext dir (cbcState s e m) e t) :
    (∃ c, t = { s.finish c with mem := m } ∧ CbcOutcome dir s (n + 1) m c) ∨
    ∃ f m', t = cbcState s f m' ∧ f.cmdword = e.cmdword ∧ CbcAt dir s (n + 1) m' f f.pos := by
  cases ht with
  | check p hp => exact .inr ⟨{ e with pos := p }, m, rfl, rfl, cbcAt_check hc h hp _⟩
  | finish c hp =>
    rw [hp] at h
    exact .inl ⟨c, rfl, h⟩
  | load hp =>
    rw [hp] at h
    obtain ⟨rfl, rfl⟩ := h
    exact .inr ⟨{ e with w := keyExpansion s.keyBytes, cv := s.ivBytes, pos := s.cbcLoopHead 0 }, s.mem, rfl, rfl,
      cbcAt_loopHead hc (Nat.zero_le _) rfl (.start hwf) rfl rfl⟩
  | busError a k hp hlt hb =>
    exact .inr ⟨{ e with pos := .finish .opErr }, m, rfl, rfl, cbcAt_busError h hp hb _⟩
  | read i j hp hlt hb =>
    rw [hp] at h
    exact .inr ⟨_, m, rfl, rfl, CbcReading.next h hb rfl rfl rfl⟩
  | compute i hp =>
    rw [hp] at h
    exact .inr ⟨_, m, rfl, rfl, CbcComputing.next h rfl rfl rfl⟩
  | write i j hp hlt hb =>
    rw [hp] at h
    exact .inr ⟨{ e with pos := _ }, _, rfl, rfl, CbcWriting.next hc h hlt hb rfl rfl rfl⟩

/-- From every position the command runs to one of its outcomes: by induction on the events that are left. -/
theorem cbc_finishes_from (hwf : Memory.wf s.mem = true) (hc : CbcChecked dir s) (left : Nat) :
    ∀ n m e, decode e.cmdword = .ok (cbcInstr dir) → CbcAt dir s n m e e.pos →
    FinishesWithin left (cbcState s e m) →
    ∃ k c m', execTimes (cbcInstr dir) k (cbcState s e m) = .next { s.finish c with mem := m' } ∧
      CbcOutcome dir s (n + k) m' c := by
  induction left with
  | zero => exact fun n m e _ _ hleft => absurd (hleft e rfl).2 (Nat.not_lt_zero _)
  | succ left ih =>
    intro n m e hd h hleft
    obtain ⟨hok, hlt⟩ := hleft e rfl
    obtain ⟨t, hexec, hcloser⟩ := exec_closer (s := cbcState s e m) rfl hd hok hlt
    obtain ⟨f, hf, hnext⟩ := cbcEvent_cases ((exec_cbc dir _).symm.trans hexec)
    cases hf
    obtain ⟨c, rfl, hout⟩ | ⟨f, m', rfl, hcmd, hat⟩ := cbcAt_next hwf hc h hnext
    · exact ⟨1, c, m, execTimes_succ hexec 0, hout⟩
    · obtain ⟨k, c, m'', hrun, hout⟩ := ih (n + 1) m' f (hcmd ▸ hd) hat hcloser
      refine ⟨k + 1, c, m'', (execTimes_succ hexec k).trans hrun, ?_⟩
      rwa [Nat.add_assoc, Nat.add_comm 1 k] at hout

/-- A CBC command that is accepted and passes its checks runs to one of its outcomes. -/
theorem cbc_finishes (hwf : Memory.wf s.mem = true) (hc : CbcChecked dir s) :
    ∃ n c m, execTimes (cbcInstr dir) n s = .next { s.finish c with mem := m } ∧ CbcOutcome dir s n m c := by
  have hphase : s.phase = .busy (Engine.start (encode (cbcInstr dir))) := hc.accepted
  have hstart : cbcState s (Engine.start (encode (cbcInstr dir))) s.mem = s := by
    simp only [cbcState, State.withEngine, ← hphase]
  have hd : decode (Engine.start (encode (cbcInstr dir))).cmdword = .ok (cbcInstr dir) := decode_encode _
  have hleft := finishesWithin_of_busy hphase ((positionOk_cbc s hd).trans rfl) (Nat.lt_succ_self _)
  rw [← hstart] at hleft
  obtain ⟨k, c, m, hrun, hout⟩ := cbc_finishes_from hwf hc _ 0 s.mem _ hd ⟨rfl, rfl⟩ hleft
  rw [hstart] at hrun
  rw [Nat.zero_add] at hout
  exact ⟨k, c, m, hrun, hout⟩

end

/-! ## The CBC equations -/

theorem cbcEquations_cons (dir : Direction) (key cv b : Block) (blocks : List Block) :
    cbcEquations dir key cv (b :: blocks) = cbcOutput dir (keyExpansion key) cv b ::
      cbcEquations dir key (cbcNextCv dir b (cbcOutput dir (keyExpansion key) cv b)) blocks := by
  cases dir <;> rfl

/-- Blocks that are chained by the block function of rule R76 are those of the equations (rules R77, R78). -/
theorem cbcEquations_getD_of_chain {dir : Direction} {key : Block} (k : Nat) :
    ∀ {blocks : List Block} {cv out : Nat → Block}, k < blocks.length →
    (∀ x, x ≤ k → out x = cbcOutput dir (keyExpansion key) (cv x) (blocks.getD x Block.zero)) →
    (∀ x, x < k → cv (x + 1) = cbcNextCv dir (blocks.getD x Block.zero) (out x)) →
    (cbcEquations dir key (cv 0) blocks).getD k Block.zero = out k := by
  induction k with
  | zero =>
    intro blocks cv out hk hout _
    obtain ⟨b, rest, rfl⟩ := List.exists_cons_of_length_pos hk
    rw [cbcEquations_cons, hout 0 le_rfl]
    rfl
  | succ k ih =>
    intro blocks cv out hk hout hcv
    obtain ⟨b, rest, rfl⟩ := List.exists_cons_of_length_pos (Nat.zero_lt_of_lt hk)
    have hcv0 : cbcNextCv dir b (cbcOutput dir (keyExpansion key) (cv 0) b) = cv 1 := by
      rw [hcv 0 (Nat.succ_pos k), hout 0 (Nat.zero_le _)]
      rfl
    rw [cbcEquations_cons, hcv0]
    exact ih (cv := fun x => cv (x + 1)) (out := fun x => out (x + 1)) (Nat.lt_of_succ_lt_succ hk)
      (fun x hx => hout (x + 1) (Nat.succ_le_succ hx)) (fun x hx => hcv (x + 1) (Nat.succ_lt_succ hx))

@[simp] theorem inputBlocks_length (s : State) : s.inputBlocks.length = s.cbcBlocks := by
  simp [State.inputBlocks]

theorem inputBlocks_getD {s : State} {k : Nat} (hk : k < s.cbcBlocks) :
    s.inputBlocks.getD k Block.zero = Memory.block s.mem (s.srcAddr + 16 * k) := by
  simp [State.inputBlocks, List.getD, hk]

/-- Where no input byte is overwritten before it is read, every block is read as it stood in memory (rule R79). -/
theorem overlapBlock_of_safe {s : State} (hsafe : s.cbcSafeOverlap) {k : Nat} (hk : k < s.cbcBlocks)
    (mem m : Memory) : s.overlapBlock mem m k = Memory.block mem (s.srcAddr + 16 * k) := by
  ext l hl : 1
  unfold State.cbcSafeOverlap at hsafe
  unfold State.cbcBlocks at hk
  rw [overlapBlock_getElem, block_getElem, State.overlapByte, if_neg (by omega), Nat.add_assoc]

/-- Where no input byte is overwritten before it is read, the command writes the blocks of the equations. -/
theorem CbcProgress.overlapOutput_of_safe {dir : Direction} {s : State} {reads writes : Nat} {m : Memory}
    (h : CbcProgress dir s reads writes m) (hsafe : s.cbcSafeOverlap) {k : Nat} (hk : k < s.cbcBlocks)
    (hw : 16 * k ≤ writes) : s.overlapOutput dir s.mem m k =
      (cbcEquations dir s.keyBytes s.ivBytes s.inputBlocks).getD k Block.zero := by
  have hinput : ∀ x, x ≤ k → s.overlapBlock s.mem m x = s.inputBlocks.getD x Block.zero := fun x hx => by
    rw [overlapBlock_of_safe hsafe (by omega), inputBlocks_getD (by omega)]
  refine (cbcEquations_getD_of_chain k (cv := s.overlapCv dir s.mem m)
    (out := s.overlapOutput dir s.mem m) (by simpa using hk) (fun x hx => ?_) (fun x hx => ?_)).symm
  · rw [overlapOutput_eq, hinput x hx]
  · rw [h.overlapCv_succ (by omega), hinput x (by omega)]

/-! ## The statements about bus errors -/

theorem CbcProgress.block_written {dir : Direction} {s : State} {reads writes k : Nat} {m : Memory}
    (h : CbcProgress dir s reads writes m) (hk : 16 * k + 16 ≤ writes) :
    Memory.block m (s.dstAddr + 16 * k) = s.overlapOutput dir s.mem m k := by
  ext l hl : 1
  rw [block_getElem]
  exact h.written k ⟨l, hl⟩ (by dsimp only; omega)

/-- A command that cannot read block `i` whole, and can do every access before it, ends there (rule R76). -/
theorem CbcOutcome.of_readError {dir : Direction} {s : State} {n i : Nat} {m : Memory} {c : ResultCode}
    (h : CbcOutcome dir s n m c) (hc : CbcChecked dir s) (hi : i < s.cbcBlocks)
    (hbefore : ∀ k, k < 16 * i → s.busOk (s.srcAddr + k) .read = true ∧ s.busOk (s.dstAddr + k) .write = true)
    (hfails : ∃ j, j < 16 ∧ s.busOk (s.srcAddr + 16 * i + j) .read = false) :
    c = .opErr ∧ ∃ j : Fin 16, CbcProgress dir s (16 * i + j) (16 * i) m := by
  obtain ⟨j, hj, hb⟩ := hfails
  rw [Nat.add_assoc] at hb
  have notRead : ∀ {reads writes}, CbcProgress dir s reads writes m → reads ≤ 16 * i + j := fun hm =>
    Nat.le_of_not_lt fun hlt => by simp [hm.readsOk _ hlt] at hb
  cases h with
  | ok hn hm =>
    have := notRead hm
    have := length_eq_blocks hc
    omega
  | readError i' j' hi' hb' hm =>
    have := notRead hm
    have hj' := j'.isLt
    have hge : i ≤ i' := Nat.le_of_not_lt fun hlt => by
      unfold State.cbcReadAddr at hb'
      rw [Nat.add_assoc, (hbefore _ (by omega)).1] at hb'
      cases hb'
    obtain rfl : i' = i := by omega
    exact ⟨rfl, j', hm⟩
  | writeError i' j' hi' hb' hm =>
    have := notRead hm
    have hj' := j'.isLt
    unfold State.cbcWriteAddr at hb'
    rw [Nat.add_assoc, (hbefore _ (by omega)).2] at hb'
    cases hb'

/-- A command that cannot write byte `j` of block `i`, and can do every access before it, ends there (rule R76). -/
theorem CbcOutcome.of_writeError {dir : Direction} {s : State} {n i : Nat} {j : Fin 16} {m : Memory}
    {c : ResultCode} (h : CbcOutcome dir s n m c) (hc : CbcChecked dir s) (hi : i < s.cbcBlocks)
    (hreads : ∀ k, k < 16 * i + 16 → s.busOk (s.srcAddr + k) .read = true)
    (hwrites : ∀ k, k < 16 * i + j.val → s.busOk (s.dstAddr + k) .write = true)
    (hb : s.busOk (s.dstAddr + 16 * i + j) .write = false) :
    c = .opErr ∧ CbcProgress dir s (16 * i + 16) (16 * i + j) m := by
  have hj := j.isLt
  rw [Nat.add_assoc] at hb
  have notWritten : ∀ {reads writes}, CbcProgress dir s reads writes m → writes ≤ 16 * i + j := fun hm =>
    Nat.le_of_not_lt fun hlt => by simp [hm.writesOk _ hlt] at hb
  cases h with
  | ok hn hm =>
    have := notWritten hm
    have := length_eq_blocks hc
    omega
  | readError i' j' hi' hb' hm =>
    have := notWritten hm
    have hj' := j'.isLt
    unfold State.cbcReadAddr at hb'
    rw [Nat.add_assoc, hreads _ (by omega)] at hb'
    cases hb'
  | writeError i' j' hi' hb' hm =>
    have := notWritten hm
    have hj' := j'.isLt
    have hge : 16 * i + j.val ≤ 16 * i' + j'.val := Nat.le_of_not_lt fun hlt => by
      unfold State.cbcWriteAddr at hb'
      rw [Nat.add_assoc, hwrites _ hlt] at hb'
      cases hb'
    obtain rfl : i' = i := by omega
    obtain rfl : j' = j := Fin.ext (by omega)
    exact ⟨rfl, hm⟩

/-- Settles O36: of the ways a checked command ends, only a failing read of block `i` is left. -/
theorem cbcReadErrorLeavesEarlierBlocks : Obligations.CbcReadErrorLeavesEarlierBlocks := by
  intro dir s i hwf hc hi hbefore hfails
  obtain ⟨n, c, m, hrun, hout⟩ := cbc_finishes hwf hc
  obtain ⟨rfl, j, hm⟩ := hout.of_readError hc hi hbefore hfails
  have hblock : ∀ k, k < i → Memory.block m (s.dstAddr + 16 * k) = s.overlapOutput dir s.mem m k :=
    fun k hk => hm.block_written (by omega)
  refine ⟨n, _, (leadsTo_iff hc.accepted).2 hrun, rfl, hblock, fun hsafe k hk => ?_, hm.frame⟩
  rw [← hm.overlapOutput_of_safe hsafe (by omega) (by omega)]
  exact hblock k hk

/-- Settles O37: of the ways a checked command ends, only a failing write of byte `j` of block `i` is left. -/
theorem cbcWriteErrorLeavesEarlierBytes : Obligations.CbcWriteErrorLeavesEarlierBytes := by
  intro dir s i j hwf hc hi hreads hwrites hfails
  obtain ⟨n, c, m, hrun, hout⟩ := cbc_finishes hwf hc
  obtain ⟨rfl, hm⟩ := hout.of_writeError hc hi hreads hwrites hfails
  refine ⟨n, _, (leadsTo_iff hc.accepted).2 hrun, rfl, hm.written, fun hsafe k l hk => ?_, fun a ha => ?_⟩
  · rw [← hm.overlapOutput_of_safe hsafe (by omega) (by omega)]
    exact hm.written k l hk
  · exact hm.frame a (by omega)

end Sys2Proof.Proofs
end

section
/-! The field GF(2^8) of rule R62 and the S-box (rules R62 to R64). The product is linear in each argument, and an
additive map that commutes with `xtime` goes through its left factor; commutativity and associativity follow. -/

namespace Sys2Proof.Proofs

open Sys2Proof Sys2Proof.Machine

/-! ## Linearity of the product -/

theorem ite_xor_bool (p q : Bool) (v : Byte) :
    (if p ^^ q then v else 0) = (if p then v else 0) ^^^ (if q then v else 0) := by
  cases p <;> cases q <;> simp

/-- A conditional addition adds a conditional term. -/
theorem ite_xor_self (p : Bool) (x v : Byte) : (if p then x ^^^ v else x) = x ^^^ (if p then v else 0) := by
  cases p <;> simp

theorem xtime_xor (a b : Byte) : xtime (a ^^^ b) = xtime a ^^^ xtime b := by
  unfold xtime
  rw [BitVec.shiftLeft_xor_distrib, BitVec.getLsbD_xor, ite_xor_bool]
  ac_rfl

theorem xtimes_xor (i : Nat) (a b : Byte) : xtimes i (a ^^^ b) = xtimes i a ^^^ xtimes i b := by
  induction i with
  | zero => rfl
  | succ i ih => rw [xtimes, ih, xtime_xor]; rfl

/-- A fold whose steps add up those of two folds adds up the two. -/
theorem foldl_xor_foldl {f g h : Byte → Nat → Byte} (hadd : ∀ x y i, h (x ^^^ y) i = f x i ^^^ g y i)
    (l : List Nat) (x y : Byte) : l.foldl h (x ^^^ y) = l.foldl f x ^^^ l.foldl g y := by
  induction l generalizing x y with
  | nil => rfl
  | cons i l ih => rw [List.foldl_cons, hadd, ih]; rfl

theorem gfMul_xor_right (a b c : Byte) : gfMul a (b ^^^ c) = gfMul a b ^^^ gfMul a c := by
  refine foldl_xor_foldl (fun x y i => ?_) _ 0 0
  rw [BitVec.getLsbD_xor, ite_xor_self, ite_xor_self, ite_xor_self, ite_xor_bool]
  ac_rfl

theorem gfMul_xor_left (a b c : Byte) : gfMul (a ^^^ b) c = gfMul a c ^^^ gfMul b c := by
  refine foldl_xor_foldl (fun x y i => ?_) _ 0 0
  rw [xtimes_xor]
  split
  · ac_rfl
  · rfl

@[simp] theorem gfMul_zero_left (a : Byte) : gfMul 0#8 a = 0#8 := by
  simpa using gfMul_xor_left a a a

/-! ## The ring laws -/

/-- An additive map that commutes with `xtime` goes through the left factor of a product. -/
theorem map_gfMul {φ : Byte → Byte} (hadd : ∀ x y, φ (x ^^^ y) = φ x ^^^ φ y)
    (hxtime : ∀ x, φ (xtime x) = xtime (φ x)) (a b : Byte) : φ (gfMul a b) = gfMul (φ a) b := by
  have hzero : φ 0 = 0 := by simpa using hadd 0 0
  have hxtimes : ∀ i, φ (xtimes i a) = xtimes i (φ a) := fun i => by
    induction i with
    | zero => rfl
    | succ i ih => rw [xtimes, hxtime, ih]; rfl
  refine (List.foldl_hom φ fun x i => ?_).symm.trans (congrArg (List.foldl _ · _) hzero)
  rw [← hxtimes, ← hadd, apply_ite φ]

theorem gfMul_xtime_left (a b : Byte) : gfMul (xtime a) b = xtime (gfMul a b) :=
  (map_gfMul xtime_xor (fun _ => rfl) a b).symm

/-- Two right factors change places. -/
theorem gfMul_right_comm (a b c : Byte) : gfMul (gfMul a b) c = gfMul (gfMul a c) b :=
  map_gfMul (φ := fun x => gfMul x c) (fun x y => gfMul_xor_left x y c) (fun x => gfMul_xtime_left x c) a b

@[simp] theorem gfMul_one_left : ∀ a : Byte, gfMul 1#8 a = a := by decide

theorem gfMul_comm (a b : Byte) : gfMul a b = gfMul b a := by
  simpa using gfMul_right_comm 1 a b

theorem gfMul_assoc (a b c : Byte) : gfMul (gfMul a b) c = gfMul a (gfMul b c) := by
  rw [gfMul_comm a b, gfMul_right_comm, gfMul_comm]

/-! ## The inverse -/

/-- A byte has at most one inverse. -/
theorem eq_of_gfMul_eq_one {a b c : Byte} (hb : gfMul a b = 1) (hc : gfMul a c = 1) : b = c :=
  calc b = gfMul (gfMul a c) b := by simp [hc]
    _ = gfMul (gfMul a b) c := gfMul_right_comm a c b
    _ = c := by simp [hb]

/-- The search of `gfInv` goes over every byte. -/
theorem mem_bytes (b : Byte) : b ∈ (List.range 256).map (BitVec.ofNat 8) :=
  List.mem_map.2 ⟨b.toNat, List.mem_range.2 b.isLt, by simp⟩

theorem gfInv_eq_of_gfMul_eq_one {a b : Byte} (h : gfMul a b = 1) : gfInv a = b := by
  unfold gfInv
  cases hfind : List.find? _ _ with
  | none => exact absurd (beq_iff_eq.2 h) (List.find?_eq_none.1 hfind b (mem_bytes b))
  | some c =>
    have hc := List.find?_some hfind
    exact eq_of_gfMul_eq_one (beq_iff_eq.1 hc) h

theorem gfInv_zero : gfInv 0 = 0 := by
  have hnone : ((List.range 256).map (BitVec.ofNat 8)).find? (fun b => gfMul 0 b == 1) = none :=
    List.find?_eq_none.2 fun b _ => by simp
  rw [gfInv, hnone]
  rfl

/-! ## The S-box -/

/-- The inverse of the affine map of rule R63. -/
def sboxAffineInv (s : Byte) : Byte := s.rotateLeft 1 ^^^ s.rotateLeft 3 ^^^ s.rotateLeft 6 ^^^ 0x05

theorem sboxAffine_sboxAffineInv : ∀ s : Byte, sboxAffine (sboxAffineInv s) = s := by decide

/-- The table, with the affine map taken off, holds inverses (rule R63). -/
theorem gfMul_sboxAffineInv_sbox : ∀ a : Byte, a ≠ 0 → gfMul a (sboxAffineInv (sbox a)) = 1 := by decide

theorem gfInv_eq (a : Byte) : gfInv a = sboxAffineInv (sbox a) := by
  by_cases h : a = 0
  · rw [h, gfInv_zero]
    rfl
  · exact gfInv_eq_of_gfMul_eq_one (gfMul_sboxAffineInv_sbox a h)

@[simp] theorem sboxInv_sbox : ∀ a : Byte, sboxInv (sbox a) = a := by decide

/-- `sbox` has a left inverse, so it is injective; on the finite set of bytes it is then surjective. -/
@[simp] theorem sbox_sboxInv (a : Byte) : sbox (sboxInv a) = a := by
  have hinj : Function.Injective sbox := Function.LeftInverse.injective sboxInv_sbox
  obtain ⟨b, rfl⟩ := Finite.injective_iff_surjective.1 hinj a
  rw [sboxInv_sbox]

/-- Settles O48: the table without the affine map is an inverse, and a byte has only one. -/
theorem sboxIsTheAffineMapOfTheInverse : Obligations.SboxIsTheAffineMapOfTheInverse := by
  intro a
  rw [gfInv_eq a, sboxAffine_sboxAffineInv]
  exact ⟨rfl, gfMul_sboxAffineInv_sbox a, gfInv_zero⟩

/-- Settles O49. -/
theorem sboxInvInvertsSbox : Obligations.SboxInvInvertsSbox := fun a => ⟨sboxInv_sbox a, sbox_sboxInv a⟩

/-- Settles O50. -/
theorem gfMulDistributes : Obligations.GfMulDistributes :=
  ⟨fun a b c => ⟨gfMul_xor_right a b c, gfMul_xor_left a b c⟩, by decide⟩

end Sys2Proof.Proofs
end

section
/-! The round transformations and the cipher (rules R65 to R69 and R72 to R74). The columns of `MixColumns` and of its
inverse are circulant products, which compose as their coefficients do. -/

namespace Sys2Proof.Proofs

open Sys2Proof Sys2Proof.Machine Sys2Proof.Laws

/-! ## Circulant products -/

/-- Row `r` of the product of a column `s` with the circulant matrix whose first row is `a`. -/
def circulant (a s : Fin 4 → Byte) (r : Fin 4) : Byte :=
  gfMul (a 0) (s r) ^^^ gfMul (a 1) (s (r + 1)) ^^^ gfMul (a 2) (s (r + 2)) ^^^ gfMul (a 3) (s (r + 3))

/-- The first row of the product of two circulant matrices with first rows `a` and `b`. -/
def circulantMul (a b : Fin 4 → Byte) (k : Fin 4) : Byte :=
  gfMul (a 0) (b k) ^^^ gfMul (a 1) (b (k + 3)) ^^^ gfMul (a 2) (b (k + 2)) ^^^ gfMul (a 3) (b (k + 1))

/-- The product of two circulant matrices is circulant. -/
theorem circulant_circulant (a b s : Fin 4 → Byte) : circulant a (circulant b s) = circulant (circulantMul a b) s := by
  funext r
  fin_cases r <;> simp [circulant, circulantMul, gfMul_xor_left, gfMul_xor_right, gfMul_assoc] <;> ac_rfl

/-- The first row of the matrix of `MixColumns` (rule R67). -/
def mixRow : Fin 4 → Byte := ![0x02, 0x03, 0x01, 0x01]

/-- The first row of the matrix of `InvMixColumns` (rule R68). -/
def invMixRow : Fin 4 → Byte := ![0x0E, 0x0B, 0x0D, 0x09]

theorem mixColumn_eq_circulant (s : Fin 4 → Byte) :
    mixColumn (s 0) (s 1) (s 2) (s 3) = circulant mixRow s := by
  funext r
  fin_cases r <;> simp [mixColumn, circulant, mixRow] <;> ac_rfl

theorem invMixColumn_eq_circulant (s : Fin 4 → Byte) :
    invMixColumn (s 0) (s 1) (s 2) (s 3) = circulant invMixRow s := by
  funext r
  fin_cases r <;> simp [invMixColumn, circulant, invMixRow] <;> ac_rfl

/-- The circulant matrix with first row 1, 0, 0, 0 is the identity. -/
theorem circulant_identity (s : Fin 4 → Byte) : circulant ![1, 0, 0, 0] s = s := by
  funext r
  simp [circulant]

theorem circulantMul_invMixRow_mixRow : circulantMul invMixRow mixRow = ![1, 0, 0, 0] := by decide

theorem circulantMul_mixRow_invMixRow : circulantMul mixRow invMixRow = ![1, 0, 0, 0] := by decide

/-! ## The round transformations, cell by cell -/

@[simp] theorem cell_subBytes (s : Block) (r c : Fin 4) : cell (subBytes s) r c = sbox (cell s r c) :=
  cell_ofCells ..

@[simp] theorem cell_invSubBytes (s : Block) (r c : Fin 4) : cell (invSubBytes s) r c = sboxInv (cell s r c) :=
  cell_ofCells ..

@[simp] theorem cell_shiftRows (s : Block) (r c : Fin 4) : cell (shiftRows s) r c = cell s r (c + r) :=
  cell_ofCells ..

@[simp] theorem cell_invShiftRows (s : Block) (r c : Fin 4) : cell (invShiftRows s) r c = cell s r (c - r) :=
  cell_ofCells ..

@[simp] theorem cell_addRoundKey (w : Vector Word 44) (i : Fin 11) (s : Block) (r c : Fin 4) :
    cell (addRoundKey w i s) r c = cell s r c ^^^ wordByte w[4 * i.val + c.val] r := cell_ofCells ..

/-- Column `c` of a state (rule R61). -/
def column (s : Block) (c : Fin 4) (r : Fin 4) : Byte := cell s r c

theorem column_mixColumns (s : Block) (c : Fin 4) : column (mixColumns s) c = circulant mixRow (column s c) := by
  rw [← mixColumn_eq_circulant]
  funext r
  exact cell_ofCells ..

theorem column_invMixColumns (s : Block) (c : Fin 4) :
    column (invMixColumns s) c = circulant invMixRow (column s c) := by
  rw [← invMixColumn_eq_circulant]
  funext r
  exact cell_ofCells ..

/-- States with the same columns are equal. -/
theorem block_ext_columns {s t : Block} (h : ∀ c, column s c = column t c) : s = t :=
  block_ext_cells fun r c => congrFun (h c) r

/-! ## The inverses of the round transformations -/

@[simp] theorem invSubBytes_subBytes (s : Block) : invSubBytes (subBytes s) = s :=
  block_ext_cells fun r c => by simp

@[simp] theorem subBytes_invSubBytes (s : Block) : subBytes (invSubBytes s) = s :=
  block_ext_cells fun r c => by simp

@[simp] theorem invShiftRows_shiftRows (s : Block) : invShiftRows (shiftRows s) = s :=
  block_ext_cells fun r c => by simp

@[simp] theorem shiftRows_invShiftRows (s : Block) : shiftRows (invShiftRows s) = s :=
  block_ext_cells fun r c => by simp

@[simp] theorem invMixColumns_mixColumns (s : Block) : invMixColumns (mixColumns s) = s :=
  block_ext_columns fun c => by
    rw [column_invMixColumns, column_mixColumns, circulant_circulant, circulantMul_invMixRow_mixRow,
      circulant_identity]

@[simp] theorem mixColumns_invMixColumns (s : Block) : mixColumns (invMixColumns s) = s :=
  block_ext_columns fun c => by
    rw [column_mixColumns, column_invMixColumns, circulant_circulant, circulantMul_mixRow_invMixRow,
      circulant_identity]

@[simp] theorem addRoundKey_addRoundKey (w : Vector Word 44) (i : Fin 11) (s : Block) :
    addRoundKey w i (addRoundKey w i s) = s :=
  block_ext_cells fun r c => by simp

/-- Settles O51: row by row a shift back, and column by column the product of two inverse circulant matrices. -/
theorem inverseRoundTransformations : Obligations.InverseRoundTransformations := fun s =>
  ⟨invShiftRows_shiftRows s, shiftRows_invShiftRows s, invMixColumns_mixColumns s, mixColumns_invMixColumns s⟩

/-! ## The rounds undone in reverse order -/

/-- `decRound w i` undoes the `SubBytes` and `ShiftRows` of the round after round `i` of `AES_ENC`, then the
`AddRoundKey` and `MixColumns` of round `i`; the `SubBytes` and `ShiftRows` of round `i` are left (rules R72, R73). -/
theorem decRound_encRound (w : Vector Word 44) (i : Fin 11) (s : Block) :
    decRound w i (shiftRows (subBytes (encRound w i s))) = shiftRows (subBytes s) := by
  simp [decRound, encRound]

theorem encRound_decRound (w : Vector Word 44) (i : Fin 11) (s : Block) :
    encRound w i (invSubBytes (invShiftRows (decRound w i s))) = invSubBytes (invShiftRows s) := by
  simp [decRound, encRound]

/-- If each step `g i` takes `n (f i x)` back to `n x`, the steps `g` in reverse order take `n` of the whole fold of `f`
back to `n` of its start. -/
theorem foldl_reverse_cancel {ι α : Type} {f g : ι → α → α} {n : α → α} (h : ∀ i x, g i (n (f i x)) = n x)
    {l l' : List ι} (hl : l.reverse = l') (x : α) :
    l'.foldl (fun y i => g i y) (n (l.foldl (fun y i => f i y) x)) = n x := by
  subst hl
  induction l generalizing x with
  | nil => rfl
  | cons i l ih => rw [List.foldl_cons, List.reverse_cons, List.foldl_append, ih, List.foldl_cons, h, List.foldl_nil]

theorem aesDecWith_aesEncWith (w : Vector Word 44) (x : Block) : aesDecWith w (aesEncWith w x) = x := by
  have hrounds := foldl_reverse_cancel (n := fun s => shiftRows (subBytes s)) (decRound_encRound w)
    (l := [1, 2, 3, 4, 5, 6, 7, 8, 9]) (l' := [9, 8, 7, 6, 5, 4, 3, 2, 1]) rfl (addRoundKey w 0 x)
  simp only [aesDecWith, aesEncWith, addRoundKey_addRoundKey, hrounds, invShiftRows_shiftRows, invSubBytes_subBytes]

theorem aesEncWith_aesDecWith (w : Vector Word 44) (x : Block) : aesEncWith w (aesDecWith w x) = x := by
  have hrounds := foldl_reverse_cancel (n := fun s => invSubBytes (invShiftRows s)) (encRound_decRound w)
    (l := [9, 8, 7, 6, 5, 4, 3, 2, 1]) (l' := [1, 2, 3, 4, 5, 6, 7, 8, 9]) rfl (addRoundKey w 10 x)
  simp only [aesDecWith, aesEncWith, addRoundKey_addRoundKey, hrounds, subBytes_invSubBytes, shiftRows_invShiftRows]

/-- Settles O53: each round of the one cipher undoes a round of the other, whatever the key schedule is. -/
theorem aesDecInvertsAesEnc : Obligations.AesDecInvertsAesEnc := fun key x =>
  ⟨aesDecWith_aesEncWith (keyExpansion key) x, aesEncWith_aesDecWith (keyExpansion key) x⟩

end Sys2Proof.Proofs
end

section
/-! The key schedule (rules R70, R71): the words of a longer schedule extend those of a shorter one, so that each word
of `KeyExpansion` is the one that its step of `scheduleWords` put in front. -/

namespace Sys2Proof.Proofs

open Sys2Proof Sys2Proof.Machine BitVec

/-! ## Words and bytes -/

/-- Each bit of a word of four bytes lies in one of the shifted bytes (rule R70). -/
theorem wordOfBytes_eq_or (b0 b1 b2 b3 : Byte) : wordOfBytes b0 b1 b2 b3 =
    b0.setWidth 32 <<< 24 ||| b1.setWidth 32 <<< 16 ||| b2.setWidth 32 <<< 8 ||| b3.setWidth 32 := by
  ext j hj
  unfold wordOfBytes
  grind

theorem wordByte_wordOfBytes (b0 b1 b2 b3 : Byte) (j : Fin 4) :
    wordByte (wordOfBytes b0 b1 b2 b3) j = ![b0, b1, b2, b3] j :=
  match j with
  | 0 => (extractLsb'_append_eq_of_le (by decide)).trans
      ((extractLsb'_append_eq_of_le (by decide)).trans extractLsb'_append_eq_left)
  | 1 => (extractLsb'_append_eq_of_le (by decide)).trans
      ((extractLsb'_append_eq_of_le (by decide)).trans extractLsb'_append_eq_right)
  | 2 => (extractLsb'_append_eq_of_le (by decide)).trans extractLsb'_append_eq_right
  | 3 => extractLsb'_append_eq_right

theorem rotWord_wordOfBytes (b0 b1 b2 b3 : Byte) :
    rotWord (wordOfBytes b0 b1 b2 b3) = wordOfBytes b1 b2 b3 b0 := by
  simp [rotWord, wordByte_wordOfBytes]

theorem subWord_wordOfBytes (b0 b1 b2 b3 : Byte) :
    subWord (wordOfBytes b0 b1 b2 b3) = wordOfBytes (sbox b0) (sbox b1) (sbox b2) (sbox b3) := by
  simp [subWord, wordByte_wordOfBytes]

/-! ## The words of the schedule -/

/-- Word `i` of the first `n + 4` words. -/
def scheduleWord (key : Block) (n i : Nat) : Word := (scheduleWords key n).getD (n + 3 - i) 0

/-- One more step leaves the words before it. -/
theorem scheduleWord_succ (key : Block) {n i : Nat} (hi : i < n + 4) :
    scheduleWord key (n + 1) i = scheduleWord key n i := by
  unfold scheduleWord
  rw [show n + 1 + 3 - i = (n + 3 - i) + 1 by omega]
  rfl

/-- A word of `KeyExpansion` is that word of every part of the schedule that reaches it. -/
theorem keyExpansion_getElem (key : Block) {n i : Nat} (hi : i < n + 4) (hn : n ≤ 40) :
    (keyExpansion key)[i] = scheduleWord key n i := by
  have hextend : ∀ k, scheduleWord key (n + k) i = scheduleWord key n i := fun k => by
    induction k with
    | zero => rfl
    | succ k ih => rw [← Nat.add_assoc, scheduleWord_succ key (by omega), ih]
  rw [← hextend (40 - n), Nat.add_sub_cancel' hn]
  simp [keyExpansion, scheduleWord]

/-- The first four words are those that `scheduleWords` starts from. -/
theorem keyExpansion_initial (key : Block) {i : Nat} (hi : i < 4) : (keyExpansion key)[i] =
    wordOfBytes key[4 * i] key[4 * i + 1] key[4 * i + 2] key[4 * i + 3] := by
  rw [keyExpansion_getElem key (n := 0) hi (by decide)]
  interval_cases i <;> rfl

/-- Word `n + 4` is the last of the first `n + 5` words, made from words of the first `n + 4` (rule R70). -/
theorem keyExpansion_recurrence (key : Block) {i : Nat} (h4 : 4 ≤ i) (hi : i < 44) : (keyExpansion key)[i] =
    (keyExpansion key)[i - 4] ^^^ scheduleTemp i (keyExpansion key)[i - 1] := by
  obtain ⟨n, rfl⟩ := Nat.exists_eq_add_of_le' h4
  rw [keyExpansion_getElem key (n := n + 1) (by omega) (by omega),
    keyExpansion_getElem key (n := n) (i := n + 4 - 4) (by omega) (by omega),
    keyExpansion_getElem key (n := n) (i := n + 4 - 1) (by omega) (by omega)]
  simp [scheduleWord, scheduleWords]

/-- Settles O52. -/
theorem keyScheduleFollowsTheRecurrence : Obligations.KeyScheduleFollowsTheRecurrence := by
  refine ⟨fun key i hi => ?_, fun key i h4 hi => keyExpansion_recurrence key h4 hi, fun a0 a1 a2 a3 =>
    ⟨rotWord_wordOfBytes a0 a1 a2 a3, subWord_wordOfBytes a0 a1 a2 a3⟩, by decide⟩
  rw [keyExpansion_initial key hi, wordOfBytes_eq_or]

end Sys2Proof.Proofs
end

section
/-! One event of a CBC command (rules R75 to R78): what it does at each position of the block loop, what it leaves, and
the checks before the loop. -/

namespace Sys2Proof.Proofs

open Sys2Proof Sys2Proof.Machine Sys2Proof.Laws

/-! ## The block loop -/

theorem exec_cbc_of_next {dir : Direction} {s t : State} {e : Engine} (he : s.phase = .busy e)
    (h : CbcNext dir s e t) : exec (cbcInstr dir) s = .next t :=
  (exec_cbc dir s).trans (cbcEvent_of_next he h)

/-- The position after the write of byte `j` of block `i` (rule R76). -/
theorem cbcWrite_next_position (s : State) (i : Nat) (j : Fin 16) :
    (if j ≠ 15 then Position.cbcWrite i (j + 1) else
      if i + 1 < s.length / 16 then .cbcRead (i + 1) 0 else .finish .ok) =
      if j = 15 then s.cbcLoopHead (i + 1) else .cbcWrite i (j + 1) := by
  rw [ite_not]
  rfl

/-- Settles O28: each clause is the case of `CbcNext` for its position. -/
theorem cbcBlockEvents : Obligations.CbcBlockEvents := by
  intro dir s e he
  refine ⟨fun i j hpos hlt hb => exec_cbc_of_next he (.read i j hpos hlt hb), fun i hpos => ⟨?_, ?_⟩,
    fun i j hpos hlt hb => ?_⟩
  · exact exec_cbc_of_next (dir := .enc) he (.compute i hpos)
  · exact exec_cbc_of_next (dir := .dec) he (.compute i hpos)
  · rw [cbcWrite_next_position]
    exact exec_cbc_of_next he (.write i j hpos hlt hb)

/-! ## The frame -/

/-- An event of a CBC command is its finish, or leaves all but the engine and the byte it stores to, and the latched
word in the engine. -/
theorem cbcNext_frame {dir : Direction} {s t : State} {e : Engine} (he : s.phase = .busy e) (h : CbcNext dir s e t) :
    (∃ c, e.pos = .finish c ∧ t = s.finish c) ∨
    ∃ f m, t = cbcState s f m ∧ f.cmdword = e.cmdword ∧
      ∀ a, s.storeAddr ≠ some a → Memory.read m a = Memory.read s.mem a := by
  cases h with
  | finish c hp => exact .inl ⟨c, hp, rfl⟩
  | check p => exact .inr ⟨{ e with pos := p }, s.mem, rfl, rfl, fun _ _ => rfl⟩
  | busError => exact .inr ⟨{ e with pos := .finish .opErr }, s.mem, rfl, rfl, fun _ _ => rfl⟩
  | load | read | compute => exact .inr ⟨_, s.mem, rfl, rfl, fun _ _ => rfl⟩
  | write i j hp =>
    have hstore : s.storeAddr = some (s.cbcWriteAddr i j) := by
      unfold State.storeAddr
      simp only [he, hp]
    exact .inr ⟨{ e with pos := _ }, _, rfl, rfl, fun a ha =>
      read_write_other _ _ fun heq => ha (hstore.trans (congrArg some heq.symm))⟩

/-- Settles O30: the finish leaves memory, and every other event leaves all but the engine and the byte it stores
to. -/
theorem cbcEventFrame : Obligations.CbcEventFrame := by
  intro dir s t h
  rw [exec_cbc] at h
  obtain ⟨e, he, hn⟩ := cbcEvent_cases h
  obtain ⟨c, hpos, rfl⟩ | ⟨f, m, rfl, hcmd, hmem⟩ := cbcNext_frame he hn
  · refine ⟨rfl, rfl, rfl, rfl, rfl, rfl, rfl, fun _ _ => rfl, fun hrunning => ?_⟩
    rw [(atFinish_iff s).2 ⟨e, c, he, hpos⟩] at hrunning
    cases hrunning
  · refine ⟨rfl, rfl, rfl, rfl, rfl, rfl, rfl, hmem, fun _ => ⟨rfl, rfl, rfl, rfl, rfl, rfl, fun e' he' => ?_⟩⟩
    cases he.symm.trans he'
    exact ⟨f, rfl, hcmd⟩

/-! ## The checks -/

/-- A check that reads only the registers leads on from one position to the next. -/
theorem execTimes_cbcCheck (dir : Direction) {s : State} {e : Engine} {p q : Position}
    (h : cbcCheckNext s p = some q) (k : Nat) :
    execTimes (cbcInstr dir) (k + 1) (s.goto e p) = execTimes (cbcInstr dir) k (s.goto e q) :=
  execTimes_succ (exec_cbcCheck dir (e := { e with pos := p }) (goto_phase s e p) h) k

theorem execTimes_finish (i : Instr) (s : State) (e : Engine) (c : ResultCode) :
    execTimes i 1 (s.goto e (.finish c)) = .next (s.finish c) :=
  execTimes_succ (exec_finish i (goto_phase s e _) rfl) 0

/-- A command just accepted stands at its dispatch (rule R52). -/
theorem goto_dispatch_of_accepted {s : State} {i : Instr} (h : s.accepted i) :
    s.goto (Engine.start (encode i)) .dispatch = s := by
  have hphase : s.phase = .busy { Engine.start (encode i) with pos := .dispatch } := h
  simp only [State.goto, State.withEngine, ← hphase]

section
variable {dir : Direction} {s : State}

theorem execTimes_to_keyCheck (ha : s.accepted (cbcInstr dir)) (k : Nat) :
    execTimes (cbcInstr dir) (k + 1) s =
      execTimes (cbcInstr dir) k (s.goto (Engine.start (encode (cbcInstr dir))) .cbcKeyCheck) := by
  conv_lhs => rw [← goto_dispatch_of_accepted ha]
  exact execTimes_cbcCheck dir rfl k

theorem execTimes_to_lengthCheck (ha : s.accepted (cbcInstr dir)) (hkey : s.keyw = 0b1111) (k : Nat) :
    execTimes (cbcInstr dir) (k + 2) s =
      execTimes (cbcInstr dir) k (s.goto (Engine.start (encode (cbcInstr dir))) .cbcLengthCheck) := by
  rw [execTimes_to_keyCheck ha, execTimes_cbcCheck dir rfl, keyCheck_eq_ite, if_pos hkey]

theorem cbcLengthOk_iff {n : Nat} : cbcLengthOk n = true ↔ 0 < n ∧ n % 16 = 0 := decide_eq_true_iff

theorem execTimes_to_rangeCheck (ha : s.accepted (cbcInstr dir)) (hkey : s.keyw = 0b1111)
    (hlen : cbcLengthOk s.length = true) (k : Nat) :
    execTimes (cbcInstr dir) (k + 3) s =
      execTimes (cbcInstr dir) k (s.goto (Engine.start (encode (cbcInstr dir))) .cbcRangeCheck) := by
  rw [execTimes_to_lengthCheck ha hkey, execTimes_cbcCheck dir rfl, opCheck, if_pos hlen]

/-- A failing check that leads to the finish ends the command with the event after it (rules R55, R56). -/
theorem execTimes_failing_check {e : Engine} {p : Position} {c : ResultCode}
    (h : cbcCheckNext s p = some (.finish c)) :
    execTimes (cbcInstr dir) 2 (s.goto e p) = .next (s.finish c) := by
  rw [execTimes_cbcCheck dir h, execTimes_finish]

end

/-- Settles O25: the checks that succeed lead to the one that fails, and the finish is the event after it. -/
theorem cbcReportsTheFirstFailedCheck : Obligations.CbcReportsTheFirstFailedCheck := by
  intro dir s ha
  simp only [leadsTo_iff ha]
  refine ⟨fun hkey => ?_, fun hkey hlen => ?_, fun hkey hne hmod hrange => ?_⟩
  · rw [execTimes_to_keyCheck ha]
    refine execTimes_failing_check (congrArg some ?_)
    rw [keyCheck_eq_ite, if_neg hkey]
  · rw [execTimes_to_lengthCheck ha hkey]
    refine execTimes_failing_check (congrArg some (if_neg ?_))
    rw [cbcLengthOk_iff]
    omega
  · rw [execTimes_to_rangeCheck ha hkey (cbcLengthOk_iff.2 ⟨Nat.pos_of_ne_zero hne, hmod⟩)]
    refine execTimes_failing_check (congrArg some (if_neg ?_))
    rw [Bool.and_eq_true, inRange_iff, inRange_iff]
    omega

end Sys2Proof.Proofs
end

section
/-! CBC commands that succeed (rules R76 to R80): without a bus error every checked command writes all its blocks, and
the equations of decryption invert those of encryption. -/

namespace Sys2Proof.Proofs

open Sys2Proof Sys2Proof.Machine Sys2Proof.Laws

/-! ## The run without a bus error -/

/-- Of the ways a checked command ends, `CbcReady` leaves the one in which every block is written. -/
theorem CbcOutcome.of_ready {dir : Direction} {s : State} {n : Nat} {m : Memory} {c : ResultCode}
    (h : CbcOutcome dir s n m c) (hr : CbcReady dir s) :
    c = .ok ∧ n = s.cbcEvents ∧ CbcProgress dir s s.length s.length m := by
  have hlen := length_eq_blocks hr.toCbcChecked
  cases h with
  | ok hn hm => exact ⟨rfl, hn, hm⟩
  | readError i j hi hb =>
    have hj := j.isLt
    rw [State.cbcReadAddr, Nat.add_assoc, hr.reads _ (by omega)] at hb
    cases hb
  | writeError i j hi hb =>
    have hj := j.isLt
    rw [State.cbcWriteAddr, Nat.add_assoc, hr.writes _ (by omega)] at hb
    cases hb

/-- A CBC command that passes its checks and meets no bus error runs to the finish with `OK` and all its blocks
written (rules R76 to R79). -/
theorem cbc_completes {dir : Direction} {s : State} (hwf : Memory.wf s.mem = true) (hr : CbcReady dir s) :
    ∃ m, execTimes (cbcInstr dir) s.cbcEvents s = .next { s.finish .ok with mem := m } ∧
      CbcProgress dir s s.length s.length m := by
  obtain ⟨n, c, m, hrun, hout⟩ := cbc_finishes hwf hr.toCbcChecked
  obtain ⟨rfl, rfl, hm⟩ := hout.of_ready hr
  exact ⟨m, hrun, hm⟩

/-- Block `i` of a completed command (rules R77 to R79). -/
theorem CbcProgress.block_of_completed {dir : Direction} {s : State} {m : Memory}
    (h : CbcProgress dir s s.length s.length m) {i : Nat} (hi : i < s.cbcBlocks) :
    Memory.block m (s.dstAddr + 16 * i) = s.overlapOutput dir s.mem m i :=
  h.block_written (by unfold State.cbcBlocks at hi; omega)

/-- Settles O35: memory after the last event satisfies the equations of rule R79, block by block. -/
theorem cbcOverlapFollowsTheEventOrder : Obligations.CbcOverlapFollowsTheEventOrder := by
  intro dir s hwf hr
  obtain ⟨m, hrun, hm⟩ := cbc_completes hwf hr
  refine ⟨_, (leadsTo_iff hr.accepted).2 hrun, rfl, fun i hi => ?_,
    fun hsafe i hi => overlapBlock_of_safe hsafe hi s.mem m, hm.frame⟩
  rw [hm.block_of_completed hi]
  cases dir <;> rfl

/-! ## The equations of CBC -/

/-- The first of several events. -/
theorem exists_exec_of_execTimes {i : Instr} {k : Nat} {s t : State} (h : execTimes i (k + 1) s = .next t) :
    ∃ s', exec i s = .next s' ∧ execTimes i k s' = .next t := by
  unfold execTimes at h
  split at h
  · next s' hs' => exact ⟨s', hs', h⟩
  · cases h
  · cases h

/-- Without a harmful overlap a CBC command writes the blocks of the equations of its direction, under every
interleaving with quiet turns (rules R11, R77, R78). -/
theorem cbc_writes_equations {dir : Direction} {s : State} (hwf : Memory.wf s.mem = true) (hr : CbcReady dir s)
    (hsafe : s.cbcSafeOverlap) :
    ∃ s' t, exec (cbcInstr dir) s = .next s' ∧ execTimes (cbcInstr dir) (s.cbcEvents - 1) s' = .next t ∧
      s.interleaved (cbcInstr dir) t ∧ t = { s.finish .ok with mem := t.mem } ∧
      (∀ i, i < s.cbcBlocks → Memory.block t.mem (s.dstAddr + 16 * i) =
        (cbcEquations dir s.keyBytes s.ivBytes s.inputBlocks).getD i Block.zero) ∧
      ∀ a, (a < s.dstAddr ∨ s.dstAddr + s.length ≤ a) → Memory.read t.mem a = Memory.read s.mem a := by
  obtain ⟨m, hrun, hm⟩ := cbc_completes hwf hr
  have hevents : s.cbcEvents = s.cbcEvents - 1 + 1 := by
    unfold State.cbcEvents
    omega
  obtain ⟨s', hfirst, hrest⟩ := exists_exec_of_execTimes (hevents ▸ hrun)
  refine ⟨s', _, hfirst, hrest, interleaved_of_execTimes hr.accepted hwf hrun, rfl, fun i hi => ?_, hm.frame⟩
  have hbefore : 16 * i ≤ s.length := by
    unfold State.cbcBlocks at hi
    omega
  rw [← hm.overlapOutput_of_safe hsafe hi hbefore]
  exact hm.block_of_completed hi

/-- Settles O33: the equations of encryption. -/
theorem cbcEncWritesTheCiphertext : Obligations.CbcEncWritesTheCiphertext :=
  fun _ hwf hr hsafe => cbc_writes_equations hwf hr hsafe

/-- Settles O34: the equations of decryption. -/
theorem cbcDecWritesThePlaintext : Obligations.CbcDecWritesThePlaintext :=
  fun _ hwf hr hsafe => cbc_writes_equations hwf hr hsafe

/-! ## The round trip -/

/-- The block function of decryption undoes that of encryption under the same chaining value (rule R74). -/
theorem xorBlock_aesDec_aesEnc (key cv p : Block) : xorBlock (aesDec key (aesEnc key (xorBlock p cv))) cv = p := by
  rw [aesDec, aesEnc, aesDecWith_aesEncWith, xorBlock_cancel]

/-- Settles O54: by induction on the blocks; both directions chain through the ciphertext block. -/
theorem cbcRoundTrip : Obligations.CbcRoundTrip := by
  intro key iv plaintext
  induction plaintext generalizing iv with
  | nil => rfl
  | cons p ps ih => simp only [cbcEncrypt, cbcDecrypt, xorBlock_aesDec_aesEnc, ih]

end Sys2Proof.Proofs
end

section
/-! The invariant (rules R20 to R22, R27, R76, R86, R92): every turn of the host and every event of the core
keeps it. -/

namespace Sys2Proof.Proofs

open Sys2Proof Sys2Proof.Machine Sys2Proof.Laws

/-! ## The parts of the invariant -/

theorem keyTracked_iff {s : State} :
    s.keyTracked = true ↔ ∀ k : Fin 4, s.keyw.getLsbD k = true ∨ s.key[k] = 0 := by
  simp [State.keyTracked, Fin.forall_fin_succ]

theorem phaseOk_of_idle {s : State} (h : s.phase = .idle) : s.phaseOk = true := by
  simp only [State.phaseOk, h]

theorem phaseOk_iff_of_busy {s : State} {e : Engine} (h : s.phase = .busy e) :
    s.phaseOk = true ↔ s.doneBit = false ∧ positionOk s e = true ∧ scheduleOk s e = true := by
  simp only [State.phaseOk, h, Bool.and_eq_true, Bool.not_eq_true', and_assoc]

theorem resultBits_le (c : ResultCode) : (resultBits c).toNat ≤ 3 := by cases c <;> decide

/-- The dispatch is a position of every word (rules R49, R54). -/
theorem positionOk_start (s : State) (v : Word) : positionOk s (Engine.start v) = true := by
  unfold positionOk
  split <;> rfl

/-! ## The updates of the state -/

section
variable {s : State}

/-- The queue and the answers are no part of the invariant. -/
theorem inv_with_queue (h : Inv s) (l : List Input) (r : List Response) :
    Inv { s with inputs := l, responses := r } :=
  ⟨h.memory, h.resultCode, h.resultMeaning, h.keyTracked, h.phase⟩

theorem inv_store (h : Inv s) (a : Word) (v : Byte) : Inv { s with mem := Memory.write s.mem a.toNat v } :=
  ⟨wf_write h.memory a.isLt v, h.resultCode, h.resultMeaning, h.keyTracked, h.phase⟩

/-- The operand registers but the key bind only a running command. -/
theorem inv_with_operands (h : Inv s) (hidle : s.phase = .idle) (src dst len : Word) (iv : Vector Word 4) :
    Inv { s with src := src, dst := dst, len := len, iv := iv } :=
  ⟨h.memory, h.resultCode, h.resultMeaning, h.keyTracked, phaseOk_of_idle hidle⟩

/-- A key write sets the `KEYW` bit of the register it writes, and keeps the others (rule R22). -/
theorem inv_keyWrite (h : Inv s) (hidle : s.phase = .idle) (k : Fin 4) (v : Word) :
    Inv { s with key := s.key.set k v, keyw := keywWithBit s.keyw k } where
  memory := h.memory
  resultCode := h.resultCode
  resultMeaning := h.resultMeaning
  keyTracked := keyTracked_iff.2 fun j => by
    by_cases hj : j = k
    · exact .inl (by simp [keywWithBit_getLsbD, hj])
    · refine (keyTracked_iff.1 h.keyTracked j).imp (fun hbit => by simp [keywWithBit_getLsbD, hbit]) fun hkey => ?_
      exact (Vector.getElem_set_ne k.isLt j.isLt fun hval => hj (Fin.ext hval.symm)).trans hkey
  phase := phaseOk_of_idle hidle

theorem inv_accept (h : Inv s) (v : Word) : Inv (s.accept v) :=
  ⟨h.memory, Nat.zero_le 3, fun _ => rfl, h.keyTracked,
    (phaseOk_iff_of_busy rfl).2 ⟨rfl, positionOk_start _ v, rfl⟩⟩

/-- No key register holds anything once all are 0. -/
theorem keyTracked_of_zeroized (h : s.key = Vector.replicate 4 0) : s.keyTracked = true :=
  keyTracked_iff.2 fun k => .inr (by simp [h])

theorem inv_finish (h : Inv s) (c : ResultCode) : Inv (s.finish c) :=
  ⟨h.memory, resultBits_le c, nofun, keyTracked_of_zeroized rfl, rfl⟩

theorem inv_takeReset (h : Inv s) : Inv s.takeReset :=
  ⟨h.memory, Nat.zero_le 3, fun _ => rfl, keyTracked_of_zeroized rfl, rfl⟩

/-! ## Turns of the host -/

theorem inv_hostWrite (h : Inv s) (slot : Slot) (v : Word) : Inv (s.hostWrite slot v) := by
  cases hb : s.busy with
  | true => rwa [hostWrite_of_busy hb]
  | false =>
    have hidle := phase_idle_of_not_busy hb
    rw [hostWrite_of_idle hb]
    cases slot with
    | cmd => exact inv_accept h v
    | status | reserved => exact h
    | src | dst | len | iv => exact inv_with_operands h hidle _ _ _ _
    | key k => exact inv_keyWrite h hidle k v

theorem inv_hostStep (h : Inv s) (turn : Input) : Inv (hostStep turn s) := by
  cases turn with
  | core => exact h
  | regRead off bits =>
    simp only [hostStep]
    split <;> exact inv_with_queue h _ _
  | regWrite off bits v =>
    simp only [hostStep]
    split
    · next slot _ => exact inv_with_queue (inv_hostWrite h slot v) _ _
    · exact inv_with_queue h _ _
  | memLoad => exact inv_with_queue h _ _
  | memStore a v => exact inv_store h a v
  | reset => exact inv_takeReset h
  | poll =>
    simp only [hostStep]
    split <;> exact inv_with_queue h _ _

/-! ## Events of the core -/

/-- A running command goes on with the same registers: the invariant is left to memory, the position and the key
schedule. -/
theorem inv_running (h : Inv s) {t : State} {e f : Engine} (he : s.phase = .busy e)
    (ht : t = { s.withEngine f with mem := t.mem }) (hm : Memory.wf t.mem = true)
    (hpos : ∀ g, t.phase = .busy g → positionOk t g = true)
    (hschedule : ∀ g, t.phase = .busy g → scheduleOk t g = true) : Inv t := by
  obtain ⟨hdone, -, -⟩ := (phaseOk_iff_of_busy he).1 h.phase
  have hphase : t.phase = .busy f := by rw [ht]; rfl
  have hdone' : t.doneBit = false := by rw [ht]; exact hdone
  refine ⟨hm, ?_, ?_, ?_, (phaseOk_iff_of_busy hphase).2 ⟨hdone', hpos f hphase, hschedule f hphase⟩⟩
  · rw [ht]
    exact h.resultCode
  · rw [ht]
    exact h.resultMeaning
  · rw [ht]
    exact h.keyTracked

end

section
variable {dir : Direction} {s t : State} {e f : Engine}

theorem cbcNext_wf (hm : Memory.wf s.mem = true) (h : CbcNext dir s e t) : Memory.wf t.mem = true := by
  cases h with
  | write i j hp hlt => exact wf_write hm hlt _
  | _ => exact hm

theorem cbcNext_positionOk (hd : decode e.cmdword = .ok (cbcInstr dir)) (hok : positionOk s e = true)
    (h : CbcNext dir s e t) (hf : t.phase = .busy f) : positionOk t f = true :=
  (cbcNext_closer hd (positionOk_cbc s hd ▸ hok) (Nat.lt_succ_self _) h f hf).1

/-- The checks come before the event that takes the key (rule R76). -/
theorem cbcCheck_scheduleOk {p : Position} (hp : cbcCheckNext s e.pos = some p) :
    scheduleOk s { e with pos := p } = true := by
  unfold cbcCheckNext at hp
  split at hp <;> cases hp
  · rfl
  · unfold State.keyCheck
    split <;> rfl
  · unfold opCheck
    split <;> rfl
  · unfold opCheck
    split <;> rfl

/-- The head of the block loop is reached with the key schedule taken. -/
theorem cbcLoopHead_scheduleOk (hw : f.w = keyExpansion s.keyBytes) (i : Nat) :
    scheduleOk s { f with pos := s.cbcLoopHead i } = true := by
  unfold State.cbcLoopHead
  split
  · exact beq_iff_eq.2 hw
  · rfl

/-- The event that takes the key sets the schedule, and the block loop keeps it (rules R27, R76). -/
theorem cbcNext_scheduleOk (hs : scheduleOk s e = true) (h : CbcNext dir s e t) (hf : t.phase = .busy f) :
    scheduleOk t f = true := by
  cases h with
  | finish => cases hf
  | check p hp =>
    cases hf
    exact cbcCheck_scheduleOk hp
  | busError =>
    cases hf
    rfl
  | load =>
    cases hf
    exact cbcLoopHead_scheduleOk (f := { e with w := keyExpansion s.keyBytes, cv := s.ivBytes }) rfl 0
  | read i j hp =>
    cases hf
    simp only [scheduleOk, hp] at hs
    split <;> exact hs
  | compute i hp =>
    cases hf
    simp only [scheduleOk, hp] at hs
    exact hs
  | write i j hp =>
    cases hf
    simp only [scheduleOk, hp] at hs
    split
    · exact cbcLoopHead_scheduleOk (f := e) (beq_iff_eq.1 hs) (i + 1)
    · exact hs

end

/-- An event of a CBC command keeps the invariant. -/
theorem inv_cbcNext {dir : Direction} {s t : State} {e : Engine} (hinv : Inv s) (he : s.phase = .busy e)
    (hd : decode e.cmdword = .ok (cbcInstr dir)) (h : CbcNext dir s e t) : Inv t := by
  obtain ⟨-, hok, hs⟩ := (phaseOk_iff_of_busy he).1 hinv.phase
  have hm := cbcNext_wf hinv.memory h
  have hpos := fun f => cbcNext_positionOk (f := f) hd hok h
  have hschedule := fun f => cbcNext_scheduleOk (f := f) hs h
  cases h with
  | finish c => exact inv_finish hinv c
  | _ => exact inv_running hinv he rfl hm hpos hschedule

section
variable {kind : TagKind} {s t : State} {e f : Engine}

theorem cmacNext_wf (hm : Memory.wf s.mem = true) (h : CmacNext kind s e t) : Memory.wf t.mem = true := by
  cases h with
  | zero j hp hlt | write j hp hlt => exact wf_write hm hlt _
  | _ => exact hm

theorem cmacNext_positionOk (hd : decode e.cmdword = .ok (cmacInstr kind)) (hok : positionOk s e = true)
    (h : CmacNext kind s e t) (hf : t.phase = .busy f) : positionOk t f = true :=
  (cmacNext_closer hd (positionOk_cmac s hd ▸ hok) (Nat.lt_succ_self _) h f hf).1

/-- The checks come before the event that takes the key (rule R86). -/
theorem cmacCheck_scheduleOk {p : Position} (hp : cmacCheckNext kind s e.pos = some p) :
    scheduleOk s { e with pos := p } = true := by
  unfold cmacCheckNext at hp
  split at hp <;> cases hp
  · rfl
  · unfold opCheck
    split <;> rfl
  · unfold State.keyCheck
    split <;> rfl
  · unfold opCheck
    split <;> rfl

/-- The key schedule and the subkeys are those of the key registers (rules R82, R86). -/
def cmacKeysOk (s : State) (e : Engine) : Bool :=
  e.w == keyExpansion s.keyBytes && e.l == cmacL e.w && e.k1 == cmacK1 e.w && e.k2 == cmacK2 e.w

/-- The head of the message loop is reached with the key taken. -/
theorem cmacLoopHead_scheduleOk (hk : cmacKeysOk s f = true) (m : Nat) :
    scheduleOk s { f with pos := s.cmacLoopHead m } = true := by
  unfold State.cmacLoopHead
  split <;> exact hk

/-- The event that takes the key sets schedule and subkeys, and the loops after it keep them (rules R27, R86). -/
theorem cmacNext_scheduleOk (hs : scheduleOk s e = true) (h : CmacNext kind s e t) (hf : t.phase = .busy f) :
    scheduleOk t f = true := by
  cases h with
  | finish => cases hf
  | check p hp =>
    cases hf
    exact cmacCheck_scheduleOk hp
  | busError =>
    cases hf
    rfl
  | zero j hp =>
    cases hf
    unfold tagLoop
    split <;> rfl
  | load hp =>
    cases hf
    refine cmacLoopHead_scheduleOk (s := s) (f := { e with
      w := keyExpansion s.keyBytes
      l := cmacL (keyExpansion s.keyBytes)
      k1 := cmacK1 (keyExpansion s.keyBytes)
      k2 := cmacK2 (keyExpansion s.keyBytes)
      x := Block.zero }) ?_ 0
    simp only [cmacKeysOk, beq_self_eq_true, Bool.and_self]
  | read m hp hlt hb b hblock =>
    cases hf
    simp only [scheduleOk, hp] at hs
    exact cmacLoopHead_scheduleOk (s := s) (f := { e with inBlock := b, x := _ }) hs (m + 1)
  | tag hp =>
    cases hf
    simp only [scheduleOk, hp] at hs
    exact hs
  | write j hp =>
    cases hf
    simp only [scheduleOk, hp] at hs
    unfold tagLoop
    split
    · exact hs
    · rfl

end

/-- An event of a CMAC command keeps the invariant. -/
theorem inv_cmacNext {kind : TagKind} {s t : State} {e : Engine} (hinv : Inv s) (he : s.phase = .busy e)
    (hd : decode e.cmdword = .ok (cmacInstr kind)) (h : CmacNext kind s e t) : Inv t := by
  obtain ⟨-, hok, hs⟩ := (phaseOk_iff_of_busy he).1 hinv.phase
  have hm := cmacNext_wf hinv.memory h
  have hpos := fun f => cmacNext_positionOk (f := f) hd hok h
  have hschedule := fun f => cmacNext_scheduleOk (f := f) hs h
  cases h with
  | finish c => exact inv_finish hinv c
  | _ => exact inv_running hinv he rfl hm hpos hschedule

/-- An event of a reserved word keeps the invariant. -/
theorem inv_rejectEvent {s t : State} {e : Engine} {r : DecodeError} (hinv : Inv s) (he : s.phase = .busy e)
    (hd : decode e.cmdword = .error r) (h : rejectEvent s e = .next t) : Inv t := by
  obtain ⟨-, rfl⟩ | ⟨c, -, rfl⟩ := rejectEvent_cases h
  · refine inv_running hinv he rfl hinv.memory ?_ ?_ <;> rintro f ⟨⟩
    · exact positionOk_reserved _ hd
    · rfl
  · exact inv_finish hinv c

/-- A turn of the core keeps the invariant. -/
theorem inv_coreStep {s t : State} (hinv : Inv s) (h : coreStep s = .next t) : Inv t := by
  obtain ⟨-, rfl⟩ | ⟨e, he, ⟨i, hi, hexec⟩ | ⟨r, hr, hreject⟩⟩ := coreStep_cases h
  · exact hinv
  · obtain ⟨dir, rfl⟩ | ⟨kind, rfl⟩ := instr_cases i
    · rw [exec_cbc] at hexec
      obtain ⟨f, hf, hn⟩ := cbcEvent_cases hexec
      cases he.symm.trans hf
      exact inv_cbcNext hinv he hi hn
    · rw [exec_cmac] at hexec
      obtain ⟨f, hf, hn⟩ := cmacEvent_cases hexec
      cases he.symm.trans hf
      exact inv_cmacNext hinv he hi hn
  · exact inv_rejectEvent hinv he hr hreject

/-- Settles O44: a step is a turn of the core or of the host. -/
theorem everyStepKeepsTheInvariant : Obligations.EveryStepKeepsTheInvariant := by
  intro s t hinv h
  obtain ⟨-, hcore⟩ | ⟨rest, -, hcore⟩ | ⟨turn, rest, -, -, rfl⟩ := step_cases h
  · exact inv_coreStep hinv hcore
  · exact inv_coreStep (inv_with_queue hinv rest s.responses) hcore
  · exact inv_hostStep (inv_with_queue hinv rest s.responses) turn

end Sys2Proof.Proofs
end

section
/-! Byte strings as blocks, the padding, the truncation selector and doubling (rules R8, R81, R83, R85). -/

namespace Sys2Proof.Proofs

open Sys2Proof Sys2Proof.Machine Sys2Proof.Laws

/-! ## Byte strings -/

@[simp] theorem blockOfBytes_getElem (bytes : List Byte) (k : Nat) (hk : k < 16) :
    (blockOfBytes bytes)[k] = bytes.getD k 0 := by
  simp only [blockOfBytes, Vector.getElem_ofFn]

@[simp] theorem blockOfBytes_toList (b : Block) : blockOfBytes b.toList = b := by
  ext k hk : 1
  simp [hk]

/-- Settles O58: byte by byte, before, at and after the byte 0x80. -/
theorem paddingAppendsOneBit : Obligations.PaddingAppendsOneBit := by
  intro x hx
  refine List.ext_getElem (by simp; omega) fun k hk _ => ?_
  obtain hlt | rfl | hgt := Nat.lt_trichotomy k x.length
  · simp [pad, List.getElem?_append, hlt]
  · simp [pad]
  · obtain ⟨d, rfl⟩ := Nat.exists_eq_add_of_lt hgt
    simp [pad, Nat.add_assoc]

/-- Settles O59: byte by byte. -/
theorem selectorKeepsTheOddBytes : Obligations.SelectorKeepsTheOddBytes := by
  intro t
  refine List.ext_getElem (by simp) fun k hk _ => ?_
  have hk8 : k < 8 := by simpa using hk
  rw [Vector.getElem_toList, trunc64_getElem]
  interval_cases k <;> rfl

/-! ## Blocks as 128-bit integers -/

/-- The fold of `int128` is a number in base 256 (rule R8). -/
theorem foldl_bytes_eq_ofDigits (bytes : List Byte) :
    bytes.foldl (fun acc byte => acc * 256 + byte.toNat) 0 = Nat.ofDigits 256 (bytes.reverse.map BitVec.toNat) := by
  rw [Nat.ofDigits_eq_foldr, List.foldr_map, List.foldr_reverse]
  simp only [Nat.cast_id, Nat.add_comm, Nat.mul_comm]

/-- A digit of a number given by its digits. -/
theorem ofDigits_digit {base : Nat} {digits : List Nat} (hlt : ∀ d ∈ digits, d < base) {i : Nat}
    (hi : i < digits.length) : Nat.ofDigits base digits / base ^ i % base = digits[i] := by
  have hdigit : digits[i] < base := hlt _ (List.getElem_mem hi)
  rw [Nat.ofDigits_div_pow_eq_ofDigits_drop i (Nat.zero_lt_of_lt hdigit) digits hlt, List.drop_eq_getElem_cons hi,
    Nat.ofDigits_cons, Nat.add_mul_mod_self_left, Nat.mod_eq_of_lt hdigit]

theorem int128_byte (b : Block) (j : Nat) (hj : j < 16) : (int128 b).extractLsb' (8 * (15 - j)) 8 = b[j] := by
  have hlt : ∀ d ∈ b.toList.reverse.map BitVec.toNat, d < 256 := by
    simp only [List.mem_map]
    rintro d ⟨byte, -, rfl⟩
    exact byte.isLt
  have hbound := Nat.ofDigits_lt_base_pow_length (by decide) hlt
  have hdigit := ofDigits_digit hlt (i := 15 - j) (by simp; omega)
  apply BitVec.eq_of_toNat_eq
  rw [BitVec.extractLsb'_toNat, int128, foldl_bytes_eq_ofDigits, BitVec.toNat_ofNat,
    Nat.mod_eq_of_lt (hbound.trans_eq (by simp)), Nat.shiftRight_eq_div_pow, pow_mul]
  refine hdigit.trans ?_
  simp [show 15 - (15 - j) = j by omega]

/-- The bits of `int128(B)` are those of the bytes, byte 15 the lowest (rule R8). -/
theorem int128_getLsbD (b : Block) {j i : Nat} (hj : j < 16) (hi : i < 8) :
    (int128 b).getLsbD (8 * (15 - j) + i) = b[j].getLsbD i := by
  rw [← int128_byte b j hj]
  simp [hi]

/-- `bytes128` byte by byte (rule R8). -/
theorem bytes128_getElem (v : BitVec 128) (j : Nat) (hj : j < 16) :
    (bytes128 v)[j] = v.extractLsb' (8 * (15 - j)) 8 := by
  simp only [bytes128, Vector.getElem_ofFn]

theorem bytes128_int128 (b : Block) : bytes128 (int128 b) = b := by
  ext j hj : 1
  rw [bytes128_getElem, int128_byte]

theorem bytes128_injective : Function.Injective bytes128 := by
  intro v v' h
  ext k hk
  have hbyte : (bytes128 v)[15 - k / 8] = (bytes128 v')[15 - k / 8] := by rw [h]
  have hbit := congrArg (BitVec.getLsbD · (k % 8)) hbyte
  have hpos : 8 * (15 - (15 - k / 8)) + k % 8 = k := by omega
  simpa [bytes128_getElem, hpos, Nat.mod_lt, BitVec.getLsbD_eq_getElem hk] using hbit

theorem int128_bytes128 (v : BitVec 128) : int128 (bytes128 v) = v := bytes128_injective (bytes128_int128 _)

/-! ## Doubling -/

/-- What doubling adds to the lowest byte when the highest bit leaves (rule R81). -/
def reduction (carry : Bool) : Byte := if carry then 0x87 else 0x00

/-- Doubling of a 128-bit integer (rule R81). -/
def double128 (v : BitVec 128) : BitVec 128 := (v <<< 1) ^^^ (reduction (v.getLsbD 127)).setWidth 128

theorem dbl_eq (b : Block) : dbl b = bytes128 (double128 (int128 b)) := by
  unfold dbl double128 reduction
  split <;> rfl

theorem double128_getLsbD_zero (v : BitVec 128) : (double128 v).getLsbD 0 = v.getLsbD 127 := by
  rw [double128, BitVec.getLsbD_xor, BitVec.getLsbD_setWidth]
  cases v.getLsbD 127 <;> simp [reduction]

theorem double128_getLsbD_succ (v : BitVec 128) {k : Nat} (hk : k + 1 < 128) :
    (double128 v).getLsbD (k + 1) = (v.getLsbD k ^^ (reduction (v.getLsbD 127)).getLsbD (k + 1)) := by
  rw [double128, BitVec.getLsbD_xor, BitVec.getLsbD_setWidth, BitVec.getLsbD_shiftLeft]
  simp only [hk, decide_true, Bool.true_and, Nat.add_sub_cancel, Nat.not_lt_of_le (Nat.le_add_left 1 k),
    decide_false, Bool.not_false]

theorem dbl_getLsbD (b : Block) {j i : Nat} (hj : j < 16) (hi : i < 8) :
    (dbl b)[j].getLsbD i = (double128 (int128 b)).getLsbD (8 * (15 - j) + i) := by
  rw [dbl_eq, ← int128_getLsbD _ hj hi, int128_bytes128]

theorem int128_top (b : Block) : (int128 b).getLsbD 127 = b[0].getLsbD 7 :=
  int128_getLsbD b (j := 0) (i := 7) (by decide) (by decide)

/-- Bit 0 of a byte comes from the byte after it, and bit 0 of byte 15 is the bit that leaves. -/
theorem dbl_getLsbD_zero (b : Block) {j : Nat} (hj : j < 15) : (dbl b)[j].getLsbD 0 = b[j + 1].getLsbD 7 := by
  rw [dbl_getLsbD b (by omega) (by decide), ← int128_getLsbD b (j := j + 1) (by omega) (by decide),
    show 8 * (15 - j) + 0 = 8 * (15 - (j + 1)) + 7 + 1 by omega, double128_getLsbD_succ _ (by omega),
    BitVec.getLsbD_of_ge (reduction _) _ (by omega), Bool.xor_false]

theorem dbl_last_getLsbD_zero (b : Block) : (dbl b)[15].getLsbD 0 = b[0].getLsbD 7 := by
  rw [dbl_getLsbD b (by decide) (by decide), ← int128_top]
  exact double128_getLsbD_zero _

/-- Every other bit comes from the bit below it; byte 15 is reduced. -/
theorem dbl_getLsbD_succ (b : Block) {j i : Nat} (hj : j < 16) (hi : i + 1 < 8) : (dbl b)[j].getLsbD (i + 1) =
    (b[j].getLsbD i ^^ (reduction (b[0].getLsbD 7)).getLsbD (8 * (15 - j) + i + 1)) := by
  rw [dbl_getLsbD b hj hi, ← Nat.add_assoc, double128_getLsbD_succ _ (by omega),
    int128_getLsbD b hj (by omega), int128_top]

theorem shiftLeft_one_getLsbD_succ (y : Byte) {i : Nat} (hi : i + 1 < 8) : (y <<< 1).getLsbD (i + 1) = y.getLsbD i := by
  rw [BitVec.getLsbD_shiftLeft]
  simp only [hi, decide_true, Bool.true_and, Nat.add_sub_cancel, Nat.not_lt_of_le (Nat.le_add_left 1 i),
    decide_false, Bool.not_false]

/-- Settles O56: bit by bit. -/
theorem doublingShiftsTheBytes : Obligations.DoublingShiftsTheBytes := by
  intro b
  refine ⟨fun j hj => BitVec.eq_of_getLsbD_eq fun i hi => ?_, BitVec.eq_of_getLsbD_eq fun i hi => ?_⟩
  · rw [BitVec.getLsbD_or, BitVec.getLsbD_ushiftRight]
    cases i with
    | zero =>
      rw [dbl_getLsbD_zero b hj]
      simp
    | succ i =>
      rw [dbl_getLsbD_succ b (by omega) hi, shiftLeft_one_getLsbD_succ _ hi,
        BitVec.getLsbD_of_ge (reduction _) _ (by omega), BitVec.getLsbD_of_ge b[j + 1] _ (by omega),
        Bool.xor_false, Bool.or_false]
  · rw [BitVec.getLsbD_xor, ← reduction]
    cases i with
    | zero =>
      rw [dbl_last_getLsbD_zero]
      cases b[0].getLsbD 7 <;> simp [reduction]
    | succ i =>
      rw [dbl_getLsbD_succ b (by decide) hi, shiftLeft_one_getLsbD_succ _ hi]
      simp

/-- The bit that leaves comes back as bit 0, so doubling loses nothing. -/
theorem double128_injective : Function.Injective double128 := by
  intro v v' h
  have hbit : ∀ k, (double128 v).getLsbD k = (double128 v').getLsbD k := fun k => by rw [h]
  have htop : v.getLsbD 127 = v'.getLsbD 127 := by simpa only [double128_getLsbD_zero] using hbit 0
  refine BitVec.eq_of_getLsbD_eq fun k hk => ?_
  obtain hlt | rfl := Nat.lt_succ_iff_lt_or_eq.1 hk
  · have hnext := hbit (k + 1)
    rw [double128_getLsbD_succ _ (by omega), double128_getLsbD_succ _ (by omega), htop] at hnext
    exact Bool.xor_left_inj.1 hnext
  · exact htop

theorem dbl_bijective : Function.Bijective dbl := by
  have hbytes : Function.Bijective bytes128 := ⟨bytes128_injective, fun b => ⟨int128 b, bytes128_int128 b⟩⟩
  have hint : Function.Bijective int128 :=
    Function.bijective_iff_has_inverse.2 ⟨bytes128, bytes128_int128, int128_bytes128⟩
  have hdouble : Function.Bijective double128 := Finite.injective_iff_bijective.1 double128_injective
  exact funext dbl_eq ▸ hbytes.comp (hdouble.comp hint)

/-- In a fixed point bits 7 to 127 are equal, and bit 7 is 0 whether the reduction was made or not. -/
theorem eq_zero_of_double128_eq {v : BitVec 128} (h : double128 v = v) : v = 0 := by
  have hzero : v.getLsbD 0 = v.getLsbD 127 := (congrArg (BitVec.getLsbD · 0) h).symm.trans (double128_getLsbD_zero v)
  have hsucc : ∀ k, k + 1 < 128 →
      v.getLsbD (k + 1) = (v.getLsbD k ^^ (reduction (v.getLsbD 127)).getLsbD (k + 1)) := fun k hk =>
    (congrArg (BitVec.getLsbD · (k + 1)) h).symm.trans (double128_getLsbD_succ v hk)
  have hseven : v.getLsbD 7 = false := by
    rw [hsucc 6 (by decide), hsucc 5 (by decide), hsucc 4 (by decide), hsucc 3 (by decide), hsucc 2 (by decide),
      hsucc 1 (by decide), hsucc 0 (by decide), hzero]
    generalize v.getLsbD 127 = carry
    revert carry
    decide
  have habove : ∀ d, 7 + d < 128 → v.getLsbD (7 + d) = false := fun d => by
    induction d with
    | zero => exact fun _ => hseven
    | succ d ih =>
      intro hd
      rw [← Nat.add_assoc, hsucc (7 + d) hd, ih (by omega), BitVec.getLsbD_of_ge (reduction _) _ (by omega)]
      rfl
  have htop : v.getLsbD 127 = false := habove 120 (by decide)
  have hall : ∀ k, k < 128 → v.getLsbD k = false := fun k => by
    induction k with
    | zero => exact fun _ => hzero.trans htop
    | succ k ih =>
      intro hk
      rw [hsucc k hk, ih (by omega), htop]
      simp [reduction]
  exact BitVec.eq_of_getLsbD_eq fun k hk => (hall k hk).trans BitVec.getLsbD_zero.symm

theorem dbl_eq_self_iff (b : Block) : dbl b = b ↔ b = Block.zero := by
  refine ⟨fun h => ?_, fun h => h ▸ by decide⟩
  have hint : double128 (int128 b) = int128 b := by
    rw [← int128_bytes128 (double128 (int128 b)), ← dbl_eq, h]
  rw [← bytes128_int128 b, eq_zero_of_double128_eq hint]
  decide

/-- Settles O57: doubling is injective on the 128-bit integers, which are finitely many. -/
theorem doublingFixesOnlyZero : Obligations.DoublingFixesOnlyZero :=
  ⟨dbl_eq_self_iff, fun _ _ h => dbl_bijective.injective h, dbl_bijective.surjective⟩

end Sys2Proof.Proofs
end

section
/-! The CMAC function (rules R82 to R84, R91): the chain of its blocks is injective in the running value and in each
block, so a change of one byte goes through to the tag. -/

namespace Sys2Proof.Proofs

open Sys2Proof Sys2Proof.Machine Sys2Proof.Laws

/-! ## The blocks of a message -/

theorem messageBlock_getD (message : List Byte) (i : Nat) {k : Nat} (hk : k < 16) :
    (messageBlock message i).getD k 0 = message.getD (16 * i + k) 0 := by
  simp [messageBlock, hk]

theorem messageBlock_length_le (message : List Byte) (i : Nat) : (messageBlock message i).length ≤ 16 := by
  simp [messageBlock]

theorem messageBlock_set_length (message : List Byte) (p : Nat) (v : Byte) (i : Nat) :
    (messageBlock message i).length = (messageBlock (message.set p v) i).length := by
  simp [messageBlock]

/-- The running value of rule R84 after the first `k` blocks. -/
def cmacRun (w : Vector Word 44) (message : List Byte) (k : Nat) : Block :=
  (List.range k).foldl (fun x i => cmacChain w x (blockOfBytes (messageBlock message i))) Block.zero

theorem cmacRun_zero (w : Vector Word 44) (message : List Byte) : cmacRun w message 0 = Block.zero := rfl

theorem cmacRun_succ (w : Vector Word 44) (message : List Byte) (k : Nat) :
    cmacRun w message (k + 1) = cmacChain w (cmacRun w message k) (blockOfBytes (messageBlock message k)) := by
  simp [cmacRun, List.range_succ]

/-- The tag of rule R84 under a key schedule. -/
def cmacWith (w : Vector Word 44) (message : List Byte) : Block :=
  cmacChain w (cmacRun w message (cmacBlocks message.length - 1))
    (cmacLast message.length (cmacK1 w) (cmacK2 w) (messageBlock message (cmacBlocks message.length - 1)))

theorem cmac_eq (key : Block) (message : List Byte) : cmac key message = cmacWith (keyExpansion key) message := rfl

/-! ## Injectivity -/

theorem aesEncWith_injective (w : Vector Word 44) : Function.Injective (aesEncWith w) :=
  Function.LeftInverse.injective (aesDecWith_aesEncWith w)

theorem cmacChain_running_injective {w : Vector Word 44} {x x' b : Block}
    (h : cmacChain w x b = cmacChain w x' b) : x = x' := xorBlock_left_inj (aesEncWith_injective w h)

theorem cmacChain_block_injective {w : Vector Word 44} {x b b' : Block}
    (h : cmacChain w x b = cmacChain w x b') : b = b' := by
  have hxor := aesEncWith_injective w h
  rw [xorBlock_comm x b, xorBlock_comm x b'] at hxor
  exact xorBlock_left_inj hxor

/-- Up to 16 bytes are determined by the block in which the same bytes follow them. -/
theorem eq_of_blockOfBytes_append {bytes bytes' : List Byte} (hle : bytes.length ≤ 16)
    (hlen : bytes'.length = bytes.length) (after : List Byte)
    (h : blockOfBytes (bytes ++ after) = blockOfBytes (bytes' ++ after)) : bytes = bytes' := by
  refine List.ext_getElem hlen.symm fun k hk hk' => ?_
  have hbyte := congrArg (fun b : Block => b[k]'(hk.trans_le hle)) h
  simpa [List.getElem?_append, hk, hk'] using hbyte

theorem blockOfBytes_injective {bytes bytes' : List Byte} (hle : bytes.length ≤ 16)
    (hlen : bytes'.length = bytes.length) (h : blockOfBytes bytes = blockOfBytes bytes') : bytes = bytes' :=
  eq_of_blockOfBytes_append hle hlen [] (by simpa only [List.append_nil] using h)

/-- The last block is injective in its bytes, whichever subkey it takes (rules R83, R84). -/
theorem cmacLast_injective {len : Nat} {k1 k2 : Block} {last last' : List Byte} (hle : last.length ≤ 16)
    (hlen : last'.length = last.length) (h : cmacLast len k1 k2 last = cmacLast len k1 k2 last') : last = last' := by
  unfold cmacLast at h
  split at h
  · exact blockOfBytes_injective hle hlen (xorBlock_left_inj h)
  · exact eq_of_blockOfBytes_append hle hlen [0x80] (xorBlock_left_inj h)

/-! ## A change of one byte -/

section
variable {w : Vector Word 44} {message : List Byte} {p : Nat} {v : Byte}

theorem messageBlock_set_other {i : Nat} (hi : i ≠ p / 16) :
    messageBlock (message.set p v) i = messageBlock message i := by
  refine List.ext_getElem? fun k => ?_
  by_cases hk : k < 16
  · simp [messageBlock, hk, show p ≠ 16 * i + k by omega]
  · simp [messageBlock, hk]

theorem messageBlock_set_ne (hp : p < message.length) (hv : v ≠ message[p]) :
    messageBlock (message.set p v) (p / 16) ≠ messageBlock message (p / 16) := by
  intro h
  have hbyte := congrArg (List.getD · (p % 16) 0) h
  simp only [messageBlock_getD _ _ (Nat.mod_lt p (by decide)), Nat.div_add_mod] at hbyte
  exact hv (by simpa [hp] using hbyte)

/-- Up to the changed block the running values are equal; from it on they differ. -/
theorem cmacRun_set_eq {k : Nat} (hk : k ≤ p / 16) : cmacRun w (message.set p v) k = cmacRun w message k := by
  induction k with
  | zero => rw [cmacRun_zero, cmacRun_zero]
  | succ k ih => rw [cmacRun_succ, cmacRun_succ, ih (by omega), messageBlock_set_other (by omega)]

theorem cmacRun_set_ne (hp : p < message.length) (hv : v ≠ message[p]) {k : Nat} (hk : p / 16 < k) :
    cmacRun w (message.set p v) k ≠ cmacRun w message k := by
  induction k with
  | zero => exact absurd hk (Nat.not_lt_zero _)
  | succ k ih =>
    rw [cmacRun_succ, cmacRun_succ]
    intro h
    obtain hlt | rfl := Nat.lt_succ_iff_lt_or_eq.1 hk
    · rw [messageBlock_set_other (by omega)] at h
      exact ih hlt (cmacChain_running_injective h)
    · rw [cmacRun_set_eq le_rfl] at h
      exact messageBlock_set_ne hp hv (blockOfBytes_injective (messageBlock_length_le _ _)
        (messageBlock_set_length message p v _) (cmacChain_block_injective h))

theorem cmacWith_set_ne (hp : p < message.length) (hv : v ≠ message[p]) :
    cmacWith w (message.set p v) ≠ cmacWith w message := by
  intro h
  unfold cmacWith at h
  rw [List.length_set] at h
  have hlast : p / 16 ≤ cmacBlocks message.length - 1 := by
    unfold cmacBlocks
    split <;> omega
  obtain hlt | heq := Nat.lt_or_eq_of_le hlast
  · rw [messageBlock_set_other (by omega)] at h
    exact cmacRun_set_ne hp hv hlt (cmacChain_running_injective h)
  · rw [← heq, cmacRun_set_eq le_rfl] at h
    exact messageBlock_set_ne hp hv (cmacLast_injective (messageBlock_length_le _ _)
      (messageBlock_set_length message p v _) (cmacChain_block_injective h))

end

theorem one_bit_ne_zero : ∀ bit : Fin 8, ((1 <<< bit.val : Nat) : Byte) ≠ 0 := by decide

/-- Settles O60: a changed bit changes its byte, and `TRUNC64` drops byte 0. -/
theorem oneBitChangesTheTag : Obligations.OneBitChangesTheTag := by
  refine ⟨fun key m p hp bit => cmacWith_set_ne hp fun h => one_bit_ne_zero bit ?_,
    Block.zero, Block.zero.set 0 1, by decide, by decide⟩
  simpa using h

end Sys2Proof.Proofs
end

section
/-! One event of a CMAC command (rules R82 to R86): what it does at each position, and what it leaves. -/

namespace Sys2Proof.Proofs

open Sys2Proof Sys2Proof.Machine Sys2Proof.Laws

/-! ## The events -/

theorem exec_cmac_of_next {kind : TagKind} {s t : State} {e : Engine} (he : s.phase = .busy e)
    (h : CmacNext kind s e t) : exec (cmacInstr kind) s = .next t :=
  (exec_cmac kind s).trans (cmacEvent_of_next he h)

/-- The position after a range check (rules R35, R86). -/
theorem opCheck_inRange (a n : Nat) (next : Position) :
    opCheck (inRange a n) next = if a + n ≤ 2 ^ 32 then next else .finish .opErr := by
  simp only [opCheck, inRange_iff]

theorem cmacComplete_iff {len : Nat} : cmacComplete len = true ↔ 0 < len ∧ len % 16 = 0 := by
  rw [cmacComplete, decide_eq_true_iff, Nat.pos_iff_ne_zero]

/-- The last block as the tag event forms it from the input block (rules R83, R84). -/
theorem cmacLast_lastBytes (len : Nat) (k1 k2 inBlock : Block) : cmacLast len k1 k2 (lastBytes len inBlock) =
    if 0 < len ∧ len % 16 = 0 then xorBlock inBlock k1
    else xorBlock (pad (inBlock.toList.take (len % 16))) k2 := by
  simp only [cmacLast, lastBytes, cmacComplete_iff]
  split
  · rw [blockOfBytes_toList]
  · rfl

theorem tagOutput_selected_getElem (t : Block) (i : Fin 8) :
    (tagOutput .selected t)[i.val] = t[2 * i.val + 1] := by
  simp [tagOutput]

theorem set!_eq_set (b : Block) {k : Nat} (hk : k < 16) (v : Byte) : b.set! k v = b.set k v := by
  ext l hl : 1
  simp [Vector.set!_eq_setIfInBounds, Vector.getElem_setIfInBounds, Vector.getElem_set]

/-- Settles O29: each clause is the case of `CmacNext` for its position. -/
theorem cmacEvents : Obligations.CmacEvents := by
  intro kind s e he
  simp only [← opCheck_inRange, ← keyCheck_eq_ite]
  refine ⟨fun hpos => ?_, fun hpos => ?_, fun hpos => ?_, fun hpos => ?_, fun hpos => ?_, fun j hpos hlt hb => ?_,
    fun m hpos hlt hb => ⟨_, rfl, ?_⟩, fun j hpos hlt hb => ?_⟩
  · exact exec_cmacCheck kind he (by rw [hpos]; rfl)
  · exact exec_cmacCheck kind he (by rw [hpos]; rfl)
  · exact exec_cmacCheck kind he (by rw [hpos]; rfl)
  · exact exec_cmac_of_next he (.load hpos)
  · refine ⟨_, _, tagOutput .selected _, cmacLast_lastBytes .., rfl,
      tagOutput_selected_getElem _, ?_, ?_⟩
    · exact exec_cmac_of_next (kind := .full) he (.tag hpos)
    · exact exec_cmac_of_next (kind := .selected) he (.tag hpos)
  · exact exec_cmac_of_next he (.zero j hpos hlt hb)
  · exact exec_cmac_of_next he (.read m hpos hlt hb _ (set!_eq_set _ (Nat.mod_lt m (by decide)) _))
  · exact exec_cmac_of_next he (.write j hpos hlt hb)

/-! ## The frame -/

/-- An event of a CMAC command is its finish, or leaves all but the engine and the byte it stores to, and the latched
word in the engine. -/
theorem cmacNext_frame {kind : TagKind} {s t : State} {e : Engine} (he : s.phase = .busy e)
    (h : CmacNext kind s e t) : (∃ c, e.pos = .finish c ∧ t = s.finish c) ∨
    ∃ f m, t = cbcState s f m ∧ f.cmdword = e.cmdword ∧
      ∀ a, s.storeAddr ≠ some a → Memory.read m a = Memory.read s.mem a := by
  have unstored : ∀ {j : Fin 16} (v : Byte), s.storeAddr = some (s.cmacTagAddr j) → ∀ a, s.storeAddr ≠ some a →
      Memory.read (Memory.write s.mem (s.cmacTagAddr j) v) a = Memory.read s.mem a := fun v hstore a ha =>
    read_write_other _ v fun heq => ha (hstore.trans (congrArg some heq.symm))
  cases h with
  | finish c hp => exact .inl ⟨c, hp, rfl⟩
  | check p => exact .inr ⟨{ e with pos := p }, s.mem, rfl, rfl, fun _ _ => rfl⟩
  | busError => exact .inr ⟨{ e with pos := .finish .opErr }, s.mem, rfl, rfl, fun _ _ => rfl⟩
  | load | read | tag => exact .inr ⟨_, s.mem, rfl, rfl, fun _ _ => rfl⟩
  | zero j hp | write j hp =>
    exact .inr ⟨{ e with pos := _ }, _, rfl, rfl, unstored _ (by simp only [State.storeAddr, he, hp])⟩

/-- Settles O31: the finish leaves memory, and every other event leaves all but the engine and the byte it stores
to. -/
theorem cmacEventFrame : Obligations.CmacEventFrame := by
  intro kind s t h
  rw [exec_cmac] at h
  obtain ⟨e, he, hn⟩ := cmacEvent_cases h
  obtain ⟨c, hpos, rfl⟩ | ⟨f, m, rfl, hcmd, hmem⟩ := cmacNext_frame he hn
  · refine ⟨rfl, rfl, rfl, rfl, rfl, rfl, rfl, fun _ _ => rfl, fun hrunning => ?_⟩
    rw [(atFinish_iff s).2 ⟨e, c, he, hpos⟩] at hrunning
    cases hrunning
  · refine ⟨rfl, rfl, rfl, rfl, rfl, rfl, rfl, hmem, fun _ => ⟨rfl, rfl, rfl, rfl, rfl, rfl, fun e' he' => ?_⟩⟩
    cases he.symm.trans he'
    exact ⟨f, rfl, hcmd⟩

end Sys2Proof.Proofs
end

section
/-! The run of a CMAC command whose tag range is in range (rules R36, R84 to R88), on any platform: what the engine and
memory hold at every position, and how the command ends. -/

namespace Sys2Proof.Proofs

open Sys2Proof Sys2Proof.Machine Sys2Proof.Laws

/-! ## The message through the chain -/

/-- The blocks that have gone through the chain once `i` bytes of a message of `len` bytes are read: the full ones
but the last (rule R86). -/
def chainedBlocks (len i : Nat) : Nat := min (i / 16) (cmacBlocks len - 1)

theorem cmacBlocks_sub_one (len : Nat) : cmacBlocks len - 1 = (len - 1) / 16 := by
  unfold cmacBlocks
  split <;> omega

theorem chainedBlocks_of_lt {len i : Nat} (hi : i < len) : chainedBlocks len i = i / 16 := by
  rw [chainedBlocks, cmacBlocks_sub_one]
  omega

theorem chainedBlocks_self (len : Nat) : chainedBlocks len len = cmacBlocks len - 1 := by
  rw [chainedBlocks, cmacBlocks_sub_one]
  omega

/-- The read of byte `i` completes a block that goes through the chain, or none. -/
theorem chainedBlocks_succ {len i : Nat} (hi : i < len) : chainedBlocks len (i + 1) =
    if (i + 1) % 16 = 0 ∧ i + 1 < len then i / 16 + 1 else i / 16 := by
  rw [chainedBlocks, cmacBlocks_sub_one]
  split <;> omega

/-- The engine after the first `i` bytes of a message, under the key schedule `w`: the running value of the blocks that
went through the chain, and the bytes after them in the input block. -/
structure CmacChaining (w : Vector Word 44) (message : List Byte) (i : Nat) (e : Engine) : Prop where
  schedule : e.w = w
  completeSubkey : e.k1 = cmacK1 w
  paddedSubkey : e.k2 = cmacK2 w
  running : e.x = cmacRun w message (chainedBlocks message.length i)
  input : ∀ l (hl : l < 16), 16 * chainedBlocks message.length i + l < i →
    e.inBlock[l] = message.getD (16 * chainedBlocks message.length i + l) 0

section
variable {w : Vector Word 44} {message : List Byte} {i : Nat} {e f : Engine}

/-- The load sets up the engine for an empty part of the message (rule R86). -/
theorem CmacChaining.start (hw : e.w = w) (hk1 : e.k1 = cmacK1 w) (hk2 : e.k2 = cmacK2 w) (hx : e.x = Block.zero) :
    CmacChaining w message 0 e := by
  have hnone : chainedBlocks message.length 0 = 0 := Nat.min_eq_left (Nat.zero_le _)
  refine ⟨hw, hk1, hk2, ?_, fun l _ hl => absurd hl (Nat.not_lt_zero _)⟩
  rw [hnone, cmacRun_zero, hx]

theorem CmacChaining.read (h : CmacChaining w message i e) (hi : i < message.length) (hw : f.w = e.w)
    (hk1 : f.k1 = e.k1) (hk2 : f.k2 = e.k2)
    (hin : f.inBlock = e.inBlock.set (i % 16) (message.getD i 0) (Nat.mod_lt i (by decide)))
    (hx : f.x = cmacRunning message.length i e.w e.x f.inBlock) : CmacChaining w message (i + 1) f := by
  have hinput : ∀ l (hl : l < 16), 16 * (i / 16) + l < i + 1 →
      f.inBlock[l] = message.getD (16 * (i / 16) + l) 0 := fun l hl hlt => by
    simp only [hin, Vector.getElem_set]
    split
    · next heq => rw [← heq, Nat.div_add_mod]
    · have hbefore := h.input l hl
      rw [chainedBlocks_of_lt hi] at hbefore
      exact hbefore (by omega)
  have hrunning := h.running
  rw [chainedBlocks_of_lt hi] at hrunning
  refine ⟨hw.trans h.schedule, hk1.trans h.completeSubkey, hk2.trans h.paddedSubkey, ?_, ?_⟩
  · rw [hx, cmacRunning, chainedBlocks_succ hi]
    split
    · next hfull =>
      have hblock : f.inBlock = blockOfBytes (messageBlock message (i / 16)) := by
        ext l hl : 1
        rw [blockOfBytes_getElem, messageBlock_getD _ _ hl]
        exact hinput l hl (by omega)
      rw [cmacRun_succ, h.schedule, hrunning, hblock]
    · exact hrunning
  · rw [chainedBlocks_succ hi]
    split
    · exact fun l _ hl => absurd hl (by omega)
    · exact hinput

/-- Once the whole message is read, the input block holds its last block. -/
theorem CmacChaining.lastBytes_eq (h : CmacChaining w message message.length e) :
    lastBytes message.length e.inBlock = messageBlock message (cmacBlocks message.length - 1) := by
  have hinput := h.input
  rw [chainedBlocks_self] at hinput
  have hlength : (lastBytes message.length e.inBlock).length =
      min 16 (message.length - 16 * (cmacBlocks message.length - 1)) := by
    simp only [lastBytes, cmacComplete_iff, cmacBlocks_sub_one]
    split <;> simp <;> omega
  refine List.ext_getElem (hlength.trans (by simp [messageBlock])) fun k hk hk' => ?_
  have hk16 : k < 16 := by omega
  have hbyte : (lastBytes message.length e.inBlock)[k] = e.inBlock[k] := by
    simp only [lastBytes]
    split <;> simp
  rw [hbyte, hinput k hk16 (by omega), ← messageBlock_getD _ _ hk16]
  simp [hk']

theorem CmacChaining.tag_eq (h : CmacChaining w message message.length e) :
    cmacChain e.w e.x (cmacLast message.length e.k1 e.k2 (lastBytes message.length e.inBlock)) =
      cmacWith w message := by
  rw [h.lastBytes_eq, h.schedule, h.completeSubkey, h.paddedSubkey, h.running, chainedBlocks_self]
  rfl

end

/-! ## Memory during the command -/

@[simp] theorem message_length (s : State) (kind : TagKind) : (s.message kind).length = s.length := by
  simp [State.message]

theorem message_getD (s : State) (kind : TagKind) {i : Nat} (hi : i < s.length) : (s.message kind).getD i 0 =
    if s.dstAddr ≤ s.srcAddr + i ∧ s.srcAddr + i < s.dstAddr + tagLength kind then 0
    else Memory.read s.mem (s.srcAddr + i) := by
  simp [State.message, hi]

/-- The output block of a CMAC command: its tag, or the selected bytes of it (rules R85, R86). -/
def cmacOutput (kind : TagKind) (s : State) : Block := tagOutput kind (cmac s.keyBytes (s.message kind))

/-- The first `zeroed` bytes of the tag range have been zeroed and then the first `written` ones written, and memory
`m` has come of the memory of `s` by that alone. -/
structure TagProgress (kind : TagKind) (s : State) (zeroed written : Nat) (m : Memory) : Prop where
  writesOk : ∀ k, k < zeroed → s.busOk (s.dstAddr + k) .write = true
  canonical : Memory.wf m = true
  tag : ∀ k : Fin 16, k.val < written → Memory.read m (s.dstAddr + k) = (cmacOutput kind s)[k]
  zeros : ∀ k, written ≤ k → k < zeroed → Memory.read m (s.dstAddr + k) = 0
  frame : ∀ a, (a < s.dstAddr ∨ s.dstAddr + zeroed ≤ a) → Memory.read m a = Memory.read s.mem a

section
variable {kind : TagKind} {s : State} {m : Memory}

theorem TagProgress.start (hwf : Memory.wf s.mem = true) : TagProgress kind s 0 0 s.mem where
  writesOk _ hk := absurd hk (Nat.not_lt_zero _)
  canonical := hwf
  tag _ hk := absurd hk (Nat.not_lt_zero _)
  zeros _ _ hk := absurd hk (Nat.not_lt_zero _)
  frame _ _ := rfl

theorem TagProgress.zero {j : Fin 16} (h : TagProgress kind s j 0 m) (hlt : s.cmacTagAddr j < 2 ^ 32)
    (hb : s.busOk (s.cmacTagAddr j) .write = true) :
    TagProgress kind s (j + 1) 0 (Memory.write m (s.cmacTagAddr j) 0) where
  writesOk k hk := by
    obtain hlt | rfl := Nat.lt_succ_iff_lt_or_eq.1 hk
    · exact h.writesOk k hlt
    · exact hb
  canonical := wf_write h.canonical hlt 0
  tag _ hk := absurd hk (Nat.not_lt_zero _)
  zeros k _ hk := by
    rw [read_write h.canonical, State.cmacTagAddr]
    split
    · rfl
    · exact h.zeros k (Nat.zero_le k) (by omega)
  frame a ha := by
    rw [read_write_other _ _ (by unfold State.cmacTagAddr; omega)]
    exact h.frame a (by omega)

theorem TagProgress.write {j : Fin 16} (h : TagProgress kind s (tagLength kind) j m) (hj : j.val < tagLength kind)
    (hlt : s.cmacTagAddr j < 2 ^ 32) :
    TagProgress kind s (tagLength kind) (j + 1) (Memory.write m (s.cmacTagAddr j) (cmacOutput kind s)[j]) where
  writesOk := h.writesOk
  canonical := wf_write h.canonical hlt _
  tag k hk := by
    rw [read_write h.canonical, State.cmacTagAddr]
    split
    · next heq =>
      obtain rfl : k = j := Fin.ext (by omega)
      rfl
    · exact h.tag k (by omega)
  zeros k hwritten hk := by
    rw [read_write_other _ _ (by unfold State.cmacTagAddr; omega)]
    exact h.zeros k (by omega) hk
  frame a ha := by
    rw [read_write_other _ _ (by unfold State.cmacTagAddr; omega)]
    exact h.frame a ha

/-- The message is read after the zeroing and before the first tag byte is written (rule R88, corner cases). -/
theorem TagProgress.read_message (h : TagProgress kind s (tagLength kind) 0 m) {i : Nat} (hi : i < s.length) :
    Memory.read m (s.cmacReadAddr i) = (s.message kind).getD i 0 := by
  rw [message_getD s kind hi, State.cmacReadAddr]
  split
  · next hin =>
    obtain ⟨k, hk⟩ := Nat.exists_eq_add_of_le hin.1
    rw [hk]
    exact h.zeros k (Nat.zero_le k) (by omega)
  · exact h.frame _ (by omega)

/-- Every byte of memory while no tag byte is written. -/
theorem TagProgress.read_zeroed {zeroed : Nat} (h : TagProgress kind s zeroed 0 m) (a : Nat) : Memory.read m a =
    if s.dstAddr ≤ a ∧ a < s.dstAddr + zeroed then 0 else Memory.read s.mem a := by
  split
  · next hin =>
    obtain ⟨k, rfl⟩ := Nat.exists_eq_add_of_le hin.1
    exact h.zeros k (Nat.zero_le k) (by omega)
  · exact h.frame a (by omega)

theorem tagBytes_length (kind : TagKind) (t : Block) : (tagBytes kind t).length = tagLength kind := by
  cases kind <;> simp [tagBytes, tagLength]

theorem tagBytes_getElem (kind : TagKind) (t : Block) {k : Nat} (hk : k < (tagBytes kind t).length) (hk16 : k < 16) :
    (tagBytes kind t)[k] = (tagOutput kind t)[k] := by
  cases kind with
  | full => simp [tagBytes, tagOutput]
  | selected =>
    rw [tagBytes_length] at hk
    simp [tagBytes, tagOutput, show k < 8 from hk]

/-- A complete tag in memory (rules R84 to R86). -/
theorem TagProgress.tagBytes_eq (h : TagProgress kind s (tagLength kind) (tagLength kind) m) :
    Memory.bytes m s.dstAddr (tagLength kind) = tagBytes kind (cmac s.keyBytes (s.message kind)) := by
  refine List.ext_getElem (by rw [bytes_length, tagBytes_length]) fun k hk hk' => ?_
  rw [bytes_length] at hk
  have hk16 : k < 16 := hk.trans_le (tagLength_le kind)
  rw [tagBytes_getElem kind _ hk' hk16]
  simpa [Memory.bytes, cmacOutput] using h.tag ⟨k, hk16⟩ hk

end

/-! ## The positions -/

/-- The checks between the zeroing and the load have passed (rule R86). -/
structure CmacPassed (s : State) : Prop where
  key : s.keyw = 0b1111
  message : s.srcAddr + s.length ≤ 2 ^ 32

/-- After the first `i` message bytes. -/
structure CmacReading (kind : TagKind) (s : State) (m : Memory) (e : Engine) (i : Nat) : Prop where
  passed : CmacPassed s
  progress : TagProgress kind s (tagLength kind) 0 m
  chaining : CmacChaining (keyExpansion s.keyBytes) (s.message kind) i e

/-- Before the write of tag byte `j`. -/
structure CmacWriting (kind : TagKind) (s : State) (m : Memory) (e : Engine) (j : Fin 16) : Prop where
  byte : j.val < tagLength kind
  passed : CmacPassed s
  progress : TagProgress kind s (tagLength kind) j m
  output : e.outBlock = cmacOutput kind s

/-- How a CMAC command with its tag range in range ends after `n` events (rules R36, R56, R86): with the first access
that the bus did not complete, with the first check that failed, or with the whole tag written. -/
inductive CmacOutcome (kind : TagKind) (s : State) (n : Nat) (m : Memory) : ResultCode → Prop
  | zeroError (j : Fin 16) (hj : j.val < tagLength kind) (hb : s.busOk (s.cmacTagAddr j) .write = false)
    (hm : TagProgress kind s j 0 m) : CmacOutcome kind s n m .opErr
  | noKey (hn : n = 4 + tagLength kind) (hkey : s.keyw ≠ 0b1111) (hm : TagProgress kind s (tagLength kind) 0 m) :
    CmacOutcome kind s n m .keyErr
  | messageRange (hn : n = 5 + tagLength kind) (hkey : s.keyw = 0b1111) (hrange : 2 ^ 32 < s.srcAddr + s.length)
    (hm : TagProgress kind s (tagLength kind) 0 m) : CmacOutcome kind s n m .opErr
  | readError (i : Nat) (hi : i < s.length) (hb : s.busOk (s.cmacReadAddr i) .read = false) (hpassed : CmacPassed s)
    (hm : TagProgress kind s (tagLength kind) 0 m) : CmacOutcome kind s n m .opErr
  | ok (hn : n = s.cmacEvents kind) (hpassed : CmacPassed s)
    (hm : TagProgress kind s (tagLength kind) (tagLength kind) m) : CmacOutcome kind s n m .ok

/-- What engine and memory hold at a position, after `n` events of a CMAC command that started in `s`. As for a CBC
command, the state there is `cbcState s e m`: no event before the finish changes anything but engine and memory. -/
def CmacAt (kind : TagKind) (s : State) (n : Nat) (m : Memory) (e : Engine) : Position → Prop
  | .dispatch => n = 0 ∧ m = s.mem
  | .cmacTagRangeCheck => n = 1 ∧ m = s.mem
  | .cmacZero j => n = 2 + j ∧ j.val < tagLength kind ∧ TagProgress kind s j 0 m
  | .cmacKeyCheck => n = 2 + tagLength kind ∧ TagProgress kind s (tagLength kind) 0 m
  | .cmacMessageRangeCheck =>
    n = 3 + tagLength kind ∧ s.keyw = 0b1111 ∧ TagProgress kind s (tagLength kind) 0 m
  | .cmacLoad => n = 4 + tagLength kind ∧ CmacPassed s ∧ TagProgress kind s (tagLength kind) 0 m
  | .cmacRead i => n = 5 + tagLength kind + i ∧ i < s.length ∧ CmacReading kind s m e i
  | .cmacTag => n = 5 + tagLength kind + s.length ∧ CmacReading kind s m e s.length
  | .cmacWrite j => n = 6 + tagLength kind + s.length + j ∧ CmacWriting kind s m e j
  | .finish c => CmacOutcome kind s (n + 1) m c
  | _ => False

/-! ## The events -/

section
variable {kind : TagKind} {s : State} {n : Nat} {m : Memory} {e : Engine}

/-- A check leads on, or to the finish with what was zeroed before it (rule R86). -/
theorem cmacAt_check (hwf : Memory.wf s.mem = true) (hrange : s.dstAddr + tagLength kind ≤ 2 ^ 32) {p q : Position}
    (h : CmacAt kind s n m e p) (hq : cmacCheckNext kind s p = some q) (f : Engine) :
    CmacAt kind s (n + 1) m f q := by
  unfold cmacCheckNext at hq
  split at hq <;> cases hq
  · obtain ⟨rfl, rfl⟩ := h
    exact ⟨rfl, rfl⟩
  · obtain ⟨rfl, rfl⟩ := h
    rw [opCheck_inRange, if_pos hrange]
    exact ⟨rfl, tagLength_pos kind, .start hwf⟩
  · obtain ⟨rfl, hm⟩ := h
    rw [keyCheck_eq_ite]
    split
    · next hkey => exact ⟨by omega, hkey, hm⟩
    · next hkey => exact .noKey (by omega) hkey hm
  · obtain ⟨rfl, hkey, hm⟩ := h
    rw [opCheck_inRange]
    split
    · next hmessage => exact ⟨by omega, ⟨hkey, hmessage⟩, hm⟩
    · next hmessage => exact .messageRange (by omega) hkey (Nat.lt_of_not_le hmessage) hm

theorem cmacAt_zero {j : Fin 16} (h : CmacAt kind s n m e (.cmacZero j)) (hlt : s.cmacTagAddr j < 2 ^ 32)
    (hb : s.busOk (s.cmacTagAddr j) .write = true) (f : Engine) :
    CmacAt kind s (n + 1) (Memory.write m (s.cmacTagAddr j) 0) f (tagLoop kind j .cmacZero .cmacKeyCheck) := by
  obtain ⟨hn, hj, hm⟩ := h
  have hnext := hm.zero hlt hb
  unfold tagLoop
  split
  · next hmore =>
    have hval := val_add_one_of_lt_tagLength hmore
    exact ⟨by omega, by omega, by rwa [hval]⟩
  · next hlast =>
    obtain hend : j.val + 1 = tagLength kind := by omega
    exact ⟨by omega, by rwa [← hend]⟩

/-- The head of the message loop, with the bytes before `i` read (rule R86). -/
theorem cmacAt_loopHead {i : Nat} (hi : i ≤ s.length) (hn : n = 5 + tagLength kind + i)
    (h : CmacReading kind s m e i) : CmacAt kind s n m e (s.cmacLoopHead i) := by
  unfold State.cmacLoopHead
  split
  · next hlt => exact ⟨hn, hlt, h⟩
  · next hge =>
    obtain rfl : i = s.length := by omega
    exact ⟨hn, h⟩

theorem CmacReading.next {i : Nat} (h : CmacReading kind s m e i) (hi : i < s.length) {f : Engine} (hw : f.w = e.w)
    (hk1 : f.k1 = e.k1) (hk2 : f.k2 = e.k2)
    (hin : f.inBlock = e.inBlock.set (i % 16) (Memory.read m (s.cmacReadAddr i)) (Nat.mod_lt i (by decide)))
    (hx : f.x = cmacRunning s.length i e.w e.x f.inBlock) : CmacReading kind s m f (i + 1) where
  passed := h.passed
  progress := h.progress
  chaining := by
    rw [h.progress.read_message hi] at hin
    rw [← message_length s kind] at hi hx
    exact h.chaining.read hi hw hk1 hk2 hin hx

/-- The tag event forms the output block (rules R84 to R86). -/
theorem CmacReading.tagOutput_eq (h : CmacReading kind s m e s.length) :
    tagOutput kind (cmacChain e.w e.x (cmacLast s.length e.k1 e.k2 (lastBytes s.length e.inBlock))) =
      cmacOutput kind s := by
  have hchaining := h.chaining
  rw [← message_length s kind] at hchaining ⊢
  rw [hchaining.tag_eq, cmacOutput, cmac_eq]

theorem cmacAt_write {j : Fin 16} (h : CmacAt kind s n m e (.cmacWrite j)) (hlt : s.cmacTagAddr j < 2 ^ 32)
    {f : Engine} (hout : f.outBlock = e.outBlock) :
    CmacAt kind s (n + 1) (Memory.write m (s.cmacTagAddr j) e.outBlock[j]) f
      (tagLoop kind j .cmacWrite (.finish .ok)) := by
  obtain ⟨hn, hw⟩ := h
  have hj := hw.byte
  have hnext := hw.progress.write hj hlt
  rw [← hw.output] at hnext
  unfold tagLoop
  split
  · next hmore =>
    have hval := val_add_one_of_lt_tagLength hmore
    exact ⟨by omega, by omega, hw.passed, by rwa [hval], hout.trans hw.output⟩
  · next hlast =>
    obtain hend : j.val + 1 = tagLength kind := by omega
    exact .ok (by unfold State.cmacEvents; omega) hw.passed (by rwa [hend] at hnext)

/-- An access that the bus does not complete ends the command: while zeroing or reading, for a byte that was zeroed
can be written (rules R31, R87). -/
theorem cmacAt_busError {p : Position} {a : Nat} {k : AccessKind} (h : CmacAt kind s n m e p)
    (hacc : cmacAccess s p = some (a, k)) (hb : s.busOk a k = false) (f : Engine) :
    CmacAt kind s (n + 1) m f (.finish .opErr) := by
  unfold cmacAccess at hacc
  split at hacc <;> cases hacc
  · next j =>
    obtain ⟨-, hj, hm⟩ := h
    exact .zeroError j hj hb hm
  · next j =>
    obtain ⟨-, hw⟩ := h
    rw [State.cmacTagAddr, hw.progress.writesOk _ hw.byte] at hb
    cases hb
  · next i =>
    obtain ⟨-, hi, hr⟩ := h
    exact .readError i hi hb hr.passed hr.progress

/-- Every event but the finish keeps what `CmacAt` says. -/
theorem cmacAt_next (hwf : Memory.wf s.mem = true) (hrange : s.dstAddr + tagLength kind ≤ 2 ^ 32)
    (h : CmacAt kind s n m e e.pos) {t : State} (ht : CmacNext kind (cbcState s e m) e t) :
    (∃ c, t = { s.finish c with mem := m } ∧ CmacOutcome kind s (n + 1) m c) ∨
    ∃ f m', t = cbcState s f m' ∧ f.cmdword = e.cmdword ∧ CmacAt kind s (n + 1) m' f f.pos := by
  cases ht with
  | check p hp => exact .inr ⟨{ e with pos := p }, m, rfl, rfl, cmacAt_check hwf hrange h hp _⟩
  | finish c hp =>
    rw [hp] at h
    exact .inl ⟨c, rfl, h⟩
  | busError a k hp hlt hb =>
    exact .inr ⟨{ e with pos := .finish .opErr }, m, rfl, rfl, cmacAt_busError h hp hb _⟩
  | zero j hp hlt hb =>
    rw [hp] at h
    exact .inr ⟨{ e with pos := _ }, _, rfl, rfl, cmacAt_zero h hlt hb _⟩
  | load hp =>
    rw [hp] at h
    obtain ⟨rfl, hpassed, hm⟩ := h
    exact .inr ⟨_, m, rfl, rfl, cmacAt_loopHead (Nat.zero_le _) (by omega) ⟨hpassed, hm, .start rfl rfl rfl rfl⟩⟩
  | read i hp hlt hb b hblock =>
    rw [hp] at h
    obtain ⟨rfl, hi, hr⟩ := h
    exact .inr ⟨_, m, rfl, rfl, cmacAt_loopHead hi (by omega) (hr.next hi rfl rfl rfl hblock rfl)⟩
  | tag hp =>
    rw [hp] at h
    obtain ⟨rfl, hr⟩ := h
    exact .inr ⟨_, m, rfl, rfl, by omega, tagLength_pos kind, hr.passed, hr.progress, hr.tagOutput_eq⟩
  | write j hp hlt hb =>
    rw [hp] at h
    exact .inr ⟨{ e with pos := _ }, _, rfl, rfl, cmacAt_write h hlt rfl⟩

end

end Sys2Proof.Proofs
end

section
/-! How a CMAC command ends (rules R84 to R90): with the first check that fails, with a bus error, or with the whole
tag, and under every interleaving with quiet turns (rule R11). -/

namespace Sys2Proof.Proofs

open Sys2Proof Sys2Proof.Machine Sys2Proof.Laws

/-! ## The run to an outcome -/

/-- From a position that `At` describes a command runs to an outcome, if each of its events keeps `At` or ends the
command: by induction on the events that are left. -/
theorem runs_to_outcome {i : Instr} {s : State} {At : Nat → Memory → Engine → Prop}
    {Out : Nat → Memory → ResultCode → Prop}
    (hkeeps : ∀ n m e t, At n m e → exec i (cbcState s e m) = .next t →
      (∃ c, t = { s.finish c with mem := m } ∧ Out (n + 1) m c) ∨
      ∃ f m', t = cbcState s f m' ∧ f.cmdword = e.cmdword ∧ At (n + 1) m' f) (left : Nat) :
    ∀ n m e, decode e.cmdword = .ok i → At n m e → FinishesWithin left (cbcState s e m) →
    ∃ k c m', execTimes i k (cbcState s e m) = .next { s.finish c with mem := m' } ∧ Out (n + k) m' c := by
  induction left with
  | zero => exact fun n m e _ _ hleft => absurd (hleft e rfl).2 (Nat.not_lt_zero _)
  | succ left ih =>
    intro n m e hd hat hleft
    obtain ⟨hok, hlt⟩ := hleft e rfl
    obtain ⟨t, hexec, hcloser⟩ := exec_closer (s := cbcState s e m) rfl hd hok hlt
    obtain ⟨c, rfl, hout⟩ | ⟨f, m', rfl, hcmd, hat'⟩ := hkeeps n m e t hat hexec
    · exact ⟨1, c, m, execTimes_succ hexec 0, hout⟩
    · obtain ⟨k, c, m'', hrun, hout⟩ := ih (n + 1) m' f (hcmd ▸ hd) hat' hcloser
      exact ⟨k + 1, c, m'', (execTimes_succ hexec k).trans hrun, by rwa [Nat.add_comm k 1, ← Nat.add_assoc]⟩

section
variable {kind : TagKind} {s : State}

/-- A CMAC command that is accepted with its tag range in range runs to one of its outcomes. -/
theorem cmac_finishes (hwf : Memory.wf s.mem = true) (ha : s.accepted (cmacInstr kind))
    (hrange : s.dstAddr + tagLength kind ≤ 2 ^ 32) :
    ∃ n c m, execTimes (cmacInstr kind) n s = .next { s.finish c with mem := m } ∧ CmacOutcome kind s n m c := by
  have hstart : cbcState s (Engine.start (encode (cmacInstr kind))) s.mem = s := goto_dispatch_of_accepted ha
  have hd : decode (Engine.start (encode (cmacInstr kind))).cmdword = .ok (cmacInstr kind) := decode_encode _
  have hleft := finishesWithin_of_busy ha ((positionOk_cmac s hd).trans rfl) (Nat.lt_succ_self _)
  have hkeeps : ∀ n m e t, CmacAt kind s n m e e.pos → exec (cmacInstr kind) (cbcState s e m) = .next t →
      (∃ c, t = { s.finish c with mem := m } ∧ CmacOutcome kind s (n + 1) m c) ∨
      ∃ f m', t = cbcState s f m' ∧ f.cmdword = e.cmdword ∧ CmacAt kind s (n + 1) m' f f.pos := by
    intro n m e t hat hexec
    obtain ⟨f, hf, hnext⟩ := cmacEvent_cases ((exec_cmac kind _).symm.trans hexec)
    cases hf
    exact cmacAt_next hwf hrange hat hnext
  rw [← hstart] at hleft
  obtain ⟨k, c, m, hrun, hout⟩ := runs_to_outcome hkeeps _ 0 s.mem _ hd ⟨rfl, rfl⟩ hleft
  rw [hstart] at hrun
  rw [Nat.zero_add] at hout
  exact ⟨k, c, m, hrun, hout⟩

/-! ## Which outcome it is -/

variable {n : Nat} {m : Memory} {c : ResultCode}

/-- The zeroing of a writable tag range meets no bus error. -/
theorem not_zeroError (hr : CmacTagReady kind s) {j : Fin 16} (hj : j.val < tagLength kind) :
    s.busOk (s.cmacTagAddr j) .write ≠ false := by
  rw [State.cmacTagAddr, hr.writes _ hj]
  decide

theorem resultBits_ne_zero {c : ResultCode} (h : c ≠ .ok) : resultBits c ≠ 0 := by
  cases c with
  | ok => exact absurd rfl h
  | keyErr | opErr | badCmd => decide

/-- A writable tag range is zeroed before anything else goes wrong (rules R86, R87): no outcome is left but the whole
tag and the zeroed range. -/
theorem CmacOutcome.of_tagReady (h : CmacOutcome kind s n m c) (hr : CmacTagReady kind s) :
    (c = .ok ∧ TagProgress kind s (tagLength kind) (tagLength kind) m) ∨
    (c ≠ .ok ∧ TagProgress kind s (tagLength kind) 0 m) := by
  cases h with
  | zeroError j hj hb => exact absurd hb (not_zeroError hr hj)
  | noKey _ _ hm | messageRange _ _ _ hm | readError _ _ _ _ hm => exact .inr ⟨by decide, hm⟩
  | ok _ _ hm => exact .inl ⟨rfl, hm⟩

/-- A command that cannot zero byte `j` of its tag range, and can zero every byte before it, ends there (rule R86). -/
theorem CmacOutcome.of_zeroError (h : CmacOutcome kind s n m c) {j : Nat} (hj : j < tagLength kind)
    (hwrites : ∀ k, k < j → s.busOk (s.dstAddr + k) .write = true) (hb : s.busOk (s.dstAddr + j) .write = false) :
    c = .opErr ∧ TagProgress kind s j 0 m := by
  have notZeroed : ∀ {zeroed written}, TagProgress kind s zeroed written m → zeroed ≤ j := fun hm =>
    Nat.le_of_not_lt fun hlt => by simp [hm.writesOk _ hlt] at hb
  cases h with
  | zeroError j' hj' hb' hm =>
    have hge : j ≤ j' := Nat.le_of_not_lt fun hlt => by
      rw [State.cmacTagAddr, hwrites _ hlt] at hb'
      cases hb'
    rw [← Nat.le_antisymm (notZeroed hm) hge]
    exact ⟨rfl, hm⟩
  | noKey _ _ hm | messageRange _ _ _ hm | readError _ _ _ _ hm | ok _ _ hm => exact absurd (notZeroed hm) (by omega)

theorem CmacOutcome.of_noKey (h : CmacOutcome kind s n m c) (hr : CmacTagReady kind s) (hkey : s.keyw ≠ 0b1111) :
    c = .keyErr ∧ n = 4 + tagLength kind ∧ TagProgress kind s (tagLength kind) 0 m := by
  cases h with
  | zeroError j hj hb => exact absurd hb (not_zeroError hr hj)
  | noKey hn _ hm => exact ⟨rfl, hn, hm⟩
  | messageRange _ hkey' => exact absurd hkey' hkey
  | readError _ _ _ hpassed | ok _ hpassed => exact absurd hpassed.key hkey

theorem CmacOutcome.of_messageRange (h : CmacOutcome kind s n m c) (hr : CmacTagReady kind s)
    (hkey : s.keyw = 0b1111) (hmessage : 2 ^ 32 < s.srcAddr + s.length) :
    c = .opErr ∧ n = 5 + tagLength kind ∧ TagProgress kind s (tagLength kind) 0 m := by
  cases h with
  | zeroError j hj hb => exact absurd hb (not_zeroError hr hj)
  | noKey _ hkey' => exact absurd hkey hkey'
  | messageRange hn _ _ hm => exact ⟨rfl, hn, hm⟩
  | readError _ _ _ hpassed | ok _ hpassed => exact absurd hpassed.message (Nat.not_le_of_lt hmessage)

theorem CmacOutcome.of_ready (h : CmacOutcome kind s n m c) (hr : CmacReady kind s) :
    c = .ok ∧ n = s.cmacEvents kind ∧ TagProgress kind s (tagLength kind) (tagLength kind) m := by
  cases h with
  | zeroError j hj hb => exact absurd hb (not_zeroError hr.toCmacTagReady hj)
  | noKey _ hkey => exact absurd hr.key hkey
  | messageRange _ _ hrange => exact absurd hr.message (Nat.not_le_of_lt hrange)
  | readError i hi hb =>
    rw [State.cmacReadAddr, hr.reads _ hi] at hb
    cases hb
  | ok hn _ hm => exact ⟨rfl, hn, hm⟩

end

/-! ## The statements -/

/-- A CMAC command that passes its checks and meets no bus error runs to the finish with `OK` and its tag written. -/
theorem cmac_completes {kind : TagKind} {s : State} (hwf : Memory.wf s.mem = true) (hr : CmacReady kind s) :
    ∃ m, execTimes (cmacInstr kind) (s.cmacEvents kind) s = .next { s.finish .ok with mem := m } ∧
      TagProgress kind s (tagLength kind) (tagLength kind) m := by
  obtain ⟨n, c, m, hrun, hout⟩ := cmac_finishes hwf hr.accepted hr.tagRange
  obtain ⟨rfl, rfl, hm⟩ := hout.of_ready hr
  exact ⟨m, hrun, hm⟩

/-- A CMAC command that is ready writes its output block, under every interleaving with quiet turns (rules R11,
R86). -/
theorem cmac_writes_output {kind : TagKind} {s : State} (hwf : Memory.wf s.mem = true) (hr : CmacReady kind s) :
    ∃ s' t, exec (cmacInstr kind) s = .next s' ∧ execTimes (cmacInstr kind) (s.cmacEvents kind - 1) s' = .next t ∧
      s.interleaved (cmacInstr kind) t ∧ t = { s.finish .ok with mem := t.mem } ∧
      (∀ k : Fin 16, k.val < tagLength kind → Memory.read t.mem (s.dstAddr + k) = (cmacOutput kind s)[k]) ∧
      ∀ a, (a < s.dstAddr ∨ s.dstAddr + tagLength kind ≤ a) → Memory.read t.mem a = Memory.read s.mem a := by
  obtain ⟨m, hrun, hm⟩ := cmac_completes hwf hr
  have hevents : s.cmacEvents kind = s.cmacEvents kind - 1 + 1 := by
    unfold State.cmacEvents
    omega
  obtain ⟨s', hfirst, hrest⟩ := exists_exec_of_execTimes (hevents ▸ hrun)
  exact ⟨s', _, hfirst, hrest, interleaved_of_execTimes hr.accepted hwf hrun, rfl, hm.tag, hm.frame⟩

/-- Settles O38: the output block of `CMAC128` is the tag. -/
theorem cmac128WritesTheTag : Obligations.Cmac128WritesTheTag := by
  intro s hwf hr
  obtain ⟨s', t, hfirst, hrest, hquiet, hfinish, htag, hframe⟩ := cmac_writes_output hwf hr
  refine ⟨s', t, hfirst, hrest, hquiet, hfinish, ?_, hframe⟩
  ext k hk : 1
  rw [block_getElem]
  exact htag ⟨k, hk⟩ hk

/-- Settles O39: the first half of the output block of `CMAC64` holds the odd-indexed bytes of the tag. -/
theorem cmac64WritesTheSelectedBytes : Obligations.Cmac64WritesTheSelectedBytes := by
  intro s hwf hr
  obtain ⟨s', t, hfirst, hrest, hquiet, hfinish, htag, hframe⟩ := cmac_writes_output hwf hr
  refine ⟨s', t, hfirst, hrest, hquiet, hfinish, fun i => ?_, hframe⟩
  rw [← tagOutput_selected_getElem]
  exact htag ⟨i, by omega⟩ i.isLt

/-- Settles O40: the outcomes of a command whose tag range is in range. -/
theorem cmacTagIsNeverPartlyWritten : Obligations.CmacTagIsNeverPartlyWritten := by
  intro kind s hwf ha hrange
  obtain ⟨n, c, m, hrun, hout⟩ := cmac_finishes hwf ha hrange
  have hleads := (leadsTo_iff ha).2 hrun
  refine ⟨fun hwrites => ⟨n, _, hleads, rfl, ?_⟩, fun j hj hwrites hb => ?_⟩
  · obtain ⟨rfl, hm⟩ | ⟨hc, hm⟩ := hout.of_tagReady ⟨ha, hrange, hwrites⟩
    · exact .inl ⟨rfl, hm.tagBytes_eq⟩
    · exact .inr ⟨resultBits_ne_zero hc, fun k hk => hm.zeros k (Nat.zero_le k) hk⟩
  · obtain ⟨rfl, hm⟩ := hout.of_zeroError hj hwrites hb
    exact ⟨n, _, hleads, rfl, hm.read_zeroed⟩

/-- Settles O41: both commands write the bytes of one tag. -/
theorem cmacIsDeterministic : Obligations.CmacIsDeterministic := by
  intro kind s₁ s₂ hwf₁ hwf₂ hr₁ hr₂ hkey hmessage
  obtain ⟨m₁, hrun₁, hm₁⟩ := cmac_completes hwf₁ hr₁
  obtain ⟨m₂, hrun₂, hm₂⟩ := cmac_completes hwf₂ hr₂
  refine ⟨_, _, (leadsTo_iff hr₁.accepted).2 hrun₁, (leadsTo_iff hr₂.accepted).2 hrun₂, rfl, rfl, ?_⟩
  change Memory.bytes m₁ _ _ = Memory.bytes m₂ _ _
  rw [hm₁.tagBytes_eq, hm₂.tagBytes_eq, hkey, hmessage]

/-- A tag range beyond the memory space ends a CMAC command before any access (rules R35, R86). -/
theorem execTimes_cmac_of_tagRange {kind : TagKind} {s : State} (ha : s.accepted (cmacInstr kind))
    (hrange : 2 ^ 32 < s.dstAddr + tagLength kind) :
    execTimes (cmacInstr kind) 3 s = .next (s.finish .opErr) := by
  have hfails : cmacCheckNext kind s .cmacTagRangeCheck = some (.finish .opErr) :=
    congrArg some ((opCheck_inRange ..).trans (if_neg (Nat.not_le_of_lt hrange)))
  rw [execTimes_succ (exec_cmacCheck kind ha rfl)]
  exact execTimes_two_of_goto_finish (exec_cmacCheck kind (goto_phase s _ _) hfails)

/-- Settles O26: the outcomes of a command that can zero its tag range, and the failing tag-range check before it. -/
theorem cmacReportsTheFirstFailedCheck : Obligations.CmacReportsTheFirstFailedCheck := by
  intro kind s ha
  refine ⟨fun hrange => (leadsTo_iff ha).2 (execTimes_cmac_of_tagRange ha hrange), fun hwf hr => ?_⟩
  obtain ⟨n, c, m, hrun, hout⟩ := cmac_finishes hwf ha hr.tagRange
  refine ⟨fun hkey => ?_, fun hkey hmessage => ?_⟩
  · obtain ⟨rfl, rfl, hm⟩ := hout.of_noKey hr hkey
    exact ⟨_, (leadsTo_iff ha).2 hrun, rfl, hm.read_zeroed⟩
  · obtain ⟨rfl, rfl, hm⟩ := hout.of_messageRange hr hkey hmessage
    exact ⟨_, (leadsTo_iff ha).2 hrun, rfl, hm.read_zeroed⟩

end Sys2Proof.Proofs
end

section
/-! Turns that change nothing of the core: an access of the host that reaches no slot (rule R93), and a turn of the
core while idle (rules R11, R103). -/

namespace Sys2Proof.Proofs

open Sys2Proof Sys2Proof.Machine Sys2Proof.Laws

/-! ## Accesses that reach no slot -/

/-- Every offset that is a multiple of 4 has a slot, so an access of 32 bits misses only by its alignment (rule R15). -/
theorem accessedSlot_eq_none_iff {off : BitVec 6} {bits : Nat} :
    accessedSlot off bits = none ↔ bits ≠ 32 ∨ off.toNat % 4 ≠ 0 := by
  simp only [accessedSlot, ite_eq_right_iff, reduceCtorEq, imp_false]
  exact Decidable.not_and_iff_not_or_not

/-- The answer to a write that reaches no slot: busy or not, no `HostWrite` takes place (rule R93). -/
theorem hostStep_regWrite_of_none {off : BitVec 6} {bits : Nat} (hslot : accessedSlot off bits = none) (v : Word)
    (s : State) : hostStep (.regWrite off bits v) s = s.respond .busError := by
  simp only [hostStep, hslot]

/-- The answer to a read that reaches no slot (rule R93). -/
theorem hostStep_regRead_of_none {off : BitVec 6} {bits : Nat} (hslot : accessedSlot off bits = none)
    (s : State) : hostStep (.regRead off bits) s = s.respond .busError := by
  simp only [hostStep, hslot]

/-- Settles O12: a malformed access reaches no slot, so its turn is only the answer. -/
theorem malformedAccessIsABusError : Obligations.MalformedAccessIsABusError := by
  intro s off bits v rest hmalformed hinputs
  have hslot := accessedSlot_eq_none_iff.2 hmalformed
  obtain hwrite | hread := hinputs
  · rw [step_host (by simp) hwrite, hostStep_regWrite_of_none hslot]
    rfl
  · rw [step_host (by simp) hread, hostStep_regRead_of_none hslot]
    rfl

/-! ## An idle core -/

theorem coreStep_of_idle {s : State} (h : s.phase = .idle) : coreStep s = .next s := by
  simp only [coreStep, h]

/-- Settles O5: a step in which the turn is the core's is `coreStep`, which leaves an idle core as it is. -/
theorem idleCoreTakesNoStep : Obligations.IdleCoreTakesNoStep := by
  intro s hidle
  refine ⟨fun hinputs => ?_, fun rest hinputs => ?_⟩
  · rw [step_core hinputs, coreStep_of_idle hidle]
  · rw [step_coreTurn hinputs, coreStep_of_idle (by exact hidle)]

end Sys2Proof.Proofs
end

section
/-! A CBC message in parts (rule R112): a run over the second part, started from the last ciphertext block of the first,
goes on where the first part ended. -/

namespace Sys2Proof.Proofs

open Sys2Proof Sys2Proof.Machine Sys2Proof.Laws

/-- Which of the input and output blocks of a CBC command are the ciphertext (rules R77, R78). -/
def cbcCiphertext : Direction → List Block → List Block → List Block
  | .enc, _, output => output
  | .dec, input, _ => input

/-- The first ciphertext block is the chaining value after the first block (rule R76). -/
theorem cbcCiphertext_cons (dir : Direction) (b o : Block) (input output : List Block) :
    cbcCiphertext dir (b :: input) (o :: output) = cbcNextCv dir b o :: cbcCiphertext dir input output := by
  cases dir <;> rfl

/-- The equations of a message are those of its first part, then those of the second from the last ciphertext block of
the first, or from the same chaining value where the first part is empty: by induction on the first part. -/
theorem cbcEquations_append (dir : Direction) (key cv : Block) (first second : List Block) :
    cbcEquations dir key cv (first ++ second) = cbcEquations dir key cv first ++
      cbcEquations dir key ((cbcCiphertext dir first (cbcEquations dir key cv first)).getLastD cv) second := by
  induction first generalizing cv with
  | nil => cases dir <;> rfl
  | cons b blocks ih =>
    rw [List.cons_append, cbcEquations_cons, cbcEquations_cons, ih, cbcCiphertext_cons, List.getLastD_cons,
      List.cons_append]

theorem cbcEquations_append_of_last {dir : Direction} {key cv last : Block} {first : List Block}
    (h : (cbcCiphertext dir first (cbcEquations dir key cv first)).getLast? = some last) (second : List Block) :
    cbcEquations dir key cv (first ++ second) =
      cbcEquations dir key cv first ++ cbcEquations dir key last second := by
  rw [cbcEquations_append, List.getLastD_eq_getLast?, h, Option.getD_some]

/-- Settles O55: the ciphertext is the output of encryption and the input of decryption. -/
theorem cbcSplitCarriesTheLastCiphertextBlock : Obligations.CbcSplitCarriesTheLastCiphertextBlock :=
  fun _ _ _ _ second =>
    ⟨fun h => cbcEquations_append_of_last (dir := .enc) h second,
     fun h => cbcEquations_append_of_last (dir := .dec) h second⟩

end Sys2Proof.Proofs
end

section
/-! What a reset and a finish leave (rules R104, R105, R108): a reset clears every slot, and a finish clears the key and
the IV, so that the next command needs its key written again. -/

namespace Sys2Proof.Proofs

open Sys2Proof Sys2Proof.Machine Sys2Proof.Laws

/-- Settles O18: the turn is `State.takeReset`, which writes neither memory nor the platform nor the queue. -/
theorem resetClearsEverySlotAndNoMemory : Obligations.ResetClearsEverySlotAndNoMemory := by
  intro s rest hinputs
  rw [step_host (by simp) hinputs]
  rfl

/-! ## After a finish -/

/-- Four zero words are sixteen zero bytes (rules R25, R26). -/
theorem blockOfWords_zero : blockOfWords (Vector.replicate 4 0) = Block.zero := by decide

@[simp] theorem finish_keyBytes (s : State) (c : ResultCode) : (s.finish c).keyBytes = Block.zero := blockOfWords_zero

@[simp] theorem finish_ivBytes (s : State) (c : ResultCode) : (s.finish c).ivBytes = Block.zero := blockOfWords_zero

/-- The state in which a command is accepted right after a finish, with no slot written between (rules R52, R108). -/
def acceptedAfterFinish (s : State) (c : ResultCode) (i : Instr) : State := (s.finish c).accept (encode i)

section
variable (s : State) (c : ResultCode)

theorem acceptedAfterFinish_accepted (i : Instr) : (acceptedAfterFinish s c i).accepted i := rfl

/-- No key slot counts as written after a finish, and acceptance writes none (rules R22, R56). -/
theorem acceptedAfterFinish_no_key (i : Instr) : (acceptedAfterFinish s c i).keyw ≠ 0b1111 := by
  rw [acceptedAfterFinish, accept_keyw, finish_keyw]
  decide

/-- A finish and an acceptance leave `DST` and the platform, so a tag range that is ready stays ready. -/
theorem acceptedAfterFinish_tagReady {kind : TagKind} (hrange : s.dstAddr + tagLength kind ≤ 2 ^ 32)
    (hwrites : ∀ k, k < tagLength kind → s.busOk (s.dstAddr + k) .write = true) :
    CmacTagReady kind (acceptedAfterFinish s c (cmacInstr kind)) :=
  ⟨acceptedAfterFinish_accepted s c _, hrange, hwrites⟩

end

/-- Settles O27: the key check is the first check of a CBC command that fails, and for a CMAC command with a writable
tag range it is the first that fails after the zeroing. -/
theorem keyMustBeWrittenBeforeEveryCommand : Obligations.KeyMustBeWrittenBeforeEveryCommand := by
  intro s c
  refine ⟨finish_ivBytes s c, finish_keyBytes s c, fun dir => ?_, fun kind hwf hrange hwrites => ?_⟩
  · obtain ⟨hnoKey, -, -⟩ := cbcReportsTheFirstFailedCheck dir _ (acceptedAfterFinish_accepted s c _)
    exact ⟨_, hnoKey (acceptedAfterFinish_no_key s c _), rfl, rfl, rfl, rfl⟩
  · obtain ⟨-, hready⟩ := cmacReportsTheFirstFailedCheck kind _ (acceptedAfterFinish_accepted s c _)
    obtain ⟨hnoKey, -⟩ := hready hwf (acceptedAfterFinish_tagReady s c hrange hwrites)
    obtain ⟨t, hleads, hfinish, hmem⟩ := hnoKey (acceptedAfterFinish_no_key s c _)
    refine ⟨t, hleads, ?_, ?_, ?_, hmem⟩ <;> rw [hfinish] <;> rfl

end Sys2Proof.Proofs
end
